-- ==== Sys2Proof/Word.lean ====
section
/-! DEFINITION. The word types of the block: the 32-bit data word and the 16-bit address of its host
port (R70), the 16-bit input word (R6), and the binary32 bit pattern (R10, R77). -/

namespace Sys2Proof

/-- A data word of the host port: every transaction moves exactly 32 bits (R70, R79). -/
abbrev Word := BitVec 32

/-- A word address of the host port (R70). -/
abbrev Addr := BitVec 16

/-- A 16-bit input word: a calibration word, a pixel count or a live sensor reading (R6). -/
abbrev Half := BitVec 16

/-- An IEEE 754 binary32 value, held as its bit pattern (R10, R77). -/
abbrev F32 := BitVec 32

/-- The number of pixels, `NPIX = W · H = 32 · 24` (R6). -/
abbrev nPix : Nat := 768

/-- A pixel index in row-major order (R17). -/
abbrev Pixel := Fin nPix

end Sys2Proof
end

