-- ==== Sys2Proof/Syntax.lean ====
section
/-! DEFINITION. The block's instructions, which are the six host commands (R1, R101), and the syntax of
the transaction scripts the host runs (R107, R108). -/

namespace Sys2Proof

/-- The commands, one constructor for each row of the opcode table (R101). -/
inductive Instr where
  /-- do nothing (R280) -/
  | nop
  /-- decode the calibration image into the calibration store (R150) -/
  | decode
  /-- copy one subpage half of PIX into RAW; `o` is the document's subpage offset, which
  counts modulo 2 (R104, R200; DEDUCED, log 12) -/
  | merge (o : Nat)
  /-- compute a temperature frame (R220) -/
  | evaluate
  /-- clear the sticky flag and the error code (R281) -/
  | clearFlags
  /-- reset the block from the port (R282) -/
  | softReset
  deriving DecidableEq, Repr

/-- One event of the world outside the block: a port transaction of the host (R70), the wait loop
`POLL`, which is a transaction repeated (R108), or the block's reset input asserted (R331). -/
inductive HostEvent where
  /-- `WR a, v` -/
  | wr (a : Addr) (v : Word)
  /-- `RD a` -/
  | rd (a : Addr)
  /-- `RD a -> name` -/
  | rdTo (a : Addr) (name : String)
  /-- the read of `EXPECT a, v`, whose test passes only if it returns `v` -/
  | expect (a : Addr) (v : Word)
  /-- `POLL`: read STATUS, again and again while bit 0 of the value is 1 -/
  | poll
  /-- the reset input (R331) -/
  | hardReset
  deriving DecidableEq, Repr

/-- The statements of a transaction script, the pseudo-instructions among them (R107, R108). -/
inductive Statement where
  | wr (a : Addr) (v : Word)
  | rd (a : Addr)
  | rdTo (a : Addr) (name : String)
  /-- `CMD X` -/
  | cmd (i : Instr)
  | poll
  /-- `RUN X` -/
  | run (i : Instr)
  /-- `LOADEE img` -/
  | loadEE (img : List Half)
  /-- `LOADPIX img` -/
  | loadPix (img : List Half)
  /-- `LOADAUX vbe, cp0, gain, ptat, cp1, vdd, ctrl` -/
  | loadAux (vbe cp0 gain ptat cp1 vdd ctrl : Half)
  | expect (a : Addr) (v : Word)
  deriving DecidableEq, Repr

end Sys2Proof
end

