-- ==== Sys2Proof/WellFormed.lean ====
section
/-! DEFINITION. Which instructions and script statements are well formed. -/

namespace Sys2Proof

/-- A command is well formed when its operand fits its field: the subpage offset of MERGE is 0 or 1
(R104). -/
def Instr.wellFormed : Instr → Bool
  | .nop => true
  | .decode => true
  | .merge o => decide (o < 2)
  | .evaluate => true
  | .clearFlags => true
  | .softReset => true

/-- A script statement is well formed when its command is, and when an image has the length of the buffer
it loads: 832 words for LOADEE, 768 for LOADPIX (R108). -/
def Statement.wellFormed : Statement → Bool
  | .wr _ _ => true
  | .rd _ => true
  | .rdTo _ _ => true
  | .cmd i => i.wellFormed
  | .poll => true
  | .run i => i.wellFormed
  | .loadEE img => decide (img.length = 832)
  | .loadPix img => decide (img.length = 768)
  | .loadAux _ _ _ _ _ _ _ => true
  | .expect _ _ => true

end Sys2Proof
end

