-- ==== Sys2Proof/Decode.lean ====
section
/-! DEFINITION. The command decoder, total on 32-bit words and rejecting by name, and the encoder, both
written from R100 to R104. -/

namespace Sys2Proof

/-- Why a word is no command (R103). -/
inductive DecodeError where
  /-- bits 3:0 hold a reserved opcode, `0x5` to `0xE` -/
  | reservedOp
  /-- a reserved bit is set: one of bits 31:5, or bit 4 of a word whose opcode is not MERGE's -/
  | reservedBit
  deriving DecidableEq, Repr

/-- The field OP, bits 3:0 (R100). -/
def opField (v : Word) : BitVec 4 := v.extractLsb' 0 4

/-- The field O, bit 4 (R100). -/
def offsetField (v : Word) : Nat := (v.extractLsb' 4 1).toNat

/-- A command without operand: bits 31:4 must be 0 (R102). -/
def decodePlain (v : Word) (i : Instr) : Except DecodeError Instr :=
  if v.extractLsb' 4 28 = 0#28 then .ok i else .error .reservedBit

/-- The decoder (R100 to R104). -/
def decodeWord (v : Word) : Except DecodeError Instr :=
  match (opField v).toNat with
  | 0x0 => decodePlain v .nop
  | 0x1 => decodePlain v .decode
  | 0x2 => if v.extractLsb' 5 27 = 0#27 then .ok (.merge (offsetField v)) else .error .reservedBit
  | 0x3 => decodePlain v .evaluate
  | 0x4 => decodePlain v .clearFlags
  | 0xF => decodePlain v .softReset
  | _ => .error .reservedOp

/-- The full encoding of a command (R101). The document's offset enters MERGE only modulo 2 (R104). -/
def encode : Instr → Word
  | .nop => 0x00000000#32
  | .decode => 0x00000001#32
  | .merge o => 0x00000002#32 ||| (BitVec.ofNat 32 (o % 2) <<< 4)
  | .evaluate => 0x00000003#32
  | .clearFlags => 0x00000004#32
  | .softReset => 0x0000000F#32

/-- The word a table row's bits stand for: a command is one 32-bit word, so the bits from `nbits` up are
0 and no bit lies above bit 31 (R100). -/
def tableWord (nbits w : Nat) : Word := BitVec.ofNat 32 (w % 2 ^ min nbits 32)

/-- The instruction the decoder reads from the bits of an opcode table row. -/
def decodeTableWord (nbits w : Nat) : Option Instr :=
  match decodeWord (tableWord nbits w) with
  | .ok i => some i
  | .error _ => none

end Sys2Proof
end

