-- ==== Sys2Proof/Config.lean ====
section
/-! DEFINITION. The values the spec leaves open, as constants with no body (no proof can see what they
are), and the default of the one parameter the spec gives a default for. -/

namespace Sys2Proof.Config

/-- The draw a host read returns where R75 and R82 say that it returns an unconstrained 32-bit value. The
argument is the number of draws made so far, so two reads return unrelated values (DESIGN CHOICE, log 3).
-/
opaque readDraw : Nat → Word

/-- The sign and the 22 free payload bits of a quiet NaN that becomes visible to the host (R15, D15).
The argument is the number of draws made so far (DEDUCED, log 4). -/
opaque nanDraw : Nat → BitVec 23

/-- How many host transactions a long command stays pending for, after its acceptance and before its
completion step: finite, possibly zero, and otherwise open (R345, `T_DECODE`, `T_MERGE`, `T_EVAL` of R6).
The argument is the number of draws made so far (DESIGN CHOICE, log 2). -/
opaque busyDelay : Nat → Nat

/-- What the engine would see in a 16-bit buffer word that nothing has written since reset. No accepted
command reads such a word (R302, R303, R202); the value is left open for the states in which one could
(DESIGN CHOICE, log 6). -/
opaque unwritten : Nat → Half

/-- `BAD_CAP`, the capacity of the bad-pixel list: the default that R6 fixes. The parameter itself is the
field `State.badCap` (DESIGN CHOICE, log 5). -/
def badCapDefault : Nat := 4

end Sys2Proof.Config
end

