-- ==== Sys2Proof/Machine/Table.lean ====
section
/-! DEFINITION. Tables of fixed length, held as lists so that two of them can be compared and written
out: the per-pixel arrays and the range tuples of the calibration store, and the temperature grid. -/

namespace Sys2Proof

/-- A table of `n` entries. -/
structure Table (n : Nat) (α : Type) where
  vals : List α
  len : vals.length = n
  deriving DecidableEq, Repr

/-- The table whose entry `i` is `f i`. -/
def Table.tab {n : Nat} {α : Type} (f : Fin n → α) : Table n α := ⟨List.ofFn f, List.length_ofFn⟩

/-- The table with the same value everywhere. -/
def Table.fill (n : Nat) {α : Type} (x : α) : Table n α := ⟨List.replicate n x, List.length_replicate⟩

/-- Entry `i`. -/
def Table.get {n : Nat} {α : Type} (t : Table n α) (i : Fin n) : α :=
  t.vals[i.val]'(by rw [t.len]; exact i.isLt)

/-- The table with entry `i` replaced. -/
def Table.set {n : Nat} {α : Type} (t : Table n α) (i : Fin n) (x : α) : Table n α :=
  ⟨t.vals.set i.val x, by rw [List.length_set, t.len]⟩

/-- One value for each of the 768 pixels (R17). -/
abbrev Grid (α : Type) := Table nPix α

end Sys2Proof
end

