-- ==== Sys2Proof/Machine/State.lean ====
section
/-! DEFINITION. The state of the machine: the block's own state (R30 to R56), its one parameter with a
default (R6), the outside world's events still to come and what the host has seen, and the counters that
say when the engine completes and which draw comes next. -/

namespace Sys2Proof.Machine

/-- The result codes of STATUS.ERR (R300). Codes 7 to 15 are never produced. -/
inductive Err where
  | ok
  | illegalCmd
  | eeIncomplete
  | pixIncomplete
  | notCalibrated
  | frameIncomplete
  | auxIncomplete
  deriving DecidableEq, Repr

/-- STATUS, field by field (R34); `Status.word` is the word the host reads. -/
structure Status where
  busy : Bool
  calValid : Bool
  outValid : Bool
  merged0 : Bool
  merged1 : Bool
  badOverflow : Bool
  nonfinite : Bool
  writeWhileBusy : Bool
  err : Err
  lastOp : BitVec 4
  deriving DecidableEq, Repr

/-- The names of the live auxiliary input registers (R44). -/
inductive AuxName where
  | vbe | cpSp0 | gain | ptat | cpSp1 | vdd | ctrl
  deriving DecidableEq, Repr

/-- The seven live auxiliary input registers, each the raw 16-bit word the host read from the sensor
(R44). -/
structure AuxBank where
  vbe : Half
  cpSp0 : Half
  gain : Half
  ptat : Half
  cpSp1 : Half
  vdd : Half
  ctrl : Half
  deriving DecidableEq, Repr

/-- The seven hidden bits `AUX_VALID` (R54). -/
structure AuxValid where
  vbe : Bool
  cpSp0 : Bool
  gain : Bool
  ptat : Bool
  cpSp1 : Bool
  vdd : Bool
  ctrl : Bool
  deriving DecidableEq, Repr

/-- The 16-bit buffers EE, PIX and RAW (R46, R47, R48), one list of (block address, word) with strictly
rising addresses. A word is listed exactly when it was written since the last reset, so the hidden bits
`EE_VALID[k]` and `PIX_VALID[i]` (R52, R53) are "the word is listed", and a listed RAW word is one a
MERGE wrote since reset (R75). DESIGN CHOICE, logs 6 and 10. -/
abbrev Memory := List (Nat × Half)

/-- The calibration store (R49, R50). Integer fields are integers (DESIGN CHOICE, log 18), binary32 fields
bit patterns. The
bad-pixel list holds both BAD_COUNT, its length, and BAD_IDX, its entries (R171). -/
structure CalStore where
  kVdd : Int
  vdd25 : Int
  kVPtat : F32
  kTPtat : F32
  vPtat25 : Int
  alphaPtat : F32
  gain : Int
  ksTa : F32
  ct3 : Int
  ct4 : Int
  tgc : F32
  resolution : Nat
  aCP0 : F32
  aCP1 : F32
  offCP0 : Int
  offCP1 : Int
  kVCP : F32
  kTaCP : F32
  ksTo : Table 4 F32
  alphaCorr : Table 4 F32
  badPixels : List Pixel
  pixOsRef : Grid Int
  a : Grid F32
  kV : Grid F32
  kTa : Grid F32
  pattern : Grid (Fin 2)
  deriving DecidableEq, Repr

/-- The output set (R45). -/
structure OutputSet where
  minTemp : F32
  maxTemp : F32
  temp : Grid F32
  evResCorr : F32
  evVdd : F32
  evTa : F32
  evKGain : F32
  evCP0 : F32
  evCP1 : F32
  evTaR : F32
  deriving DecidableEq, Repr

/-- The host agent and the reset input: the events still to come, in the order they happen (R83), and
what the host has seen (DESIGN CHOICE, log 9). -/
structure HostSide where
  /-- the events to come, the next one first -/
  inputs : List HostEvent
  /-- every value a read has returned, with its address, the latest first -/
  trace : List (Addr × Word)
  /-- the names bound by `RD a -> name`, the latest first (R107) -/
  bindings : List (String × Word)
  /-- whether every `EXPECT` so far has held (R108) -/
  testPass : Bool
  deriving DecidableEq, Repr

/-- The machine's state. -/
structure State where
  /-- STATUS (R34) -/
  status : Status
  /-- the AUX registers (R44) -/
  aux : AuxBank
  /-- `AUX_VALID` (R54) -/
  auxValid : AuxValid
  /-- EE, PIX and RAW with their valid bits (R46 to R48, R52, R53) -/
  mem : Memory
  /-- the calibration store (R49, R50) -/
  store : CalStore
  /-- the output set (R45) -/
  out : OutputSet
  /-- `PENDING` (R55); while BUSY is 0 it has the values of log 19 -/
  pending : Word
  /-- the parameter `BAD_CAP` (R6); no step writes it (DESIGN CHOICE, log 5) -/
  badCap : Nat
  /-- how many more events pass before the engine completes PENDING (R345); the model's own (DESIGN CHOICE,
  log 2) -/
  busyLeft : Nat
  /-- the durations of the long commands to come, in order, where they are given from outside; when the
  list is empty the duration is a draw (R345); the model's own (DESIGN CHOICE, log 2) -/
  delays : List Nat
  /-- how many draws have been made; the model's own (DESIGN CHOICE, logs 2 to 4) -/
  draws : Nat
  /-- the host agent -/
  host : HostSide
  deriving DecidableEq, Repr

/-- The machine never stops with a fault: "The block never uses `fault` or `stuck`" (93, U10 to U27), every
transaction completes (R70) and no error traps (R307). DEDUCED, log 14. -/
inductive Fault
  deriving DecidableEq, Repr

/-- Why an instruction has no meaning. -/
inductive Refusal where
  /-- An arm of `exec` whose instruction has no meaning yet raises it. Safe: the machine stops where the
  hardware goes on. No arm raises it now. -/
  | notModelled (mnemonic : String)
  deriving DecidableEq, Repr

/-- Location kinds of the readback window of scalars, `0x0040` to `0x0059` (R49, R71). -/
inductive CalField where
  | kVdd | vdd25 | kVPtat | kTPtat | vPtat25 | alphaPtat | gain | ksTa | ct3 | ct4 | tgc | resolution
  | aCP0 | aCP1 | offCP0 | offCP1 | kVCP | kTaCP
  | ksTo (r : Fin 4)
  | alphaCorr (r : Fin 4)
  deriving DecidableEq, Repr

/-- The `EV_*` registers, `0x0030` to `0x0036` (R45). -/
inductive EvName where
  | resCorr | vdd | ta | kGain | cp0 | cp1 | taR
  deriving DecidableEq, Repr

/-- What a port address names (R71). -/
inductive Loc where
  | id
  | cmd
  | status
  | reserved
  | aux (r : AuxName)
  | minTemp
  | maxTemp
  | badCount
  | badIdx (k : Nat)
  | ev (e : EvName)
  | cal (f : CalField)
  | ee (k : Nat)
  | pix (i : Pixel)
  | raw (i : Pixel)
  | temp (i : Pixel)
  | pixOsRef (i : Pixel)
  | a (i : Pixel)
  | kV (i : Pixel)
  | kTa (i : Pixel)
  | pattern (i : Pixel)
  deriving DecidableEq, Repr

/-- STATUS after the reset operation: every field 0 (R330, R332). -/
def Status.cleared : Status where
  busy := false
  calValid := false
  outValid := false
  merged0 := false
  merged1 := false
  badOverflow := false
  nonfinite := false
  writeWhileBusy := false
  err := .ok
  lastOp := 0#4

/-- `AUX_VALID` after the reset operation: all 0 (R330). -/
def AuxValid.none : AuxValid := ⟨false, false, false, false, false, false, false⟩

/-- The AUX registers right after power-on: the spec gives no value (R332); DESIGN CHOICE zero (log 7). -/
def AuxBank.powerOn : AuxBank := ⟨0#16, 0#16, 0#16, 0#16, 0#16, 0#16, 0#16⟩

/-- The calibration store right after power-on: the spec gives no value (R332); DESIGN CHOICE every field
zero and the bad-pixel list empty (log 7). -/
def CalStore.powerOn : CalStore where
  kVdd := 0
  vdd25 := 0
  kVPtat := 0#32
  kTPtat := 0#32
  vPtat25 := 0
  alphaPtat := 0#32
  gain := 0
  ksTa := 0#32
  ct3 := 0
  ct4 := 0
  tgc := 0#32
  resolution := 0
  aCP0 := 0#32
  aCP1 := 0#32
  offCP0 := 0
  offCP1 := 0
  kVCP := 0#32
  kTaCP := 0#32
  ksTo := Table.fill 4 0#32
  alphaCorr := Table.fill 4 0#32
  badPixels := []
  pixOsRef := Table.fill nPix 0
  a := Table.fill nPix 0#32
  kV := Table.fill nPix 0#32
  kTa := Table.fill nPix 0#32
  pattern := Table.fill nPix 0

/-- The output set right after power-on: the spec gives no value (R332); DESIGN CHOICE zero (log 7). -/
def OutputSet.powerOn : OutputSet where
  minTemp := 0#32
  maxTemp := 0#32
  temp := Table.fill nPix 0#32
  evResCorr := 0#32
  evVdd := 0#32
  evTa := 0#32
  evKGain := 0#32
  evCP0 := 0#32
  evCP1 := 0#32
  evTaR := 0#32

/-- The host before its first event. -/
def HostSide.start : HostSide := ⟨[], [], [], true⟩

/-- The machine right after a hardware reset at power-on (R330, R332): STATUS and every valid bit 0,
nothing pending; what the spec leaves unspecified has the values of log 7, and no command or read can
use them. -/
def State.reset : State where
  status := Status.cleared
  aux := AuxBank.powerOn
  auxValid := AuxValid.none
  mem := []
  store := CalStore.powerOn
  out := OutputSet.powerOn
  pending := 0#32
  badCap := Config.badCapDefault
  busyLeft := 0
  delays := []
  draws := 0
  host := HostSide.start

end Sys2Proof.Machine
end

