-- ==== Sys2Proof/Machine/Flags.lean ====
section
/-! DEFINITION. STATUS: the word the host reads and the writes of its fields (R34 to R43). -/

namespace Sys2Proof.Machine

/-- The code of a result (R300). -/
def Err.code : Err → BitVec 4
  | .ok => 0#4
  | .illegalCmd => 1#4
  | .eeIncomplete => 2#4
  | .pixIncomplete => 3#4
  | .notCalibrated => 4#4
  | .frameIncomplete => 5#4
  | .auxIncomplete => 6#4

/-- The STATUS word (R34): bit 0 BUSY, 1 CAL_VALID, 2 OUT_VALID, 3 MERGED0, 4 MERGED1, 5 BAD_OVERFLOW,
6 NONFINITE, 7 WRITE_WHILE_BUSY, 11:8 ERR, 15:12 LAST_OP, 31:16 zero. -/
def Status.word (t : Status) : Word :=
  0#16 ++ t.lastOp ++ t.err.code ++
    (BitVec.ofBool t.writeWhileBusy ++ BitVec.ofBool t.nonfinite ++ BitVec.ofBool t.badOverflow ++
      BitVec.ofBool t.merged1 ++ BitVec.ofBool t.merged0 ++ BitVec.ofBool t.outValid ++
      BitVec.ofBool t.calValid ++ BitVec.ofBool t.busy)

/-- `MERGED[o]`; the offset counts modulo 2 (R38, R104). -/
def Status.merged (t : Status) (o : Nat) : Bool := if o % 2 = 0 then t.merged0 else t.merged1

/-- `MERGED[o] ← 1` (R38, R200). -/
def Status.setMerged (t : Status) (o : Nat) : Status :=
  if o % 2 = 0 then { t with merged0 := true } else { t with merged1 := true }

/-- `STATUS.LAST_OP ← op` (R43). -/
def State.setLastOp (s : State) (op : BitVec 4) : State :=
  { s with status := { s.status with lastOp := op } }

/-- `STATUS.ERR ← e` (R42). -/
def State.setErr (s : State) (e : Err) : State :=
  { s with status := { s.status with err := e } }

/-- A host write discarded because BUSY is 1: only WRITE_WHILE_BUSY is set (R41, R82). -/
def State.discardWrite (s : State) : State :=
  { s with status := { s.status with writeWhileBusy := true } }

/-- `STATUS.WRITE_WHILE_BUSY ← 0` (R281). -/
def State.clearWriteWhileBusy (s : State) : State :=
  { s with status := { s.status with writeWhileBusy := false } }

end Sys2Proof.Machine
end

