-- ==== Sys2Proof/Machine/Ops.lean ====
section
/-! DEFINITION. The named operations over the state: the 16-bit buffers and their valid bits, the AUX
registers, the address map, the acceptance of a command and the record of an error (this block's only
exception: nothing traps, R307), and the reset operation. -/

namespace Sys2Proof.Machine

/-! ### The 16-bit buffers -/

/-- The first block address of EE (R46), of PIX (R47) and of RAW (R48). -/
def eeBase : Nat := 0x0400
def pixBase : Nat := 0x0800
def rawBase : Nat := 0x0C00

/-- The number of calibration words, `EE_WORDS` (R6). -/
def eeWords : Nat := 832

/-- The word at an address, when one was written since reset. -/
def Memory.lookup : Memory → Nat → Option Half
  | [], _ => none
  | (b, w) :: m, a => if a = b then some w else Memory.lookup m a

/-- Store a word, keeping the addresses strictly rising. -/
def Memory.write : Memory → Nat → Half → Memory
  | [], a, w => [(a, w)]
  | (b, v) :: m, a, w =>
    if a < b then (a, w) :: (b, v) :: m
    else if a = b then (a, w) :: m
    else (b, v) :: Memory.write m a w

/-- The canonical form: the addresses rise strictly. -/
abbrev Memory.wf (m : Memory) : Prop := List.Pairwise (fun x y : Nat × Half => x.1 < y.1) m

/-- Whether a word was written since reset: the valid bit of an EE or PIX word (R52, R53). -/
def Memory.listed (m : Memory) (a : Nat) : Bool := (m.lookup a).isSome

/-- What the engine reads at an address. -/
def Memory.read (m : Memory) (a : Nat) : Half := (m.lookup a).getD (Config.unwritten a)

/-- `EE_VALID[k]` (R52). -/
def State.eeValid (s : State) (k : Nat) : Bool := s.mem.listed (eeBase + k)

/-- `PIX_VALID[i]` (R53). -/
def State.pixValid (s : State) (i : Nat) : Bool := s.mem.listed (pixBase + i)

/-- Whether a MERGE has written `RAW[i]` since reset (R75). -/
def State.rawMerged (s : State) (i : Nat) : Bool := s.mem.listed (rawBase + i)

/-- `EE[k]`, `PIX[i]`, `RAW[i]` as a command reads them. -/
def State.ee (s : State) (k : Nat) : Half := s.mem.read (eeBase + k)
def State.pix (s : State) (i : Nat) : Half := s.mem.read (pixBase + i)
def State.raw (s : State) (i : Nat) : Half := s.mem.read (rawBase + i)

/-- All 832 bits `EE_VALID` are 1 (R52, R302). -/
def State.eeComplete (s : State) : Bool := (List.range eeWords).all s.eeValid

/-! ### The AUX registers -/

def AuxBank.get (b : AuxBank) : AuxName → Half
  | .vbe => b.vbe
  | .cpSp0 => b.cpSp0
  | .gain => b.gain
  | .ptat => b.ptat
  | .cpSp1 => b.cpSp1
  | .vdd => b.vdd
  | .ctrl => b.ctrl

def AuxBank.set (b : AuxBank) (r : AuxName) (w : Half) : AuxBank :=
  match r with
  | .vbe => { b with vbe := w }
  | .cpSp0 => { b with cpSp0 := w }
  | .gain => { b with gain := w }
  | .ptat => { b with ptat := w }
  | .cpSp1 => { b with cpSp1 := w }
  | .vdd => { b with vdd := w }
  | .ctrl => { b with ctrl := w }

def AuxValid.get (b : AuxValid) : AuxName → Bool
  | .vbe => b.vbe
  | .cpSp0 => b.cpSp0
  | .gain => b.gain
  | .ptat => b.ptat
  | .cpSp1 => b.cpSp1
  | .vdd => b.vdd
  | .ctrl => b.ctrl

/-- `AUX_VALID[r] ← 1` (R54). -/
def AuxValid.mark (b : AuxValid) : AuxName → AuxValid
  | .vbe => { b with vbe := true }
  | .cpSp0 => { b with cpSp0 := true }
  | .gain => { b with gain := true }
  | .ptat => { b with ptat := true }
  | .cpSp1 => { b with cpSp1 := true }
  | .vdd => { b with vdd := true }
  | .ctrl => { b with ctrl := true }

/-- All seven bits `AUX_VALID` are 1 (R54, R306). -/
def AuxValid.complete (b : AuxValid) : Bool :=
  b.vbe && b.cpSp0 && b.gain && b.ptat && b.cpSp1 && b.vdd && b.ctrl

/-! ### The address map -/

/-- The addresses of the map's first page (R71). -/
def registerLoc : Nat → Loc
  | 0x00 => .id
  | 0x01 => .cmd
  | 0x02 => .status
  | 0x10 => .aux .vbe
  | 0x11 => .aux .cpSp0
  | 0x12 => .aux .gain
  | 0x13 => .aux .ptat
  | 0x14 => .aux .cpSp1
  | 0x15 => .aux .vdd
  | 0x16 => .aux .ctrl
  | 0x20 => .minTemp
  | 0x21 => .maxTemp
  | 0x22 => .badCount
  | 0x28 => .badIdx 0
  | 0x29 => .badIdx 1
  | 0x2A => .badIdx 2
  | 0x2B => .badIdx 3
  | 0x2C => .badIdx 4
  | 0x2D => .badIdx 5
  | 0x2E => .badIdx 6
  | 0x2F => .badIdx 7
  | 0x30 => .ev .resCorr
  | 0x31 => .ev .vdd
  | 0x32 => .ev .ta
  | 0x33 => .ev .kGain
  | 0x34 => .ev .cp0
  | 0x35 => .ev .cp1
  | 0x36 => .ev .taR
  | 0x40 => .cal .kVdd
  | 0x41 => .cal .vdd25
  | 0x42 => .cal .kVPtat
  | 0x43 => .cal .kTPtat
  | 0x44 => .cal .vPtat25
  | 0x45 => .cal .alphaPtat
  | 0x46 => .cal .gain
  | 0x47 => .cal .ksTa
  | 0x48 => .cal .ct3
  | 0x49 => .cal .ct4
  | 0x4A => .cal .tgc
  | 0x4B => .cal .resolution
  | 0x4C => .cal .aCP0
  | 0x4D => .cal .aCP1
  | 0x4E => .cal .offCP0
  | 0x4F => .cal .offCP1
  | 0x50 => .cal .kVCP
  | 0x51 => .cal .kTaCP
  | 0x52 => .cal (.ksTo 0)
  | 0x53 => .cal (.ksTo 1)
  | 0x54 => .cal (.ksTo 2)
  | 0x55 => .cal (.ksTo 3)
  | 0x56 => .cal (.alphaCorr 0)
  | 0x57 => .cal (.alphaCorr 1)
  | 0x58 => .cal (.alphaCorr 2)
  | 0x59 => .cal (.alphaCorr 3)
  | _ => .reserved

/-- The pixel whose word lies at offset `n - base` of a 768-word window, if any. -/
def pixelIn (base n : Nat) : Option Pixel :=
  if h : base ≤ n ∧ n - base < nPix then some ⟨n - base, h.2⟩ else none

/-- The windows of 768 words and their first addresses (R71). -/
def pixelWindow (n : Nat) : Loc :=
  match pixelIn pixBase n with
  | some i => .pix i
  | none => match pixelIn rawBase n with
    | some i => .raw i
    | none => match pixelIn 0x1000 n with
      | some i => .temp i
      | none => match pixelIn 0x1400 n with
        | some i => .pixOsRef i
        | none => match pixelIn 0x1800 n with
          | some i => .a i
          | none => match pixelIn 0x1C00 n with
            | some i => .kV i
            | none => match pixelIn 0x2000 n with
              | some i => .kTa i
              | none => match pixelIn 0x2400 n with
                | some i => .pattern i
                | none => .reserved

/-- What a port address names: the map of R71. Every address it does not list is reserved (R72). -/
def locate (a : Addr) : Loc :=
  if a.toNat < eeBase then registerLoc a.toNat
  else if a.toNat < eeBase + eeWords then .ee (a.toNat - eeBase)
  else pixelWindow a.toNat

/-! ### Acceptance, errors and reset -/

/-- How long the next long command stays pending: the first of the given durations, or a draw when none is
given (R345). -/
def State.nextDelay (s : State) : Nat :=
  match s.delays with
  | d :: _ => d
  | [] => Config.busyDelay s.draws

/-- A long command accepted: ERR ← 0, BUSY ← 1, PENDING ← v (R106). -/
def State.accept (s : State) (v : Word) : State :=
  { s with
    status := { s.status with err := .ok, busy := true }
    pending := v
    busyLeft := s.nextDelay
    delays := s.delays.tail
    draws := s.draws + 1 }

/-- `raise Error(e)`: a command word turned away. Its whole effect is the record of R300: the code in ERR
and the OP in LAST_OP (R16, R42, R43, R307). -/
def State.raiseError (s : State) (op : BitVec 4) (e : Err) : State := (s.setLastOp op).setErr e

/-- A short command with its effect, or the discard of its word while BUSY is 1 (R82, R106, R308). -/
def State.issueShort (s : State) (v : Word) (effect : State → State) : State :=
  if s.status.busy then s.discardWrite
  else effect ((s.setLastOp (opField v)).setErr .ok)

/-- A long command's word written to CMD: discarded while BUSY is 1; otherwise LAST_OP is set, the
command's own checks run, and the first that fails is recorded, or the command is accepted
(R106, R308). -/
def State.issueLong (s : State) (v : Word) (check : Option Err) : State :=
  if s.status.busy then s.discardWrite
  else
    match check with
    | some e => s.raiseError (opField v) e
    | none => (s.setLastOp (opField v)).accept v

/-- A completion step's end: BUSY ← 0 (R35). PENDING keeps the old command word, where 93 U20 allows any
value (DESIGN CHOICE, log 19). -/
def State.finish (s : State) : State := { s with status := { s.status with busy := false } }

/-- The reset operation (R330): STATUS and every valid bit 0, the pending command discarded. The words of
EE, PIX and RAW are gone, so that a read of one is a draw; AUX, the store and the output set keep their
old values, which R330 allows and no rule can observe (DESIGN CHOICE, log 8). PENDING becomes 0, where
93 U20 allows any value (DESIGN CHOICE, log 19). -/
def State.resetBlock (s : State) : State :=
  { s with
    status := Status.cleared
    auxValid := AuxValid.none
    mem := []
    pending := 0#32
    busyLeft := 0 }

end Sys2Proof.Machine
end

