-- ==== Sys2Proof/Machine/Control.lean ====
section
/-! DEFINITION. The three short commands (R280 to R282). They take effect at the write to CMD. -/

namespace Sys2Proof.Machine

/-- NOP (R280): LAST_OP and ERR only; discarded while BUSY is 1. -/
def execNop (s : State) : Host.Outcome State Fault Refusal :=
  .next (s.issueShort (encode .nop) id)

/-- CLEAR_FLAGS (R281): LAST_OP, ERR and WRITE_WHILE_BUSY; discarded while BUSY is 1. -/
def execClearFlags (s : State) : Host.Outcome State Fault Refusal :=
  .next (s.issueShort (encode .clearFlags) State.clearWriteWhileBusy)

/-- SOFT_RESET (R282): the reset operation at any time, also while BUSY is 1; then LAST_OP ← `0xF`. -/
def execSoftReset (s : State) : Host.Outcome State Fault Refusal :=
  .next (s.resetBlock.setLastOp (opField (encode .softReset)))

end Sys2Proof.Machine
end

