-- ==== Sys2Proof/Machine/Binary32.lean ====
section
/-! DEFINITION. IEEE 754 binary32 arithmetic: the operations of the spec's `f32:` blocks (R10 to R15).
A finite value is held exactly, as a whole number of units of 2^-149, the least positive binary32 value;
every operation computes its exact result as a ratio of two such numbers and rounds it once, to nearest
with ties to even. The signs of zeros and the special cases are IEEE 754's (PRESUMED, log 17). -/

namespace Sys2Proof

/-- The biased exponent, bits 30:23 (R77). -/
def F32.expField (x : F32) : Nat := (x.toNat / 2 ^ 23) % 2 ^ 8

/-- The fraction, bits 22:0 (R77). -/
def F32.fracField (x : F32) : Nat := x.toNat % 2 ^ 23

/-- The sign, bit 31 (R77). -/
def F32.sign (x : F32) : Bool := x.msb

/-- The bits 30:0 as a number: it grows with the magnitude of a value that is not a NaN. -/
def F32.code (x : F32) : Nat := x.toNat % 2 ^ 31

/-- The code of infinity: exponent field all ones, fraction zero. -/
def F32.infCode : Nat := 0x7F800000

def F32.isNaN (x : F32) : Bool := decide (F32.infCode < F32.code x)
def F32.isInf (x : F32) : Bool := decide (F32.code x = F32.infCode)
def F32.isFinite (x : F32) : Bool := decide (F32.code x < F32.infCode)

/-- The magnitude that a finite code stands for, in units of 2^-149: the significand (with its hidden bit
when the exponent field is not 0) times the weight of its last place. -/
def F32.magOfCode (c : Nat) : Nat :=
  if c / 2 ^ 23 = 0 then c else (c % 2 ^ 23 + 2 ^ 23) * 2 ^ (c / 2 ^ 23 - 1)

/-- The magnitude of a finite value in units of 2^-149. -/
def F32.mag (x : F32) : Nat := F32.magOfCode (F32.code x)

/-- The value of a finite binary32 number in units of 2^-149, exactly. -/
def F32.units (x : F32) : Int := if F32.sign x then -(F32.mag x : Int) else (F32.mag x : Int)

/-- Put a sign on a code. -/
def F32.pack (neg : Bool) (c : Nat) : F32 := BitVec.ofNat 32 (c + if neg then 2 ^ 31 else 0)

/-- The quiet NaN that stands inside the pipeline for a NaN whose sign and payload are a draw. No bit of
it reaches the host: every word EVALUATE makes visible goes through `F32.settle` (DEDUCED, log 4). -/
def F32.nan : F32 := 0x7FC00000#32

def F32.inf (neg : Bool) : F32 := F32.pack neg F32.infCode
def F32.zero (neg : Bool) : F32 := F32.pack neg 0

/-- The exponent of the last place kept when a magnitude whose whole part is `q` units is rounded to 24
significant bits; magnitudes below 2^24 units lie in the subnormal range or the first binade and keep
their units place. -/
def F32.lastPlace (q : Nat) : Nat := if q < 2 ^ 24 then 0 else Nat.log2 q - 23

/-- The code of the magnitude `n / d` (in units of 2^-149, `d > 0`) rounded to nearest, ties to even
(R10); a magnitude that rounds to 2^128 or more has the code of infinity. -/
def F32.roundCode (n d : Nat) : Nat :=
  let k := F32.lastPlace (n / d)
  let den := d * 2 ^ k
  let m := n / den
  let r := n % den
  let m' := if den < 2 * r ∨ (2 * r = den ∧ m % 2 = 1) then m + 1 else m
  min (k * 2 ^ 23 + m') F32.infCode

/-- `±(n / d)` units of 2^-149, rounded. -/
def F32.round (neg : Bool) (n d : Nat) : F32 := F32.pack neg (F32.roundCode n d)

/-- The sign flipped. -/
def F32.neg (x : F32) : F32 := F32.pack (!F32.sign x) (F32.code x)

/-- Addition (R10). An exact zero sum is `+0`, except that `-0 + -0` is `-0`. -/
def F32.add (x y : F32) : F32 :=
  if F32.isNaN x || F32.isNaN y then F32.nan
  else if F32.isInf x then
    if F32.isInf y && (F32.sign x != F32.sign y) then F32.nan else x
  else if F32.isInf y then y
  else
    let s := F32.units x + F32.units y
    if s = 0 then F32.zero (F32.sign x && F32.sign y)
    else F32.round (decide (s < 0)) s.natAbs 1

/-- Subtraction (R10): the sum with the second operand's sign flipped. -/
def F32.sub (x y : F32) : F32 := F32.add x (F32.neg y)

/-- Multiplication (R10). -/
def F32.mul (x y : F32) : F32 :=
  let sg := F32.sign x != F32.sign y
  if F32.isNaN x || F32.isNaN y then F32.nan
  else if F32.isInf x then
    if F32.mag y = 0 then F32.nan else F32.inf sg
  else if F32.isInf y then
    if F32.mag x = 0 then F32.nan else F32.inf sg
  else F32.round sg (F32.mag x * F32.mag y) (2 ^ 149)

/-- Division (R10). `0 / 0` and `∞ / ∞` are NaN, a nonzero number over a zero is an infinity. -/
def F32.div (x y : F32) : F32 :=
  let sg := F32.sign x != F32.sign y
  if F32.isNaN x || F32.isNaN y then F32.nan
  else if F32.isInf x then
    if F32.isInf y then F32.nan else F32.inf sg
  else if F32.isInf y then F32.zero sg
  else if F32.mag y = 0 then
    if F32.mag x = 0 then F32.nan else F32.inf sg
  else F32.round sg (F32.mag x * 2 ^ 149) (F32.mag y)

/-- The largest `r < 2 ^ b + lo` of the form `lo + …` with `r * r ≤ n`, found one bit at a time from bit
`b - 1` down. -/
def isqrtBits (n : Nat) : Nat → Nat → Nat
  | 0, lo => lo
  | b + 1, lo =>
    let t := lo + 2 ^ b
    if t * t ≤ n then isqrtBits n b t else isqrtBits n b lo

/-- The whole part of the square root. -/
def isqrt (n : Nat) : Nat := isqrtBits n (Nat.log2 n / 2 + 1) 0

/-- Square root (R13). An inexact root lies strictly between two whole numbers of units; half a unit
added to the lower one stands for it, which lies on the same side of every value the rounding compares
with. -/
def F32.sqrt (x : F32) : F32 :=
  if F32.isNaN x then F32.nan
  else if F32.mag x = 0 then x
  else if F32.sign x then F32.nan
  else if F32.isInf x then x
  else
    let n := F32.mag x * 2 ^ 149
    let r := isqrt n
    F32.round false (2 * r + if r * r = n then 0 else 1) 2

/-- The fourth root, `fsqrt (fsqrt x)` (R13). -/
def F32.root4 (x : F32) : F32 := F32.sqrt (F32.sqrt x)

/-- A key that orders the values that are not NaN; both zeros have key 0. -/
def F32.key (x : F32) : Int := if F32.sign x then -(F32.code x : Int) else (F32.code x : Int)

/-- The IEEE comparison `x < y` (R15): false when an operand is a NaN, and `-0 < +0` is false. -/
def F32.lt (x y : F32) : Bool :=
  !(F32.isNaN x) && !(F32.isNaN y) && decide (F32.key x < F32.key y)

/-- The IEEE comparison `x == y` (R15). -/
def F32.feq (x y : F32) : Bool :=
  !(F32.isNaN x) && !(F32.isNaN y) && decide (F32.key x = F32.key y)

/-- `toF n`: an integer converted with round-to-nearest-even (R12). -/
def F32.ofInt (n : Int) : F32 := F32.round (decide (n < 0)) (n.natAbs * 2 ^ 149) 1

/-- `pow2 n`, the exact value 2^n; the rules use `0 ≤ n ≤ 45` (R12). -/
def F32.pow2 (n : Nat) : F32 := F32.pack false ((n + 127) * 2 ^ 23)

/-- A quiet NaN with the given sign and payload. -/
def F32.quietNaN (free : BitVec 23) : F32 :=
  (free.extractLsb' 22 1 ++ 0x1FF#9 ++ free.extractLsb' 0 22 : BitVec 32)

/-- The word the host sees for a computed value: a NaN's sign and payload are the draw numbered `n`
(R15, D15). -/
def F32.settle (n : Nat) (x : F32) : F32 :=
  if F32.isNaN x then F32.quietNaN (Config.nanDraw n) else x

/-! The decimal constants of R14. -/

def F32.c0 : F32 := 0x00000000#32
def F32.c1 : F32 := 0x3F800000#32
def F32.c3_3 : F32 := 0x40533333#32
def F32.c8 : F32 := 0x41000000#32
def F32.c25 : F32 := 0x41C80000#32
def F32.c40 : F32 := 0x42200000#32
def F32.c273_15 : F32 := 0x43889333#32

/-- `EMISSIVITY`, fixed at 1.0 (R6, R14). -/
def F32.emissivity : F32 := 0x3F800000#32

end Sys2Proof
end

