-- ==== Sys2Proof/Machine/Operands.lean ====
section
/-! DEFINITION. The operands of the commands: bit fields and sign correction (R7, R9), the fields of the
calibration image (R109 to R121), the pixel geometry (R17, R18) and the fields of the AUX words
(R122, R123). The spec marks the field positions as general knowledge (UNVERIFIED, log 13). -/

namespace Sys2Proof.Machine

/-- `w[hi:lo] = (w >> lo) & (2^(hi-lo+1) - 1)` (R7). -/
def bits (w : Half) (hi lo : Nat) : Nat := (w.toNat >>> lo) % 2 ^ (hi - lo + 1)

/-- Sign correction of an `n`-bit field value (R9). -/
def sext (n v : Nat) : Int := if 2 ^ (n - 1) - 1 < v then (v : Int) - 2 ^ n else (v : Int)

/-- `x << s` on integers: `x · 2^s`, also for negative `x` (R8). -/
def shl (x : Int) (s : Nat) : Int := x * 2 ^ s

/-- A calibration image: word `k` of the 832 (R109). -/
abbrev Image := Nat → Half

/-! ### Pixel geometry -/

/-- The row and the column of a pixel (R17). -/
def Pix.row (i : Pixel) : Nat := i.val / 32
def Pix.col (i : Pixel) : Nat := i.val % 32

/-- The checkerboard phase (R18). -/
def Pix.phase (i : Pixel) : Nat := 2 * (Pix.row i % 2) + Pix.col i % 2

/-! ### Words 16 to 63 of the image -/

/-- Word 16 (R111). -/
def alphaPtatCode (ee : Image) : Nat := bits (ee 16) 15 12
def occRowScale (ee : Image) : Nat := bits (ee 16) 11 8
def occColScale (ee : Image) : Nat := bits (ee 16) 7 4
def occRemScale (ee : Image) : Nat := bits (ee 16) 3 0

/-- Word 17 (R112). -/
def offsetRef (ee : Image) : Int := sext 16 (bits (ee 17) 15 0)

/-- Entry `n` of the 4-bit packed table that starts at word `base` (R113, R167). -/
def tableEntry (ee : Image) (base n : Nat) : Int :=
  sext 4 (bits (ee (base + n / 4)) (4 * (n % 4) + 3) (4 * (n % 4)))

def occRow (ee : Image) (r : Nat) : Int := tableEntry ee 18 r
def occCol (ee : Image) (c : Nat) : Int := tableEntry ee 24 c
def accRow (ee : Image) (r : Nat) : Int := tableEntry ee 34 r
def accCol (ee : Image) (c : Nat) : Int := tableEntry ee 40 c

/-- Word 32 (R114). -/
def alphaScaleCode (ee : Image) : Nat := bits (ee 32) 15 12
def accRowScale (ee : Image) : Nat := bits (ee 32) 11 8
def accColScale (ee : Image) : Nat := bits (ee 32) 7 4
def accRemScale (ee : Image) : Nat := bits (ee 32) 3 0

/-- Word 33, not sign-corrected (R115). -/
def alphaRef (ee : Image) : Nat := bits (ee 33) 15 0

/-- Words 48 to 51 (R116). -/
def gainRaw (ee : Image) : Int := sext 16 (bits (ee 48) 15 0)
def vPtat25Raw (ee : Image) : Int := sext 16 (bits (ee 49) 15 0)
def kvPtatRaw (ee : Image) : Int := sext 6 (bits (ee 50) 15 10)
def ktPtatRaw (ee : Image) : Int := sext 10 (bits (ee 50) 9 0)
def kvddRaw (ee : Image) : Int := sext 8 (bits (ee 51) 15 8)
def vdd25Raw (ee : Image) : Nat := bits (ee 51) 7 0

/-- Word 52, the per-phase `KV_PH` (R117). -/
def kvPhase (ee : Image) (ph : Nat) : Int :=
  match ph with
  | 0 => sext 4 (bits (ee 52) 15 12)
  | 1 => sext 4 (bits (ee 52) 7 4)
  | 2 => sext 4 (bits (ee 52) 11 8)
  | _ => sext 4 (bits (ee 52) 3 0)

/-- Words 54 and 55, the per-phase `KTA_RC` (R117). -/
def ktaPhase (ee : Image) (ph : Nat) : Int :=
  match ph with
  | 0 => sext 8 (bits (ee 54) 15 8)
  | 1 => sext 8 (bits (ee 55) 15 8)
  | 2 => sext 8 (bits (ee 54) 7 0)
  | _ => sext 8 (bits (ee 55) 7 0)

/-- Word 56 (R118). -/
def resolutionRaw (ee : Image) : Nat := bits (ee 56) 13 12
def kvScale (ee : Image) : Nat := bits (ee 56) 11 8
def ktaScale1Code (ee : Image) : Nat := bits (ee 56) 7 4
def ktaScale2 (ee : Image) : Nat := bits (ee 56) 3 0

/-- Words 57 to 60 (R119). -/
def acpRatio (ee : Image) : Int := sext 6 (bits (ee 57) 15 10)
def acp0Raw (ee : Image) : Int := sext 10 (bits (ee 57) 9 0)
def offcpDelta (ee : Image) : Int := sext 6 (bits (ee 58) 15 10)
def offcp0Raw (ee : Image) : Int := sext 10 (bits (ee 58) 9 0)
def kvCpRaw (ee : Image) : Int := sext 8 (bits (ee 59) 15 8)
def ktaCpRaw (ee : Image) : Int := sext 8 (bits (ee 59) 7 0)
def kstaRaw (ee : Image) : Int := sext 8 (bits (ee 60) 15 8)
def tgcRaw (ee : Image) : Int := sext 8 (bits (ee 60) 7 0)

/-- Words 61 and 62, `KSTO_RAW[0..3]` (R120). -/
def kstoRaw (ee : Image) (r : Fin 4) : Int :=
  match r with
  | 0 => sext 8 (bits (ee 61) 7 0)
  | 1 => sext 8 (bits (ee 61) 15 8)
  | 2 => sext 8 (bits (ee 62) 7 0)
  | 3 => sext 8 (bits (ee 62) 15 8)

/-- Word 63 (R120). -/
def ctStepCode (ee : Image) : Nat := bits (ee 63) 13 12
def ct4Code (ee : Image) : Nat := bits (ee 63) 11 8
def ct3Code (ee : Image) : Nat := bits (ee 63) 7 4
def kstoScaleCode (ee : Image) : Nat := bits (ee 63) 3 0

/-! ### The pixel words (R121) -/

/-- The pixel word of pixel `i` (R109). -/
def pixelWord (ee : Image) (i : Pixel) : Half := ee (64 + i.val)

def offRem (ee : Image) (i : Pixel) : Int := sext 6 (bits (pixelWord ee i) 15 10)
def alphaRem (ee : Image) (i : Pixel) : Int := sext 6 (bits (pixelWord ee i) 9 4)
def ktaRem (ee : Image) (i : Pixel) : Int := sext 3 (bits (pixelWord ee i) 3 1)
def outlier (ee : Image) (i : Pixel) : Bool := decide (bits (pixelWord ee i) 0 0 = 1)

/-! ### The AUX words and the raw counts -/

/-- A raw sensor word read as a signed 16-bit count (R123). -/
def signed (w : Half) : Int := sext 16 (bits w 15 0)

/-- `RES_RAM = AUX_CTRL[11:10]` (R122). -/
def resRam (aux : AuxBank) : Nat := bits aux.ctrl 11 10

end Sys2Proof.Machine
end

