-- ==== Sys2Proof/Machine/Calibration.lean ====
section
/-! DEFINITION. DECODE (R150 to R172): the acceptance of the command, every coefficient it derives from
the calibration image, and its completion step. The spec marks the formulas as general knowledge
(UNVERIFIED, log 13). -/

namespace Sys2Proof.Machine

/-! ### Voltage and ambient-temperature references -/

/-- `K_Vdd` (R151). -/
def decKVdd (ee : Image) : Int := kvddRaw ee * 32

/-- `VDD_25` (R152). -/
def decVdd25 (ee : Image) : Int := ((vdd25Raw ee : Int) - 256) * 32 - 8192

/-- `K_V_PTAT` (R153). -/
def decKVPtat (ee : Image) : F32 := F32.div (F32.ofInt (kvPtatRaw ee)) (F32.pow2 12)

/-- `K_T_PTAT` (R154). -/
def decKTPtat (ee : Image) : F32 := F32.div (F32.ofInt (ktPtatRaw ee)) (F32.pow2 3)

/-- `V_PTAT_25` (R155). -/
def decVPtat25 (ee : Image) : Int := vPtat25Raw ee

/-- `Alpha_PTAT` (R156). -/
def decAlphaPtat (ee : Image) : F32 :=
  F32.add (F32.div (F32.ofInt (alphaPtatCode ee)) (F32.pow2 2)) F32.c8

/-! ### Gain, ambient sensitivity, gradient and resolution -/

/-- `GAIN` (R157). -/
def decGain (ee : Image) : Int := gainRaw ee

/-- `Ks_Ta` (R158). -/
def decKsTa (ee : Image) : F32 := F32.div (F32.ofInt (kstaRaw ee)) (F32.pow2 13)

/-- `TGC` (R159). -/
def decTgc (ee : Image) : F32 := F32.div (F32.ofInt (tgcRaw ee)) (F32.pow2 5)

/-- `Resolution` (R160). -/
def decResolution (ee : Image) : Nat := resolutionRaw ee

/-! ### Range corners and range-indexed tuples -/

/-- The step, and `CT3` and `CT4` (R161). -/
def ctStep (ee : Image) : Int := (ctStepCode ee : Int) * 10
def decCt3 (ee : Image) : Int := (ct3Code ee : Int) * ctStep ee
def decCt4 (ee : Image) : Int := decCt3 ee + (ct4Code ee : Int) * ctStep ee

/-- `Ks_To[r]` (R162). -/
def decKsTo (ee : Image) (r : Fin 4) : F32 :=
  F32.div (F32.ofInt (kstoRaw ee r)) (F32.pow2 (kstoScaleCode ee + 8))

/-- `Alpha_corr[r]` (R163). -/
def decAlphaCorr (ee : Image) (r : Fin 4) : F32 :=
  let corr2 := F32.add F32.c1 (F32.mul (decKsTo ee 1) (F32.ofInt (decCt3 ee)))
  match r with
  | 0 => F32.div F32.c1 (F32.add F32.c1 (F32.mul (decKsTo ee 0) F32.c40))
  | 1 => F32.c1
  | 2 => corr2
  | 3 => F32.mul corr2
      (F32.add F32.c1 (F32.mul (decKsTo ee 2) (F32.ofInt (decCt4 ee - decCt3 ee))))

/-! ### Compensation-pixel pair -/

/-- `a_CP_0` and `a_CP_1` (R164). -/
def decACP0 (ee : Image) : F32 := F32.div (F32.ofInt (acp0Raw ee)) (F32.pow2 (alphaScaleCode ee + 27))
def decACP1 (ee : Image) : F32 :=
  F32.mul (F32.add F32.c1 (F32.div (F32.ofInt (acpRatio ee)) (F32.pow2 7))) (decACP0 ee)

/-- `Off_CP_0` and `Off_CP_1` (R165). -/
def decOffCP0 (ee : Image) : Int := offcp0Raw ee
def decOffCP1 (ee : Image) : Int := decOffCP0 ee + offcpDelta ee

/-- The divisor exponent of `K_Ta` (R118, R166). -/
def ktaScale1 (ee : Image) : Nat := ktaScale1Code ee + 8

/-- `K_V_CP` and `K_Ta_CP` (R166). -/
def decKVCP (ee : Image) : F32 := F32.div (F32.ofInt (kvCpRaw ee)) (F32.pow2 (kvScale ee))
def decKTaCP (ee : Image) : F32 := F32.div (F32.ofInt (ktaCpRaw ee)) (F32.pow2 (ktaScale1 ee))

/-! ### Per-pixel coefficients -/

/-- `pix_os_ref[i]` (R168). -/
def decPixOsRef (ee : Image) (i : Pixel) : Int :=
  offsetRef ee + shl (occRow ee (Pix.row i)) (occRowScale ee)
    + shl (occCol ee (Pix.col i)) (occColScale ee) + shl (offRem ee i) (occRemScale ee)

/-- `a_int[i]`, not stored (R169). -/
def decAInt (ee : Image) (i : Pixel) : Int :=
  (alphaRef ee : Int) + shl (accRow ee (Pix.row i)) (accRowScale ee)
    + shl (accCol ee (Pix.col i)) (accColScale ee) + shl (alphaRem ee i) (accRemScale ee)

/-- `a[i]` (R169). -/
def decA (ee : Image) (i : Pixel) : F32 :=
  F32.div (F32.ofInt (decAInt ee i)) (F32.pow2 (alphaScaleCode ee + 30))

/-- `K_V[i]` (R170). -/
def decKV (ee : Image) (i : Pixel) : F32 :=
  F32.div (F32.ofInt (kvPhase ee (Pix.phase i))) (F32.pow2 (kvScale ee))

/-- `kta_int[i]` and `K_Ta[i]` (R170). -/
def decKTaInt (ee : Image) (i : Pixel) : Int :=
  ktaPhase ee (Pix.phase i) + shl (ktaRem ee i) (ktaScale2 ee)
def decKTa (ee : Image) (i : Pixel) : F32 :=
  F32.div (F32.ofInt (decKTaInt ee i)) (F32.pow2 (ktaScale1 ee))

/-! ### Bad-pixel list and checkerboard pattern -/

/-- The flagged pixels in increasing index order (R171). -/
def flagged (ee : Image) : List Pixel := (List.finRange nPix).filter (outlier ee)

/-- The bad-pixel list: the first `cap` flagged pixels (R171). -/
def decBadPixels (cap : Nat) (ee : Image) : List Pixel := (flagged ee).take cap

/-- `ovf`: more than `cap` pixels are flagged (R171). -/
def decOverflow (cap : Nat) (ee : Image) : Bool := decide (cap < (flagged ee).length)

/-- `pattern[i] = ((i / 32) XOR i) AND 1` (R172). -/
def patternOf (i : Pixel) : Fin 2 :=
  ⟨((i.val / 32) ^^^ i.val) % 2, Nat.mod_lt _ (by decide)⟩

/-! ### The store and the command -/

/-- The store one DECODE writes: every field of R49 and R50 (R150, R51). -/
def decodeStore (cap : Nat) (ee : Image) : CalStore where
  kVdd := decKVdd ee
  vdd25 := decVdd25 ee
  kVPtat := decKVPtat ee
  kTPtat := decKTPtat ee
  vPtat25 := decVPtat25 ee
  alphaPtat := decAlphaPtat ee
  gain := decGain ee
  ksTa := decKsTa ee
  ct3 := decCt3 ee
  ct4 := decCt4 ee
  tgc := decTgc ee
  resolution := decResolution ee
  aCP0 := decACP0 ee
  aCP1 := decACP1 ee
  offCP0 := decOffCP0 ee
  offCP1 := decOffCP1 ee
  kVCP := decKVCP ee
  kTaCP := decKTaCP ee
  ksTo := Table.tab (decKsTo ee)
  alphaCorr := Table.tab (decAlphaCorr ee)
  badPixels := decBadPixels cap ee
  pixOsRef := Table.tab (decPixOsRef ee)
  a := Table.tab (decA ee)
  kV := Table.tab (decKV ee)
  kTa := Table.tab (decKTa ee)
  pattern := Table.tab patternOf

/-- DECODE's acceptance check (R150, R302). -/
def decodeCheck (s : State) : Option Err := if s.eeComplete then none else some .eeIncomplete

/-- DECODE written to CMD (R150): accepted, or EE_INCOMPLETE recorded. -/
def execDecode (s : State) : Host.Outcome State Fault Refusal :=
  .next (s.issueLong (encode .decode) (decodeCheck s))

/-- DECODE's completion step (R150). -/
def completeDecode (s : State) : State :=
  State.finish
    { s with
      store := decodeStore s.badCap s.ee
      status :=
        { s.status with
          calValid := true
          badOverflow := decOverflow s.badCap s.ee } }

end Sys2Proof.Machine
end

