-- ==== Sys2Proof/Machine/FrameAssembly.lean ====
section
/-! DEFINITION. MERGE (R200 to R202): the acceptance of the command, its index set and its completion
step. -/

namespace Sys2Proof.Machine

/-- `SUB(o)`, in the order of the document's two loops (R200, R201). -/
def subIndices (o : Nat) : List Nat :=
  (List.range 24).flatMap fun row =>
    (List.range 16).map fun i => row * 32 + (i * 2 + (row + o) % 2)

/-- MERGE's acceptance check (R200, R303). -/
def mergeCheck (o : Nat) (s : State) : Option Err :=
  if (subIndices o).all s.pixValid then none else some .pixIncomplete

/-- MERGE o written to CMD (R200): accepted, or PIX_INCOMPLETE recorded. -/
def execMerge (o : Nat) (s : State) : Host.Outcome State Fault Refusal :=
  .next (s.issueLong (encode (.merge o)) (mergeCheck o s))

/-- `RAW[idx] ← PIX[idx]`. -/
def copyPixel (m : Memory) (idx : Nat) : Memory := m.write (rawBase + idx) (m.read (pixBase + idx))

/-- MERGE's completion step (R200). -/
def completeMerge (o : Nat) (s : State) : State :=
  State.finish
    { s with
      mem := (subIndices o).foldl copyPixel s.mem
      status := s.status.setMerged o }

end Sys2Proof.Machine
end

