-- ==== Sys2Proof/Machine/Compensation.lean ====
section
/-! DEFINITION. Stages 1 to 12 of EVALUATE (R221 to R235). Every operation is rounded on its own and in
the order the rules write (R10, R11). The spec marks some formulas as general knowledge (UNVERIFIED,
log 13). -/

namespace Sys2Proof.Machine

/-- The frame scalars: stages 1 to 4 and 8, and the frame part of stage 11 (R221 to R227). -/
structure FrameScalars where
  resCorr : F32
  vdd : F32
  ta : F32
  kGain : F32
  dTa : F32
  dV : F32
  cp0 : F32
  cp1 : F32
  taR : F32
  deriving DecidableEq, Repr

/-- Stage 1, the resolution correction factor (R221). -/
def stResCorr (st : CalStore) (aux : AuxBank) : F32 :=
  F32.div (F32.pow2 st.resolution) (F32.pow2 (resRam aux))

/-- Stage 2, the supply voltage (R222). -/
def stVdd (st : CalStore) (aux : AuxBank) (resCorr : F32) : F32 :=
  F32.add
    (F32.div
      (F32.sub (F32.mul resCorr (F32.ofInt (signed aux.vdd))) (F32.ofInt st.vdd25))
      (F32.ofInt st.kVdd))
    F32.c3_3

/-- Stage 3, the PTAT ratio (R223). -/
def stPtatArt (st : CalStore) (aux : AuxBank) : F32 :=
  let ptat := F32.ofInt (signed aux.ptat)
  let vbe := F32.ofInt (signed aux.vbe)
  F32.mul (F32.div ptat (F32.add (F32.mul ptat st.alphaPtat) vbe)) (F32.pow2 18)

/-- Stage 3, the ambient temperature (R223). -/
def stTa (st : CalStore) (aux : AuxBank) (vdd : F32) : F32 :=
  F32.add
    (F32.div
      (F32.sub
        (F32.div (stPtatArt st aux)
          (F32.add F32.c1 (F32.mul st.kVPtat (F32.sub vdd F32.c3_3))))
        (F32.ofInt st.vPtat25))
      st.kTPtat)
    F32.c25

/-- Stage 4, the gain factor (R224). -/
def stKGain (st : CalStore) (aux : AuxBank) : F32 :=
  F32.div (F32.ofInt st.gain) (F32.ofInt (signed aux.gain))

/-- Stage 8, one compensation pixel (R226): `live` is its AUX word, `off` its offset. -/
def stCp (st : CalStore) (live : Half) (off : Int) (kGain dTa dV : F32) : F32 :=
  F32.sub
    (F32.mul (F32.ofInt (signed live)) kGain)
    (F32.mul
      (F32.mul (F32.ofInt off) (F32.add F32.c1 (F32.mul st.kTaCP dTa)))
      (F32.add F32.c1 (F32.mul st.kVCP dV)))

/-- A fourth power as the square of the square (R13). -/
def pow4 (x : F32) : F32 := F32.mul (F32.mul x x) (F32.mul x x)

/-- Stage 11, the reflected-temperature term (R227). -/
def stTaR (ta : F32) : F32 :=
  let trK4 := pow4 (F32.add (F32.sub ta F32.c8) F32.c273_15)
  let taK4 := pow4 (F32.add ta F32.c273_15)
  F32.sub trK4 (F32.div (F32.sub trK4 taK4) F32.emissivity)

/-- All frame scalars (R221 to R227). -/
def frameScalars (st : CalStore) (aux : AuxBank) : FrameScalars :=
  let resCorr := stResCorr st aux
  let vdd := stVdd st aux resCorr
  let ta := stTa st aux vdd
  let kGain := stKGain st aux
  let dTa := F32.sub ta F32.c25
  let dV := F32.sub vdd F32.c3_3
  { resCorr := resCorr
    vdd := vdd
    ta := ta
    kGain := kGain
    dTa := dTa
    dV := dV
    cp0 := stCp st aux.cpSp0 st.offCP0 kGain dTa dV
    cp1 := stCp st aux.cpSp1 st.offCP1 kGain dTa dV
    taR := stTaR ta }

/-! ### Per-pixel stages -/

/-- `p = toF(pattern[i])`, 0.0 or 1.0. -/
def patternF (st : CalStore) (i : Pixel) : F32 := F32.ofInt ((st.pattern.get i).val : Int)

/-- The weighted choice `(1 − p) · x0 + p · x1` of stages 9 and 10 (R231, R232, D44). -/
def weigh (p x0 x1 : F32) : F32 := F32.add (F32.mul (F32.sub F32.c1 p) x0) (F32.mul p x1)

/-- Stage 5, the gain-compensated signal (R228). -/
def stV5 (fs : FrameScalars) (raw : Half) : F32 := F32.mul (F32.ofInt (signed raw)) fs.kGain

/-- Stage 6, the offset, Vdd and Ta compensation (R229). -/
def stV6 (st : CalStore) (fs : FrameScalars) (i : Pixel) (v5 : F32) : F32 :=
  F32.sub v5
    (F32.mul
      (F32.mul (F32.ofInt (st.pixOsRef.get i)) (F32.add F32.c1 (F32.mul (st.kTa.get i) fs.dTa)))
      (F32.add F32.c1 (F32.mul (st.kV.get i) fs.dV)))

/-- Stage 7, the emissivity compensation; the division is performed (R230, D35). -/
def stV7 (v6 : F32) : F32 := F32.div v6 F32.emissivity

/-- Stage 9, the gradient compensation (R231). -/
def stV9 (st : CalStore) (fs : FrameScalars) (i : Pixel) (v7 : F32) : F32 :=
  F32.sub v7 (F32.mul st.tgc (weigh (patternF st i) fs.cp0 fs.cp1))

/-- Stage 10, the sensitivity normalisation (R232). -/
def stAc (st : CalStore) (fs : FrameScalars) (i : Pixel) : F32 :=
  F32.mul
    (F32.sub (st.a.get i) (F32.mul st.tgc (weigh (patternF st i) st.aCP0 st.aCP1)))
    (F32.add F32.c1 (F32.mul st.ksTa fs.dTa))

/-- Stage 11, `S_x` (R233): the cube is `(ac · ac) · ac` and the fourth power is the cube times `ac`
(R13). -/
def stSx (st : CalStore) (fs : FrameScalars) (v9 ac : F32) : F32 :=
  let ac3 := F32.mul (F32.mul ac ac) ac
  let ac4 := F32.mul ac3 ac
  F32.mul (st.ksTo.get 1) (F32.root4 (F32.add (F32.mul ac3 v9) (F32.mul ac4 fs.taR)))

/-- Stage 11, the base temperature (R233). -/
def stTo (st : CalStore) (fs : FrameScalars) (v9 ac : F32) : F32 :=
  F32.sub
    (F32.root4
      (F32.add
        (F32.div v9
          (F32.add
            (F32.mul ac (F32.sub F32.c1 (F32.mul (st.ksTo.get 1) F32.c273_15)))
            (stSx st fs v9 ac)))
        fs.taR))
    F32.c273_15

/-- Stage 12, the range a base temperature selects (R234): half-open ranges, and a NaN, which fails every
comparison, selects range 3. -/
def rangeOf (st : CalStore) (t : F32) : Fin 4 :=
  if F32.lt t F32.c0 then 0
  else if F32.lt t (F32.ofInt st.ct3) then 1
  else if F32.lt t (F32.ofInt st.ct4) then 2
  else 3

/-- `CT_FLOOR = [−40, 0, CT3, CT4]` (R161). -/
def ctFloor (st : CalStore) (r : Fin 4) : Int :=
  match r with
  | 0 => -40
  | 1 => 0
  | 2 => st.ct3
  | 3 => st.ct4

/-- Stage 12, the final correction with the tuple of range `r` (R235). -/
def stFinal (st : CalStore) (fs : FrameScalars) (v9 ac t : F32) (r : Fin 4) : F32 :=
  F32.sub
    (F32.root4
      (F32.add
        (F32.div v9
          (F32.mul
            (F32.mul ac (st.alphaCorr.get r))
            (F32.add F32.c1
              (F32.mul (st.ksTo.get r) (F32.sub t (F32.ofInt (ctFloor st r)))))))
        fs.taR))
    F32.c273_15

/-- The pre-repair temperature of pixel `i` whose raw count is `raw`: stages 5 to 7 and 9 to 12 in order
(R220). -/
def pixelTemp (st : CalStore) (fs : FrameScalars) (raw : Half) (i : Pixel) : F32 :=
  let v9 := stV9 st fs i (stV7 (stV6 st fs i (stV5 fs raw)))
  let ac := stAc st fs i
  let t := stTo st fs v9 ac
  stFinal st fs v9 ac t (rangeOf st t)

end Sys2Proof.Machine
end

