-- ==== Sys2Proof/Machine/Repair.lean ====
section
/-! DEFINITION. The command EVALUATE (R220): its acceptance, stage 13, the bad-pixel repair, stage 14, the
flip and the minimum and maximum, and the commit of the output set (R260 to R266). -/

namespace Sys2Proof.Machine

/-- The neighbour of `b` at index `n`, when the grid has one there and `ok` says it exists. -/
def neighbourAt (ok : Bool) (n : Nat) : List Pixel :=
  if h : ok = true ∧ n < nPix then [⟨n, h.2⟩] else []

/-- The neighbours of a pixel in the order up, down, left, right, each only if it exists (R261). -/
def neighbours (b : Pixel) : List Pixel :=
  neighbourAt (decide (0 < Pix.row b)) (b.val - 32)
    ++ neighbourAt (decide (Pix.row b < 23)) (b.val + 32)
    ++ neighbourAt (decide (0 < Pix.col b)) (b.val - 1)
    ++ neighbourAt (decide (Pix.col b < 31)) (b.val + 1)

/-- The mean of a list of values: the sum from the first on, rounded at each step, over the count
(R262). A pixel has at least two neighbours, so the empty list does not arise (R261). -/
def meanOf : List F32 → F32
  | [] => F32.c0
  | x :: xs => F32.div (xs.foldl F32.add x) (F32.ofInt ((xs.length + 1 : Nat) : Int))

/-- `avg(b)`, reading the grid as it stands (R262). -/
def avgAt (t : Grid F32) (b : Pixel) : F32 := meanOf ((neighbours b).map t.get)

/-- Stage 13: the listed pixels repaired in list order, in place (R260). -/
def repair (bad : List Pixel) (t : Grid F32) : Grid F32 :=
  bad.foldl (fun t b => t.set b (avgAt t b)) t

/-- The pixel in the mirrored column of the same row. -/
def mirror (i : Pixel) : Pixel := ⟨Pix.row i * 32 + (31 - Pix.col i), by
  have := i.isLt
  unfold Pix.row Pix.col nPix at *
  omega⟩

/-- Stage 14, the horizontal flip (R263). -/
def flipGrid (t : Grid F32) : Grid F32 := Table.tab fun i => t.get (mirror i)

/-- Stage 14, the scans in increasing index order, from the first entry (R264). -/
def scanMin (g : Grid F32) : F32 :=
  g.vals.tail.foldl (fun mn x => if F32.lt x mn then x else mn) (g.get 0)
def scanMax (g : Grid F32) : F32 :=
  g.vals.tail.foldl (fun mx x => if F32.lt mx x then x else mx) (g.get 0)

/-- NONFINITE: some entry is a NaN or an infinity (R265). -/
def anyNonfinite (g : Grid F32) : Bool := g.vals.any fun x => !(F32.isFinite x)

/-- The pre-repair grid `T`: stages 5 to 12 for every pixel (R220). -/
def rawTemps (st : CalStore) (fs : FrameScalars) (raw : Nat → Half) : Grid F32 :=
  Table.tab fun i => pixelTemp st fs (raw i.val) i

/-- The final grid `F`: computed, repaired and flipped (R220). -/
def finalGrid (st : CalStore) (fs : FrameScalars) (raw : Nat → Half) : Grid F32 :=
  flipGrid (repair st.badPixels (rawTemps st fs raw))

/-- How many draws an EVALUATE takes: one for each TEMP word and one for each `EV_*` register. -/
def evalDraws : Nat := nPix + 7

/-- The output set of one EVALUATE (R266). A NaN gets its sign and payload from the draw of its own word;
MIN_TEMP and MAX_TEMP are values of the grid, so they share the draw of the word they come from
(R15, R264). -/
def outputsOf (draws : Nat) (fs : FrameScalars) (g : Grid F32) : OutputSet :=
  let temp : Grid F32 := Table.tab fun i => F32.settle (draws + i.val) (g.get i)
  { minTemp := scanMin temp
    maxTemp := scanMax temp
    temp := temp
    evResCorr := F32.settle (draws + nPix) fs.resCorr
    evVdd := F32.settle (draws + nPix + 1) fs.vdd
    evTa := F32.settle (draws + nPix + 2) fs.ta
    evKGain := F32.settle (draws + nPix + 3) fs.kGain
    evCP0 := F32.settle (draws + nPix + 4) fs.cp0
    evCP1 := F32.settle (draws + nPix + 5) fs.cp1
    evTaR := F32.settle (draws + nPix + 6) fs.taR }

/-- EVALUATE's acceptance checks, in their order (R220, R304 to R306). -/
def evaluateCheck (s : State) : Option Err :=
  if !s.status.calValid then some .notCalibrated
  else if !(s.status.merged0 && s.status.merged1) then some .frameIncomplete
  else if !s.auxValid.complete then some .auxIncomplete
  else none

/-- EVALUATE written to CMD (R220): accepted, or the first failing check recorded. -/
def execEvaluate (s : State) : Host.Outcome State Fault Refusal :=
  .next (s.issueLong (encode .evaluate) (evaluateCheck s))

/-- EVALUATE's completion step (R220, R265, R266). -/
def completeEvaluate (s : State) : State :=
  let fs := frameScalars s.store s.aux
  let g := finalGrid s.store fs s.raw
  State.finish
    { s with
      out := outputsOf s.draws fs g
      draws := s.draws + evalDraws
      status :=
        { s.status with
          nonfinite := anyNonfinite g
          outValid := true
          merged0 := false
          merged1 := false } }

end Sys2Proof.Machine
end

