-- ==== Sys2Proof/Machine/Engine.lean ====
section
/-! DEFINITION. The engine agent (R55): its one step is "complete PENDING". -/

namespace Sys2Proof.Machine

/-- The completion step of the command word in PENDING (R55, R80). PENDING holds a long command whenever
BUSY is 1 (R35); for any other word, which no accepted command leaves there, only BUSY is cleared
(DESIGN CHOICE, log 11). -/
def completePending (s : State) : State :=
  match decodeWord s.pending with
  | .ok .decode => completeDecode s
  | .ok (.merge o) => completeMerge o s
  | .ok .evaluate => completeEvaluate s
  | .ok .nop => s.finish
  | .ok .clearFlags => s.finish
  | .ok .softReset => s.finish
  | .error _ => s.finish

/-- Whether the engine's completion step is the next event (R83, R345). -/
def State.engineDue (s : State) : Bool := s.status.busy && decide (s.busyLeft = 0)

/-- One more event passes while a command is pending (R345). -/
def State.tick (s : State) : State :=
  { s with busyLeft := if s.status.busy then s.busyLeft - 1 else s.busyLeft }

end Sys2Proof.Machine
end

