-- ==== Sys2Proof/Machine/Dispatch.lean ====
section
/-! DEFINITION. The meaning of each command, when its word is written to CMD. -/

namespace Sys2Proof.Machine

def exec (i : Instr) (s : State) : Host.Outcome State Fault Refusal :=
  match i with
  | .nop => Sys2Proof.Machine.execNop s
  | .decode => Sys2Proof.Machine.execDecode s
  | .merge o => Sys2Proof.Machine.execMerge o s
  | .evaluate => Sys2Proof.Machine.execEvaluate s
  | .clearFlags => Sys2Proof.Machine.execClearFlags s
  | .softReset => Sys2Proof.Machine.execSoftReset s

end Sys2Proof.Machine
end

