-- ==== Sys2Proof/Machine/Port.lean ====
section
/-! DEFINITION. The host port (R70 to R83): what a read returns, what a write does, and one event of the
host. -/

namespace Sys2Proof.Machine

/-- `ID_VALUE` (R6, R32). -/
def idValue : Word := 0x54430001#32

/-- A 16-bit location read back: the word in bits 15:0, zeros above (R74). -/
def ofHalf (w : Half) : Word := w.setWidth 32

/-- An integer readback: 32-bit two's complement (R77). -/
def ofIntWord (n : Int) : Word := BitVec.ofInt 32 n

/-- The readback of a calibration scalar (R49, R77). -/
def CalStore.readback (st : CalStore) : CalField → Word
  | .kVdd => ofIntWord st.kVdd
  | .vdd25 => ofIntWord st.vdd25
  | .kVPtat => st.kVPtat
  | .kTPtat => st.kTPtat
  | .vPtat25 => ofIntWord st.vPtat25
  | .alphaPtat => st.alphaPtat
  | .gain => ofIntWord st.gain
  | .ksTa => st.ksTa
  | .ct3 => ofIntWord st.ct3
  | .ct4 => ofIntWord st.ct4
  | .tgc => st.tgc
  | .resolution => BitVec.ofNat 32 st.resolution
  | .aCP0 => st.aCP0
  | .aCP1 => st.aCP1
  | .offCP0 => ofIntWord st.offCP0
  | .offCP1 => ofIntWord st.offCP1
  | .kVCP => st.kVCP
  | .kTaCP => st.kTaCP
  | .ksTo r => st.ksTo.get r
  | .alphaCorr r => st.alphaCorr.get r

/-- BAD_COUNT (R171). -/
def CalStore.badCount (st : CalStore) : Word := BitVec.ofNat 32 st.badPixels.length

/-- BAD_IDX[k]: the pixel index, or `0xFFFFFFFF` for an empty slot (R77, R171). -/
def CalStore.badIdx (st : CalStore) (k : Nat) : Word :=
  match st.badPixels[k]? with
  | some i => BitVec.ofNat 32 i.val
  | none => 0xFFFFFFFF#32

/-- The readback of an `EV_*` register (R45). -/
def OutputSet.readback (o : OutputSet) : EvName → Word
  | .resCorr => o.evResCorr
  | .vdd => o.evVdd
  | .ta => o.evTa
  | .kGain => o.evKGain
  | .cp0 => o.evCP0
  | .cp1 => o.evCP1
  | .taR => o.evTaR

/-- A value that is there only when a valid bit is 1 (R75). -/
def whenValid (valid : Bool) (w : Word) : Option Word := if valid then some w else none

/-- What a location holds for a read while BUSY is 0, or nothing where R75 makes the value a draw. -/
def State.contents (s : State) : Loc → Option Word
  | .id => some idValue
  | .cmd => some 0#32
  | .status => some s.status.word
  | .reserved => some 0#32
  | .aux r => whenValid (s.auxValid.get r) (ofHalf (s.aux.get r))
  | .minTemp => whenValid s.status.outValid s.out.minTemp
  | .maxTemp => whenValid s.status.outValid s.out.maxTemp
  | .badCount => whenValid s.status.calValid s.store.badCount
  | .badIdx k => whenValid s.status.calValid (s.store.badIdx k)
  | .ev e => whenValid s.status.outValid (s.out.readback e)
  | .cal f => whenValid s.status.calValid (s.store.readback f)
  | .ee k => (s.mem.lookup (eeBase + k)).map ofHalf
  | .pix i => (s.mem.lookup (pixBase + i.val)).map ofHalf
  | .raw i => (s.mem.lookup (rawBase + i.val)).map ofHalf
  | .temp i => whenValid s.status.outValid (s.out.temp.get i)
  | .pixOsRef i => whenValid s.status.calValid (ofIntWord (s.store.pixOsRef.get i))
  | .a i => whenValid s.status.calValid (s.store.a.get i)
  | .kV i => whenValid s.status.calValid (s.store.kV.get i)
  | .kTa i => whenValid s.status.calValid (s.store.kTa.get i)
  | .pattern i => whenValid s.status.calValid (BitVec.ofNat 32 (s.store.pattern.get i).val)

/-- Whether a location can be read exactly while BUSY is 1: ID and STATUS only (R82). -/
def Loc.readableBusy : Loc → Bool
  | .id => true
  | .status => true
  | _ => false

/-- What a read of an address returns, or nothing where the value is a draw (R75, R82). -/
def State.peek (s : State) (a : Addr) : Option Word :=
  if s.status.busy && !(locate a).readableBusy then none else s.contents (locate a)

/-- The value a read returns (R75). -/
def State.readValue (s : State) (a : Addr) : Word := (s.peek a).getD (Config.readDraw s.draws)

/-- A read transaction as the host sees it: the value goes into its record, and a draw is used up when the
value was one. No state of the block changes (R75, R81). -/
def State.observe (s : State) (a : Addr) : State :=
  { s with
    draws := if (s.peek a).isSome then s.draws else s.draws + 1
    host := { s.host with trace := (a, s.readValue a) :: s.host.trace } }

/-- The address of CMD and of STATUS (R71). -/
def cmdAddr : Addr := 0x0001#16
def statusAddr : Addr := 0x0002#16

/-- A word written to CMD (R33, R103, R106, R308): the command it encodes is issued; a word that is no
command is refused with ILLEGAL_CMD, or discarded while BUSY is 1. -/
def writeCmd (v : Word) (s : State) : Host.Outcome State Fault Refusal :=
  match decodeWord v with
  | .ok i => exec i s
  | .error _ =>
    .next (if s.status.busy then s.discardWrite else s.raiseError (opField v) .illegalCmd)

/-- A word stored into an AUX register: bits 15:0, and its valid bit set (R44, R54, R74, R81). -/
def State.storeAux (s : State) (r : AuxName) (v : Word) : State :=
  { s with aux := s.aux.set r (v.setWidth 16), auxValid := s.auxValid.mark r }

/-- A word stored into EE or PIX: bits 15:0, and its valid bit set (R46, R47, R52, R53, R74, R81). -/
def State.storeMem (s : State) (a : Nat) (v : Word) : State :=
  { s with mem := s.mem.write a (v.setWidth 16) }

/-- A write to a location other than CMD while BUSY is 0: the input locations take it, every other
location ignores it (R72, R73, R74, R81). -/
def State.storeLoc (s : State) (v : Word) : Loc → State
  | .aux r => s.storeAux r v
  | .ee k => s.storeMem (eeBase + k) v
  | .pix i => s.storeMem (pixBase + i.val) v
  | _ => s

/-- A write transaction (R70, R82). -/
def writePort (a : Addr) (v : Word) (s : State) : Host.Outcome State Fault Refusal :=
  match locate a with
  | .cmd => writeCmd v s
  | l => .next (if s.status.busy then s.discardWrite else s.storeLoc v l)

/-- The host's events to come replaced. -/
def State.setInputs (s : State) (es : List HostEvent) : State :=
  { s with host := { s.host with inputs := es } }

/-- A name bound by the host (R107). -/
def State.bindName (s : State) (name : String) (w : Word) : State :=
  { s with host := { s.host with bindings := (name, w) :: s.host.bindings } }

/-- An `EXPECT` judged by the host (R108). -/
def State.judge (s : State) (ok : Bool) : State :=
  { s with host := { s.host with testPass := s.host.testPass && ok } }

/-- Bit 0 of a value `POLL` read: BUSY (R34, R108). -/
def pollAgain (w : Word) : Bool := w.getLsbD 0

/-- The next event of the outside world (R70, R83, R107, R108, R331). With no event to come, the block
idles and every piece of state keeps its value (R316). `POLL` and `EXPECT` bind no name that
lasts, though R108 writes `s` and `t` in their expansions (DESIGN CHOICE, log 9). -/
def hostTurn (s : State) : Host.Outcome State Fault Refusal :=
  match s.host.inputs with
  | [] => .next s
  | .wr a v :: es => writePort a v (s.setInputs es)
  | .rd a :: es => .next ((s.setInputs es).observe a)
  | .rdTo a name :: es => .next (((s.setInputs es).observe a).bindName name (s.readValue a))
  | .expect a v :: es => .next (((s.setInputs es).observe a).judge (s.readValue a == v))
  | .poll :: es =>
    .next ((s.setInputs (if pollAgain (s.readValue statusAddr) then .poll :: es else es)).observe
      statusAddr)
  | .hardReset :: es => .next (s.setInputs es).resetBlock

end Sys2Proof.Machine
end

