-- ==== Sys2Proof/Machine/Step.lean ====
section
/-! DEFINITION. One step of the machine, and where it takes its next command from. -/

namespace Sys2Proof.Machine

/-- One event of the single total order of R83: the engine's completion step when it is due, and the next
event of the host otherwise (DESIGN CHOICE, log 15). -/
def step (s : State) : Host.Outcome State Fault Refusal :=
  if s.engineDue then .next (completePending s) else hostTurn s.tick

/-- The state in which the very next step is the host's write of the table word to CMD. A command reaches
the block in no other way (R31, R33). If the completion of a pending command were due first, it waits one
event more (DESIGN CHOICE, log 1). -/
def State.withFetchWord (s : State) (nbits w : Nat) : State :=
  { s with
    busyLeft := if s.engineDue then 1 else s.busyLeft
    host := { s.host with inputs := .wr cmdAddr (tableWord nbits w) :: s.host.inputs } }

end Sys2Proof.Machine
end

