-- ==== Sys2Proof/Machine/Script.lean ====
section
/-! DEFINITION. Host programs: the expansion of the pseudo-instructions (R107, R108), the words a host
forms from sensor bytes (R76), and the host's start-up and frame procedures (R203, R334; DESIGN
CHOICE, log 16). -/

namespace Sys2Proof.Machine

/-- `WR base + k, img[k]` for `k = 0, 1, …`, in increasing `k` (R108). -/
def loadWords (base : Nat) (img : List Half) : List HostEvent :=
  (List.range img.length).zipWith (fun k w => .wr (BitVec.ofNat 16 (base + k)) (ofHalf w)) img

/-- `CMD X` is `WR 0x0001, enc(X)` (R108). -/
def cmdEvent (i : Instr) : HostEvent := .wr cmdAddr (encode i)

/-- The expansion of a statement (R108). -/
def expand : Statement → List HostEvent
  | .wr a v => [.wr a v]
  | .rd a => [.rd a]
  | .rdTo a name => [.rdTo a name]
  | .cmd i => [cmdEvent i]
  | .poll => [.poll]
  | .run i => [cmdEvent i, .poll]
  | .loadEE img => loadWords eeBase img
  | .loadPix img => loadWords pixBase img
  | .loadAux vbe cp0 gain ptat cp1 vdd ctrl =>
    [.wr 0x0010#16 (ofHalf vbe), .wr 0x0011#16 (ofHalf cp0), .wr 0x0012#16 (ofHalf gain),
      .wr 0x0013#16 (ofHalf ptat), .wr 0x0014#16 (ofHalf cp1), .wr 0x0015#16 (ofHalf vdd),
      .wr 0x0016#16 (ofHalf ctrl)]
  | .expect a v => [.expect a v]

/-- A program: a finite sequence of statements, executed in order (R107). -/
def expandAll (p : List Statement) : List HostEvent := p.flatMap expand

/-- A word from two consecutive bytes of a sensor dump: the first byte is the most significant (R76). -/
def wordOfBytes (b0 b1 : BitVec 8) : Half := b0 ++ b1

/-- The words of a byte dump (R76); a last byte without a partner forms no word. -/
def wordsOfDump : List (BitVec 8) → List Half
  | b0 :: b1 :: bs => wordOfBytes b0 b1 :: wordsOfDump bs
  | _ => []

/-! ### The start-up procedure (R334) -/

/-- The two ways to reset the block (R331). -/
inductive ResetBy where
  /-- the reset input -/
  | input
  /-- SOFT_RESET -/
  | command
  deriving DecidableEq, Repr

/-- What R334 leaves to the host: how it resets the block, what its block read of the sensor's calibration
EEPROM gave (nothing when the read failed), and whether it reads the bad-pixel list. -/
structure StartupPlan where
  resetBy : ResetBy
  dump : Option (List (BitVec 8))
  readBad : Bool
  deriving DecidableEq, Repr

/-- How far the host is in the start-up procedure. -/
inductive StartupStage where
  /-- before step 1 -/
  | start
  /-- steps 1 and 2 issued: `id` is to be tested -/
  | identify
  /-- steps 3 to 7 issued: `s` is to be tested -/
  | decode
  /-- every requirement held; the host goes on to step 9 -/
  | ready
  /-- a requirement or the block read failed: the session has no calibration -/
  | stopped
  deriving DecidableEq, Repr

/-- The value last bound to a name (R107). -/
def HostSide.bound (h : HostSide) (name : String) : Option Word := h.bindings.lookup name

/-- Step 1: the reset. -/
def ResetBy.event : ResetBy → HostEvent
  | .input => .hardReset
  | .command => cmdEvent .softReset

/-- Step 2: `require id = 0x54430001`. -/
def HostSide.idRequired (h : HostSide) : Bool := h.bound "id" == some idValue

/-- `s.ERR = 0 and s.CAL_VALID = 1` of a STATUS word (R34). -/
def calibrationTaken (w : Word) : Bool := w.extractLsb' 8 4 == 0#4 && w.getLsbD 1

/-- Step 7: `require s.ERR = 0 and s.CAL_VALID = 1`. -/
def HostSide.calibrationRequired (h : HostSide) : Bool := (h.bound "s").any calibrationTaken

/-- Steps 3 and 4: the bytes of a block read that succeeded, which is one that gave the bytes of 832 words.
R334 speaks only of a read that fails and of one that gives 832 words; that a read of any other number of
bytes counts as failed is the model's choice (DESIGN CHOICE, log 16). -/
def StartupPlan.image (p : StartupPlan) : Option (List (BitVec 8)) :=
  p.dump.filter fun dump => dump.length == 2 * eeWords

/-- Steps 5 to 7, up to the test: the image loaded, DECODE run, STATUS bound to `s`. `startupNext` issues it
for the bytes of 832 words only (DESIGN CHOICE, log 16). -/
def startupScript (dump : List (BitVec 8)) : List Statement :=
  [.loadEE (wordsOfDump dump), .run .decode, .rdTo statusAddr "s"]

/-- Step 8: the reads of BAD_COUNT and of BAD_IDX; BAD_OVERFLOW is a bit of `s`. -/
def badPixelScript : List Statement :=
  .rd 0x0022#16 :: (List.range 8).map fun k => .rd (BitVec.ofNat 16 (0x0028 + k))

/-- What the host issues next, and the stage it comes to, when everything it issued before has happened.
It stops where a requirement of step 2 or 7 or the block read of step 3 fails (step 4). -/
def startupNext (p : StartupPlan) (h : HostSide) : StartupStage → List HostEvent × StartupStage
  | .start => ([p.resetBy.event, .rdTo 0x0000#16 "id"], .identify)
  | .identify =>
    if h.idRequired then
      match p.image with
      | some dump => (expandAll (startupScript dump), .decode)
      | none => ([], .stopped)
    else ([], .stopped)
  | .decode =>
    if h.calibrationRequired then (if p.readBad then expandAll badPixelScript else [], .ready)
    else ([], .stopped)
  | .ready => ([], .ready)
  | .stopped => ([], .stopped)

/-- The host's turn in the start-up procedure: it acts once nothing it issued is left to happen. -/
def startupTurn (p : StartupPlan) (g : StartupStage) (s : State) : StartupStage × State :=
  if s.host.inputs.isEmpty then
    ((startupNext p s.host g).2, s.setInputs (startupNext p s.host g).1)
  else (g, s)

/-- `n` steps of the machine with a host in its start-up procedure, which has its turn before each. -/
def startupRun (p : StartupPlan) :
    Nat → StartupStage → State → Host.Outcome (StartupStage × State) Fault Refusal
  | 0, g, s => .next (g, s)
  | n + 1, g, s =>
    match step (startupTurn p g s).2 with
    | .next t => startupRun p n (startupTurn p g s).1 t
    | .fault r => .fault r
    | .refused r => .refused r

/-! ### The frame procedure (R203) -/

/-- What the seven sensor reads of step 8 gave; nothing where one failed. -/
structure AuxReads where
  vbe : Option Half
  cpSp0 : Option Half
  gain : Option Half
  ptat : Option Half
  cpSp1 : Option Half
  vdd : Option Half
  ctrl : Option Half
  deriving DecidableEq, Repr

/-- How the host's wait for new data ends (steps 2 and 3). -/
inductive Wait where
  /-- the sensor had new data and the host cleared the bit -/
  | newData
  /-- a read of the status register failed, or the write of step 3, which counts as a read here (DESIGN
  CHOICE, log 16) -/
  | failed
  /-- the host set itself a bound on the wait, and it ran out -/
  | boundReached
  deriving DecidableEq, Repr

/-- One of the two measurements of a frame. -/
structure Measurement where
  wait : Wait
  /-- what each read of the sensor's pixel RAM gives, or nothing where it fails (step 4) -/
  pixels : Grid (Option Half)
  deriving DecidableEq, Repr

/-- What the sensor gives the host during one frame. -/
structure FrameReads where
  /-- the status register as step 1 reads it, or nothing where that read fails -/
  status : Option Half
  first : Measurement
  second : Measurement
  aux : AuxReads
  deriving DecidableEq, Repr

/-- How a part of a host procedure ends. -/
inductive Ending where
  /-- the host came to the part's end -/
  | whole
  /-- a sensor read failed -/
  | abandoned
  /-- the host's bound on a wait ran out, and it reset the block -/
  | reset
  deriving DecidableEq, Repr

/-- A part of a host procedure: what the host issues, and how the part ends. -/
structure HostPart where
  script : List Statement
  ending : Ending
  deriving DecidableEq, Repr

/-- Whether the host came to the part's end. -/
def HostPart.done (p : HostPart) : Bool := p.ending == .whole

/-- A part that no failure can cut short. -/
def HostPart.of (script : List Statement) : HostPart := ⟨script, .whole⟩

/-- One part after another: the host goes on to the second only when it came to the first one's end. -/
def HostPart.andThen (p q : HostPart) : HostPart :=
  if p.done then ⟨p.script ++ q.script, q.ending⟩ else p

/-- A sensor read whose word is written to the block. A failed read writes nothing and abandons the frame. -/
def copyWord (a : Nat) (r : Option Half) : HostPart :=
  match r with
  | some w => .of [.wr (BitVec.ofNat 16 a) (ofHalf w)]
  | none => ⟨[], .abandoned⟩

/-- Words copied from the sensor one after another, each written before the next is read. -/
def copyWords (rs : List (Nat × Option Half)) : HostPart :=
  rs.foldr (fun r p => (copyWord r.1 r.2).andThen p) (.of [])

/-- The wait for new data (steps 2 and 3), which gives the block no transaction while it lasts. R203 leaves
its bound to the host and does not say what the host does when it runs out; R282 and 93 U3 say that a host
with such a budget uses SOFT_RESET. That the host does so at once here, and ends the frame with it, is the
model's choice (DESIGN CHOICE, log 16). -/
def newDataPart (m : Measurement) : HostPart :=
  match m.wait with
  | .newData => .of []
  | .failed => ⟨[], .abandoned⟩
  | .boundReached => ⟨[.cmd .softReset], .reset⟩

/-- The word a read of the pixel RAM gives for an index. -/
def Measurement.pixel (m : Measurement) (idx : Nat) : Option Half := m.pixels.vals[idx]?.join

/-- Steps 2 to 5 for the subpage offset `o`: its pixel words copied to PIX, then merged. R203 gives the copies
of step 4 no order, since `SUB(o)` is a set; that the host makes them in rising index order, the order of
R200's loops, is the model's choice: it settles which PIX words a failed read leaves written (DESIGN CHOICE,
log 16). -/
def subpagePart (o : Nat) (m : Measurement) : HostPart :=
  ((newDataPart m).andThen
      (copyWords ((subIndices o).map fun idx => (pixBase + idx, m.pixel idx)))).andThen
    (.of [.run (.merge o)])

/-- Step 8: the seven AUX registers copied, in the order of R44's table. That each is written before the next
is read is the model's choice (DESIGN CHOICE, log 16). -/
def auxPart (x : AuxReads) : HostPart :=
  copyWords [(0x0010, x.vbe), (0x0011, x.cpSp0), (0x0012, x.gain), (0x0013, x.ptat), (0x0014, x.cpSp1),
    (0x0015, x.vdd), (0x0016, x.ctrl)]

/-- Steps 9 and 10: EVALUATE, and the reads of the temperatures. -/
def resultScript : List Statement :=
  .run .evaluate
    :: ((List.range nPix).map fun i => .rd (BitVec.ofNat 16 (0x1000 + i)))
      ++ [.rd 0x0020#16, .rd 0x0021#16]

/-- `o1 := s[0]` (step 1). -/
def subpageId (s : Half) : Nat := s.toNat % 2

/-- What comes before EVALUATE in a frame (steps 1 to 8). -/
def framePrefix (f : FrameReads) : HostPart :=
  match f.status with
  | some s =>
    ((subpagePart (subpageId s) f.first).andThen
      (subpagePart ((subpageId s + 1) % 2) f.second)).andThen (auxPart f.aux)
  | none => ⟨[], .abandoned⟩

/-- One frame (R203). When a sensor read fails the host abandons it and issues no EVALUATE. -/
def framePart (f : FrameReads) : HostPart := (framePrefix f).andThen (.of resultScript)

/-- What the host issues for one frame. -/
def frameScript (f : FrameReads) : List Statement := (framePart f).script

/-- The frames of a session, one after another: after an abandoned frame as after a whole one the next
starts at step 1, and so repeats both MERGEs before its EVALUATE (R203). A frame that ends in SOFT_RESET
ends the session's frames, since the calibration store is lost and the start-up has to run again (R282,
R334). -/
def framesScript : List FrameReads → List Statement
  | [] => []
  | f :: fs =>
    match (framePart f).ending with
    | .whole => frameScript f ++ framesScript fs
    | .abandoned => frameScript f ++ framesScript fs
    | .reset => frameScript f

end Sys2Proof.Machine
end

