-- ==== Sys2Proof/Safety.lean ====
section
/-! DEFINITION. The vocabulary of the claims: the value a binary32 word stands for, what it means that a
word is the correctly rounded result, the legal command words as the spec lists them, and the invariant of
the machine. -/

namespace Sys2Proof

/-- The value of a finite binary32 word (R77). -/
def F32.toRat (x : F32) : Rat := (F32.units x : Rat) / 2 ^ 149

/-- The least magnitude that rounds to an infinity: half a unit of the last place above the largest finite
value. -/
def F32.overflowBound : Rat := 2 ^ 128 - 2 ^ 103

/-- `w` is the real number `x` correctly rounded to binary32, to nearest with ties to even (R10): `w` is no
NaN; a finite `w` is as near to `x` as every other finite value, and where another one is as near, the last
bit of `w` is 0; an infinite `w` has the sign of `x`, which lies beyond the range. -/
structure F32.Rounds (x : Rat) (w : F32) : Prop where
  number : F32.isNaN w = false
  inRange : F32.isFinite w = true ↔ |x| < F32.overflowBound
  nearest : F32.isFinite w = true → ∀ v : F32, F32.isFinite v = true →
    |x - F32.toRat w| ≤ |x - F32.toRat v|
  tieEven : F32.isFinite w = true → ∀ v : F32, F32.isFinite v = true →
    F32.toRat v ≠ F32.toRat w → |x - F32.toRat w| = |x - F32.toRat v| → w.getLsbD 0 = false
  direction : F32.isInf w = true → (F32.sign w = true ↔ x < 0)

/-- `w` is the square root of `x ≥ 0` correctly rounded (R13), said without irrational numbers: the
root lies on `w`'s side of the midpoint between `w` and every other finite value. -/
structure F32.RootRounds (x : Rat) (w : F32) : Prop where
  finite : F32.isFinite w = true
  nonneg : 0 ≤ F32.toRat w
  below : ∀ v : F32, F32.isFinite v = true → F32.toRat w < F32.toRat v →
    x ≤ ((F32.toRat w + F32.toRat v) / 2) ^ 2
  above : ∀ v : F32, F32.isFinite v = true → 0 ≤ F32.toRat v → F32.toRat v < F32.toRat w →
    ((F32.toRat w + F32.toRat v) / 2) ^ 2 ≤ x

/-- `w` is what the host sees of the computed value `x`: the value itself when it is no NaN, and some quiet
NaN, whatever its sign and payload, when it is one (R15). -/
def F32.Shows (w x : F32) : Prop :=
  (F32.isNaN x = false → w = x) ∧
    (F32.isNaN x = true → F32.isNaN w = true ∧ w.getLsbD 22 = true)

/-- The legal command words, as R102 words the rule. -/
def legalWord (v : Word) : Prop :=
  (v.toNat % 16 ∈ [0x0, 0x1, 0x3, 0x4, 0xF] ∧ v.toNat / 2 ^ 4 = 0) ∨
    (v.toNat % 16 = 0x2 ∧ v.toNat / 2 ^ 5 = 0)

/-- The rows of the opcode table as (match, mask) (R102). -/
def commandRows : List (Word × Word) :=
  [(0x00000000#32, 0xFFFFFFFF#32), (0x00000001#32, 0xFFFFFFFF#32), (0x00000002#32, 0xFFFFFFEF#32),
    (0x00000003#32, 0xFFFFFFFF#32), (0x00000004#32, 0xFFFFFFFF#32), (0x0000000F#32, 0xFFFFFFFF#32)]

namespace Machine

/-- The address of a word of EE, PIX or RAW (R71). -/
def bufferAddr (a : Nat) : Prop :=
  (0x0400 ≤ a ∧ a < 0x0740) ∨ (0x0800 ≤ a ∧ a < 0x0B00) ∨ (0x0C00 ≤ a ∧ a < 0x0F00)

/-- An event that resets the block: the reset input, or the write of SOFT_RESET's word to CMD (R331). -/
def resets (e : HostEvent) : Prop := e = .hardReset ∨ e = .wr 0x0001#16 0x0000000F#32

/-- What no event may change while a command stays pending (R82, R83): its inputs, its targets and PENDING,
and the parameter. -/
structure State.SameBlock (s t : State) : Prop where
  mem : t.mem = s.mem
  aux : t.aux = s.aux
  auxValid : t.auxValid = s.auxValid
  store : t.store = s.store
  out : t.out = s.out
  pending : t.pending = s.pending
  badCap : t.badCap = s.badCap

/-- The acceptance check of a long command; `none` for a command that is not long. -/
def longCheck (i : Instr) (s : State) : Option (Option Err) :=
  match i with
  | .nop => none
  | .decode => some (decodeCheck s)
  | .merge o => some (mergeCheck o s)
  | .evaluate => some (evaluateCheck s)
  | .clearFlags => none
  | .softReset => none

/-- The invariant of the machine: what holds in every state a run can reach. -/
structure State.Inv (s : State) : Prop where
  /-- the buffers keep their canonical form -/
  memWf : s.mem.wf
  /-- only words of EE, PIX and RAW are listed (R71) -/
  memInBuffers : ∀ c ∈ s.mem, bufferAddr c.1
  /-- `BAD_CAP` is legal (R6) -/
  capLegal : 1 ≤ s.badCap ∧ s.badCap ≤ 8
  /-- while BUSY is 1, PENDING holds a well-formed long command whose acceptance check still passes (R35,
  R55, R83) -/
  pendingLong : s.status.busy = true →
    ∃ i, i.wellFormed = true ∧ s.pending = encode i ∧ longCheck i s = some none
  /-- while CAL_VALID is 1, the whole store is what one DECODE writes for some image (R36, R51), and
  BAD_OVERFLOW belongs to it (R39) -/
  storeDecoded : s.status.calValid = true →
    ∃ ee : Image, s.store = decodeStore s.badCap ee ∧
      s.status.badOverflow = decOverflow s.badCap ee
  /-- a merged half of RAW is there as a whole (R38, R202) -/
  mergedHalf : ∀ o, s.status.merged o = true → ∀ idx ∈ subIndices o, s.rawMerged idx = true
  /-- while OUT_VALID is 1, MIN_TEMP, MAX_TEMP and NONFINITE describe TEMP (R40, R264, R265) -/
  outputMatches : s.status.outValid = true →
    s.out.minTemp = scanMin s.out.temp ∧ s.out.maxTemp = scanMax s.out.temp ∧
      s.status.nonfinite = anyNonfinite s.out.temp

end Machine

end Sys2Proof
end

