-- ==== Sys2Proof/Certificates/Slice0/Obligations.lean ====
section
/-! DEFINITION. The statements for the provers. Each names in its docstring the rule of the spec it
formalises. -/

open Sys2Proof Sys2Proof.Machine

/-! ### Encoding -/

/-- R102: a word is a command exactly when it is legal, each command's words are those its row of the
opcode table matches, and the rows match a word exactly once when it is legal and never otherwise. -/
def Obligations.LegalCommandWords : Prop :=
  ∀ v : Word,
    ((∃ i, decodeWord v = .ok i) ↔ legalWord v) ∧
    (legalWord v → (commandRows.filter fun r => v &&& r.2 == r.1).length = 1) ∧
    (¬ legalWord v → (commandRows.filter fun r => v &&& r.2 == r.1).length = 0) ∧
    (decodeWord v = .ok .nop ↔ v &&& 0xFFFFFFFF#32 = 0x00000000#32) ∧
    (decodeWord v = .ok .decode ↔ v &&& 0xFFFFFFFF#32 = 0x00000001#32) ∧
    ((∃ o, decodeWord v = .ok (.merge o)) ↔ v &&& 0xFFFFFFEF#32 = 0x00000002#32) ∧
    (decodeWord v = .ok .evaluate ↔ v &&& 0xFFFFFFFF#32 = 0x00000003#32) ∧
    (decodeWord v = .ok .clearFlags ↔ v &&& 0xFFFFFFFF#32 = 0x00000004#32) ∧
    (decodeWord v = .ok .softReset ↔ v &&& 0xFFFFFFFF#32 = 0x0000000F#32)

/-- R100 to R104: decoding the encoding of a well-formed command gives it back, and every word that
decodes is the encoding of the well-formed command it decodes to. -/
def Obligations.DecodeEncodeAgree : Prop :=
  (∀ i : Instr, i.wellFormed = true → decodeWord (encode i) = .ok i) ∧
  (∀ (v : Word) (i : Instr), decodeWord v = .ok i → i.wellFormed = true ∧ encode i = v)

/-- The full encodings of R101's table decode to their commands, and words the test list of 95, 3.4.1,
calls illegal are rejected by name. -/
def Obligations.SpecWordsDecode : Prop :=
  decodeWord 0x00000000#32 = .ok .nop ∧ decodeWord 0x00000001#32 = .ok .decode ∧
  decodeWord 0x00000002#32 = .ok (.merge 0) ∧ decodeWord 0x00000012#32 = .ok (.merge 1) ∧
  decodeWord 0x00000003#32 = .ok .evaluate ∧ decodeWord 0x00000004#32 = .ok .clearFlags ∧
  decodeWord 0x0000000F#32 = .ok .softReset ∧
  decodeWord 0x00000005#32 = .error .reservedOp ∧ decodeWord 0x0000000E#32 = .error .reservedOp ∧
  decodeWord 0x00000011#32 = .error .reservedBit ∧ decodeWord 0x00000022#32 = .error .reservedBit ∧
  decodeWord 0x0000001F#32 = .error .reservedBit ∧ decodeWord 0x80000003#32 = .error .reservedBit

/-- R31, R33, R70, R83: when the engine's completion is not the next event and the host's next event is a
write, of any word to any address, a step is that write, `writePort`, at the state in which the event is
taken off the host's list and one event of a pending command's duration has passed (logs 1, 2, 15); when the
address is CMD's and the word decodes to `i`, it is `exec i` at that state. The state `withFetchWord` makes
is such a state, whatever the state before was. -/
def Obligations.StepRunsDecodedCommand : Prop :=
  ∀ (s : State) (es : List HostEvent),
    let after := { s with
      busyLeft := if s.status.busy then s.busyLeft - 1 else s.busyLeft
      host := { s.host with inputs := es } }
    (∀ (a : Addr) (v : Word), s.engineDue = false → s.host.inputs = .wr a v :: es →
      step s = writePort a v after) ∧
    (∀ (v : Word) (i : Instr), decodeWord v = .ok i →
      (s.engineDue = false → s.host.inputs = .wr 0x0001#16 v :: es → step s = exec i after) ∧
      ((s.withFetchWord 32 v.toNat).engineDue = false ∧
        (s.withFetchWord 32 v.toNat).host.inputs = .wr 0x0001#16 v :: s.host.inputs ∧
        ∃ b, step (s.withFetchWord 32 v.toNat) = exec i { s with busyLeft := b }))

/-- R55, R80: when the engine's completion step is due, a step is that completion, and the command it
performs is the one PENDING holds. When the completion is due, at `busyLeft` 0, is the model's own count of
a duration that R345 leaves open (log 2); that it then comes before whatever host event or reset input
waits is the model's choice, where R83 leaves its place open (log 15); and so is that BUSY falls also for a
PENDING that holds no long command (log 11). -/
def Obligations.EngineCompletesPending : Prop :=
  ∀ s : State, s.status.busy = true → s.busyLeft = 0 →
    (s.pending = 0x1#32 → step s = .next (completeDecode s)) ∧
    (s.pending = 0x2#32 → step s = .next (completeMerge 0 s)) ∧
    (s.pending = 0x12#32 → step s = .next (completeMerge 1 s)) ∧
    (s.pending = 0x3#32 → step s = .next (completeEvaluate s)) ∧
    (∀ t, step s = .next t → t.status.busy = false)

/-! ### The short commands and the refusals -/

/-- R280: NOP, the word `0x00000000`. With BUSY 0 it runs, sets LAST_OP and ERR and changes nothing else;
with BUSY 1 it is discarded and sets WRITE_WHILE_BUSY. The rule's example included. -/
def Obligations.NopSetsLastOpAndErr : Prop :=
  ∀ s : State,
    (s.status.busy = false →
      exec .nop s = .next { s with status := { s.status with lastOp := 0x0#4, err := .ok } }) ∧
    (s.status.busy = true →
      exec .nop s = .next { s with status := { s.status with writeWhileBusy := true } }) ∧
    (s.status.word = 0x00003502#32 → ∃ t, exec .nop s = .next t ∧ t.status.word = 0x00000002#32) ∧
    encode .nop = 0x00000000#32 ∧ decodeWord 0x00000000#32 = .ok .nop

/-- R281: CLEAR_FLAGS, the word `0x00000004`. With BUSY 0 it runs, writes LAST_OP, ERR and
WRITE_WHILE_BUSY and changes nothing else; with BUSY 1 it is discarded and sets the flag it would clear.
The rule's example included. -/
def Obligations.ClearFlagsClearsStickyAndErr : Prop :=
  ∀ s : State,
    (s.status.busy = false →
      exec .clearFlags s =
        .next
          { s with
            status := { s.status with lastOp := 0x4#4, err := .ok, writeWhileBusy := false } }) ∧
    (s.status.busy = true →
      exec .clearFlags s = .next { s with status := { s.status with writeWhileBusy := true } }) ∧
    (s.status.word = 0x000010A2#32 → ∃ t, exec .clearFlags s = .next t ∧ t.status.word = 0x00004022#32) ∧
    encode .clearFlags = 0x00000004#32 ∧ decodeWord 0x00000004#32 = .ok .clearFlags

/-- R282, R330: SOFT_RESET runs at any time, also while BUSY is 1: STATUS reads `0x0000F000`, every valid
bit is 0, nothing is pending, and no event but the host's comes next. What R330 leaves unspecified, AUX,
the store and the output set, keeps its values here (log 8), and the host, the parameter and the model's
counters are not touched. Every other word with OP `0xF` is refused with BUSY 0 and discarded with BUSY
1. -/
def Obligations.SoftResetClearsBlock : Prop :=
  ∀ s : State,
    (∃ t, exec .softReset s = .next t ∧
      t.status.word = 0x0000F000#32 ∧ t.status.busy = false ∧ t.engineDue = false ∧
      (∀ k, t.eeValid k = false) ∧ (∀ i, t.pixValid i = false) ∧ (∀ i, t.rawMerged i = false) ∧
      (∀ r, t.auxValid.get r = false) ∧
      t.aux = s.aux ∧ t.store = s.store ∧ t.out = s.out ∧ t.badCap = s.badCap ∧
      t.delays = s.delays ∧ t.draws = s.draws ∧ t.host = s.host) ∧
    (∀ v : Word, v.toNat % 16 = 0xF → v ≠ 0x0000000F#32 →
      writeCmd v s =
        .next
          (if s.status.busy then { s with status := { s.status with writeWhileBusy := true } }
          else { s with status := { s.status with lastOp := 0xF#4, err := .illegalCmd } }))

/-- R301: a word written to CMD with BUSY 0 that fails the legality test of R102 sets ERR to 1 and LAST_OP
to bits 3:0, and nothing else changes. -/
def Obligations.IllegalWordRecorded : Prop :=
  ∀ (s : State) (v : Word), s.status.busy = false → ¬ legalWord v →
    writePort 0x0001#16 v s =
      .next
        { s with
          status :=
            { s.status with lastOp := BitVec.ofNat 4 (v.toNat % 16), err := .illegalCmd } } ∧
    Err.code .illegalCmd = 1#4

/-- R82, R105: with BUSY 1 every write to every address is discarded and sets WRITE_WHILE_BUSY, but for the
word `0x0000000F` to CMD, which is performed; a read of ID or STATUS returns its current value, and a read
of any other address returns a draw. -/
def Obligations.BusyPortRules : Prop :=
  ∀ s : State, s.status.busy = true →
    (∀ (a : Addr) (v : Word), ¬(a = 0x0001#16 ∧ v = 0x0000000F#32) →
      writePort a v s = .next { s with status := { s.status with writeWhileBusy := true } }) ∧
    writePort 0x0001#16 0x0000000F#32 s = exec .softReset s ∧
    s.peek 0x0000#16 = some 0x54430001#32 ∧
    s.peek 0x0002#16 = some s.status.word ∧
    (∀ a : Addr, a ≠ 0x0000#16 → a ≠ 0x0002#16 → s.peek a = none)

/-- R302, R303: DECODE raises EE_INCOMPLETE when some EE word was not written since reset, and MERGE o
raises PIX_INCOMPLETE when some PIX word of `SUB(o)` was not; nothing but ERR and LAST_OP changes. -/
def Obligations.RefusedOnMissingWords : Prop :=
  ∀ s : State, s.status.busy = false →
    ((∃ k, k < 832 ∧ s.eeValid k = false) →
      exec .decode s =
        .next { s with status := { s.status with lastOp := 0x1#4, err := .eeIncomplete } }) ∧
    (∀ o, (∃ idx, idx < 768 ∧ (idx / 32 + idx % 32) % 2 = o % 2 ∧ s.pixValid idx = false) →
      exec (.merge o) s =
        .next { s with status := { s.status with lastOp := 0x2#4, err := .pixIncomplete } }) ∧
    Err.code .eeIncomplete = 2#4 ∧ Err.code .pixIncomplete = 3#4

/-- R304, R305, R308: EVALUATE's checks run in the order NOT_CALIBRATED, FRAME_INCOMPLETE,
AUX_INCOMPLETE; the first that fails is recorded and nothing but ERR and LAST_OP changes. -/
def Obligations.EvaluateRefusedInOrder : Prop :=
  ∀ s : State, s.status.busy = false →
    (s.status.calValid = false →
      exec .evaluate s =
        .next { s with status := { s.status with lastOp := 0x3#4, err := .notCalibrated } }) ∧
    (s.status.calValid = true → (s.status.merged0 = false ∨ s.status.merged1 = false) →
      exec .evaluate s =
        .next { s with status := { s.status with lastOp := 0x3#4, err := .frameIncomplete } }) ∧
    (s.status.calValid = true → s.status.merged0 = true → s.status.merged1 = true →
      (∃ r, s.auxValid.get r = false) →
      exec .evaluate s =
        .next { s with status := { s.status with lastOp := 0x3#4, err := .auxIncomplete } }) ∧
    Err.code .notCalibrated = 4#4 ∧ Err.code .frameIncomplete = 5#4 ∧ Err.code .auxIncomplete = 6#4

/-! ### The long commands complete -/

/-- R150: with BUSY 0 and every EE word written, DECODE is accepted, and its completion step writes the
whole store, sets CAL_VALID and BAD_OVERFLOW, clears BUSY and changes nothing else. The fields `busyLeft`,
`delays` and `draws` are the model's own (log 2), and that PENDING keeps the command word after the
completion is the model's choice (log 19). -/
def Obligations.DecodeAcceptedAndCompletes : Prop :=
  ∀ s : State, s.status.busy = false → (∀ k, k < 832 → s.eeValid k = true) →
    ∃ t, exec .decode s = .next t ∧
      t = { s with
        status := { s.status with lastOp := 0x1#4, err := .ok, busy := true }
        pending := 0x00000001#32
        busyLeft := s.nextDelay
        delays := s.delays.tail
        draws := s.draws + 1 } ∧
      completePending t =
        { t with
          store := decodeStore s.badCap s.ee
          status :=
            { s.status with
              lastOp := 0x1#4
              err := .ok
              busy := false
              calValid := true
              badOverflow := decOverflow s.badCap s.ee } }

/-- R200, R201: with BUSY 0 and every PIX word of `SUB(o)` written, MERGE o is accepted, and its completion
step copies exactly the words of `SUB(o)` from PIX to RAW, sets MERGED[o], clears BUSY and changes nothing
else: every address other than those RAW words reads as before. The fields `busyLeft`, `delays` and `draws`
are the model's own (log 2), and that PENDING keeps the command word after the completion is the model's
choice (log 19). -/
def Obligations.MergeAcceptedAndCompletes : Prop :=
  ∀ (s : State) (o : Nat), o < 2 → s.status.busy = false →
    (∀ idx, idx < 768 → (idx / 32 + idx % 32) % 2 = o → s.pixValid idx = true) →
    ∃ t, exec (.merge o) s = .next t ∧
      t = { s with
        status := { s.status with lastOp := 0x2#4, err := .ok, busy := true }
        pending := BitVec.ofNat 32 (2 + 16 * o)
        busyLeft := s.nextDelay
        delays := s.delays.tail
        draws := s.draws + 1 } ∧
      ∃ m, completePending t =
          { t with
            mem := m
            status :=
              { s.status with
                lastOp := 0x2#4
                err := .ok
                busy := false
                merged0 := s.status.merged0 || o == 0
                merged1 := s.status.merged1 || o == 1 } } ∧
        (∀ idx, idx < 768 → (idx / 32 + idx % 32) % 2 = o →
          m.lookup (0x0C00 + idx) = s.mem.lookup (0x0800 + idx)) ∧
        (∀ a, (∀ idx, idx < 768 → (idx / 32 + idx % 32) % 2 = o → a ≠ 0x0C00 + idx) →
          m.lookup a = s.mem.lookup a)

/-- R15, R220, R263 to R266: with BUSY 0, a calibrated block, both halves merged and every AUX register
written, EVALUATE is accepted, and its completion step writes the whole output set from the store, RAW and
AUX, sets OUT_VALID and NONFINITE, clears MERGED0, MERGED1 and BUSY and changes nothing else of the block.
TEMP shows the grid of every pixel's pre-repair temperature, first repaired at the store's listed pixels and
then flipped; MIN_TEMP and MAX_TEMP are the scans of TEMP; NONFINITE says whether some entry of the grid is
not finite; and the seven EV registers show the frame scalars of their names. A NaN is shown as some quiet
NaN (log 4). The fields `busyLeft`, `delays` and `draws` are the model's own (logs 2 and 4), and that
PENDING keeps the command word after the completion is the model's choice (log 19). -/
def Obligations.EvaluateAcceptedAndCompletes : Prop :=
  ∀ s : State, s.status.busy = false → s.status.calValid = true → s.status.merged0 = true →
    s.status.merged1 = true → (∀ r, s.auxValid.get r = true) →
    ∃ t, exec .evaluate s = .next t ∧
      t = { s with
        status := { s.status with lastOp := 0x3#4, err := .ok, busy := true }
        pending := 0x00000003#32
        busyLeft := s.nextDelay
        delays := s.delays.tail
        draws := s.draws + 1 } ∧
      ∃ o b, completePending t =
          { t with
            out := o
            draws := s.draws + 1 + 775
            status :=
              { s.status with
                lastOp := 0x3#4
                err := .ok
                busy := false
                outValid := true
                nonfinite := b
                merged0 := false
                merged1 := false } } ∧
        o = outputsOf (s.draws + 1) (frameScalars s.store s.aux)
          (finalGrid s.store (frameScalars s.store s.aux) s.raw) ∧
        (b = true ↔ ∃ i, F32.isFinite (o.temp.get i) = false) ∧
        ∀ pre : Grid F32,
          (∀ i, pre.get i = pixelTemp s.store (frameScalars s.store s.aux) (s.raw i.val) i) →
          let grid := flipGrid (repair s.store.badPixels pre)
          let fs := frameScalars s.store s.aux
          (∀ i, F32.Shows (o.temp.get i) (grid.get i)) ∧
          (b = true ↔ ∃ i, F32.isFinite (grid.get i) = false) ∧
          o.minTemp = scanMin o.temp ∧ o.maxTemp = scanMax o.temp ∧
          F32.Shows o.evResCorr fs.resCorr ∧ F32.Shows o.evVdd fs.vdd ∧ F32.Shows o.evTa fs.ta ∧
          F32.Shows o.evKGain fs.kGain ∧ F32.Shows o.evCP0 fs.cp0 ∧ F32.Shows o.evCP1 fs.cp1 ∧
          F32.Shows o.evTaR fs.taR

/-! ### The values DECODE derives

The spec marks the formulas and the field positions of these rules "[from general knowledge, not in
source]"; the model takes them as the spec states them (log 13). -/

/-- R9: `sext_N` of an N-bit field value is its two's-complement reading. -/
def Obligations.SignCorrectionIsTwosComplement : Prop :=
  ∀ n v : Nat, 1 ≤ n → v < 2 ^ n →
    sext n v = (BitVec.ofNat n v).toInt ∧
    (v < 2 ^ (n - 1) → sext n v = v) ∧ (2 ^ (n - 1) ≤ v → sext n v = (v : Int) - 2 ^ n) ∧
    -(2 ^ (n - 1) : Int) ≤ sext n v ∧ sext n v ≤ 2 ^ (n - 1) - 1

/-- R151, R152, R155, R157, R160: the integer scalars of a decoded store, with their ranges. -/
def Obligations.IntegerScalarsDecoded : Prop :=
  ∀ (cap : Nat) (ee : Image),
    (decodeStore cap ee).kVdd = ((ee 51).extractLsb' 8 8).toInt * 32 ∧
    -4096 ≤ (decodeStore cap ee).kVdd ∧ (decodeStore cap ee).kVdd ≤ 4064 ∧
    ((decodeStore cap ee).kVdd = 0 ↔ (ee 51).extractLsb' 8 8 = 0#8) ∧
    (decodeStore cap ee).vdd25 = (((ee 51).extractLsb' 0 8).toNat - 256 : Int) * 32 - 8192 ∧
    -16384 ≤ (decodeStore cap ee).vdd25 ∧ (decodeStore cap ee).vdd25 ≤ -8224 ∧
    (decodeStore cap ee).vPtat25 = (ee 49).toInt ∧
    -32768 ≤ (decodeStore cap ee).vPtat25 ∧ (decodeStore cap ee).vPtat25 ≤ 32767 ∧
    (decodeStore cap ee).gain = (ee 48).toInt ∧
    -32768 ≤ (decodeStore cap ee).gain ∧ (decodeStore cap ee).gain ≤ 32767 ∧
    (decodeStore cap ee).resolution = ((ee 56).extractLsb' 12 2).toNat ∧
    (decodeStore cap ee).resolution ≤ 3

/-- R153, R154, R156, R158, R159: these binary32 scalars have the exact values the rules give. -/
def Obligations.ScaledScalarsExact : Prop :=
  ∀ (cap : Nat) (ee : Image),
    (F32.isFinite (decodeStore cap ee).kVPtat = true ∧
      F32.toRat (decodeStore cap ee).kVPtat = (((ee 50).extractLsb' 10 6).toInt : Rat) / 4096) ∧
    (F32.isFinite (decodeStore cap ee).kTPtat = true ∧
      F32.toRat (decodeStore cap ee).kTPtat = (((ee 50).extractLsb' 0 10).toInt : Rat) / 8) ∧
    (F32.toRat (decodeStore cap ee).kTPtat = 0 ↔ (ee 50).extractLsb' 0 10 = 0#10) ∧
    (F32.isFinite (decodeStore cap ee).alphaPtat = true ∧
      F32.toRat (decodeStore cap ee).alphaPtat =
        8 + (((ee 16).extractLsb' 12 4).toNat : Rat) / 4) ∧
    (F32.isFinite (decodeStore cap ee).ksTa = true ∧
      F32.toRat (decodeStore cap ee).ksTa = (((ee 60).extractLsb' 8 8).toInt : Rat) / 8192) ∧
    (F32.isFinite (decodeStore cap ee).tgc = true ∧
      F32.toRat (decodeStore cap ee).tgc = (((ee 60).extractLsb' 0 8).toInt : Rat) / 32)

/-- R161: the corner temperatures and the range floors. -/
def Obligations.CornerTemperaturesDecoded : Prop :=
  ∀ (cap : Nat) (ee : Image),
    let step : Int := ((ee 63).extractLsb' 12 2).toNat * 10
    (decodeStore cap ee).ct3 = ((ee 63).extractLsb' 4 4).toNat * step ∧
    (decodeStore cap ee).ct4 =
      (decodeStore cap ee).ct3 + ((ee 63).extractLsb' 8 4).toNat * step ∧
    0 ≤ (decodeStore cap ee).ct3 ∧ (decodeStore cap ee).ct3 ≤ 450 ∧
    (decodeStore cap ee).ct3 ≤ (decodeStore cap ee).ct4 ∧ (decodeStore cap ee).ct4 ≤ 900 ∧
    (step = 0 → (decodeStore cap ee).ct3 = 0 ∧ (decodeStore cap ee).ct4 = 0) ∧
    ctFloor (decodeStore cap ee) 0 = -40 ∧ ctFloor (decodeStore cap ee) 1 = 0 ∧
    ctFloor (decodeStore cap ee) 2 = (decodeStore cap ee).ct3 ∧
    ctFloor (decodeStore cap ee) 3 = (decodeStore cap ee).ct4

/-- R162, R166: the range slopes and the CP slopes are exact. -/
def Obligations.ScaledSlopesExact : Prop :=
  ∀ (cap : Nat) (ee : Image),
    (∀ r : Fin 4,
      F32.isFinite ((decodeStore cap ee).ksTo.get r) = true ∧
      F32.toRat ((decodeStore cap ee).ksTo.get r) =
        (((ee (61 + r.val / 2)).extractLsb' (8 * (r.val % 2)) 8).toInt : Rat) /
          2 ^ (((ee 63).extractLsb' 0 4).toNat + 8)) ∧
    (F32.isFinite (decodeStore cap ee).kVCP = true ∧
      F32.toRat (decodeStore cap ee).kVCP =
        (((ee 59).extractLsb' 8 8).toInt : Rat) / 2 ^ ((ee 56).extractLsb' 8 4).toNat) ∧
    (F32.isFinite (decodeStore cap ee).kTaCP = true ∧
      F32.toRat (decodeStore cap ee).kTaCP =
        (((ee 59).extractLsb' 0 8).toInt : Rat) / 2 ^ (((ee 56).extractLsb' 4 4).toNat + 8))

/-- R163: the four values `Alpha_corr[0..3]` are the rule's expressions of `Ks_To`, CT3 and CT4, each
operation rounded on its own; the divisor of `Alpha_corr[0]` is never zero; and all four are finite. -/
def Obligations.AlphaCorrectionDefined : Prop :=
  ∀ (cap : Nat) (ee : Image),
    let st := decodeStore cap ee
    let one : F32 := 0x3F800000#32
    let divisor := F32.add one (F32.mul (st.ksTo.get 0) 0x42200000#32)
    st.alphaCorr.get 0 = F32.div one divisor ∧
    st.alphaCorr.get 1 = one ∧
    st.alphaCorr.get 2 = F32.add one (F32.mul (st.ksTo.get 1) (F32.ofInt st.ct3)) ∧
    st.alphaCorr.get 3 =
      F32.mul (st.alphaCorr.get 2)
        (F32.add one (F32.mul (st.ksTo.get 2) (F32.ofInt (st.ct4 - st.ct3)))) ∧
    F32.toRat divisor ≠ 0 ∧
    (∀ r, F32.isFinite (st.alphaCorr.get r) = true)

/-- R164, R165: the compensation-pixel pair; `a_CP_0` is exact and `a_CP_1` rounds once in the sum and
once in the product. -/
def Obligations.CompensationPairDecoded : Prop :=
  ∀ (cap : Nat) (ee : Image),
    F32.isFinite (decodeStore cap ee).aCP0 = true ∧
    F32.toRat (decodeStore cap ee).aCP0 =
      (((ee 57).extractLsb' 0 10).toInt : Rat) / 2 ^ (((ee 32).extractLsb' 12 4).toNat + 27) ∧
    (∃ q : F32, F32.isFinite q = true ∧
      F32.toRat q = (((ee 57).extractLsb' 10 6).toInt : Rat) / 128 ∧
      (decodeStore cap ee).aCP1 = F32.mul (F32.add F32.c1 q) (decodeStore cap ee).aCP0) ∧
    (decodeStore cap ee).offCP0 = ((ee 58).extractLsb' 0 10).toInt ∧
    -512 ≤ (decodeStore cap ee).offCP0 ∧ (decodeStore cap ee).offCP0 ≤ 511 ∧
    (decodeStore cap ee).offCP1 =
      (decodeStore cap ee).offCP0 + ((ee 58).extractLsb' 10 6).toInt ∧
    -544 ≤ (decodeStore cap ee).offCP1 ∧ (decodeStore cap ee).offCP1 ≤ 542

/-- R167, R168: `pix_os_ref[i]` is the exact composition of reference, row, column and remnant, and its
range. -/
def Obligations.PixelOffsetComposed : Prop :=
  ∀ (cap : Nat) (ee : Image) (i : Pixel),
    let row := i.val / 32
    let col := i.val % 32
    (decodeStore cap ee).pixOsRef.get i =
      (ee 17).toInt
        + ((ee (18 + row / 4)).extractLsb' (4 * (row % 4)) 4).toInt
            * 2 ^ ((ee 16).extractLsb' 8 4).toNat
        + ((ee (24 + col / 4)).extractLsb' (4 * (col % 4)) 4).toInt
            * 2 ^ ((ee 16).extractLsb' 4 4).toNat
        + ((ee (64 + i.val)).extractLsb' 10 6).toInt * 2 ^ ((ee 16).extractLsb' 0 4).toNat ∧
    -1605632 ≤ (decodeStore cap ee).pixOsRef.get i ∧ (decodeStore cap ee).pixOsRef.get i ≤ 1507327

/-- R169: `a[i]` is the composed integer over a power of two, exactly. -/
def Obligations.PixelSensitivityExact : Prop :=
  ∀ (cap : Nat) (ee : Image) (i : Pixel),
    let row := i.val / 32
    let col := i.val % 32
    let aInt : Int :=
      (ee 33).toNat
        + ((ee (34 + row / 4)).extractLsb' (4 * (row % 4)) 4).toInt
            * 2 ^ ((ee 32).extractLsb' 8 4).toNat
        + ((ee (40 + col / 4)).extractLsb' (4 * (col % 4)) 4).toInt
            * 2 ^ ((ee 32).extractLsb' 4 4).toNat
        + ((ee (64 + i.val)).extractLsb' 4 6).toInt * 2 ^ ((ee 32).extractLsb' 0 4).toNat
    (-1572864 ≤ aInt ∧ aInt ≤ 1540095) ∧
    F32.isFinite ((decodeStore cap ee).a.get i) = true ∧
    F32.toRat ((decodeStore cap ee).a.get i) =
      (aInt : Rat) / 2 ^ (((ee 32).extractLsb' 12 4).toNat + 30)

/-- R170, R18: `K_V[i]` is the value of the pixel's phase, and `K_Ta[i]` adds the pixel's remnant to it;
both are exact. -/
def Obligations.PhaseCoefficientsBroadcast : Prop :=
  ∀ (cap : Nat) (ee : Image) (i : Pixel),
    let row := i.val / 32
    let col := i.val % 32
    let kv : Int := ((ee 52).extractLsb' (12 - 8 * (col % 2) - 4 * (row % 2)) 4).toInt
    let rc : Int := ((ee (54 + col % 2)).extractLsb' (8 - 8 * (row % 2)) 8).toInt
    let ktaInt : Int :=
      rc + ((ee (64 + i.val)).extractLsb' 1 3).toInt * 2 ^ ((ee 56).extractLsb' 0 4).toNat
    (F32.isFinite ((decodeStore cap ee).kV.get i) = true ∧
      F32.toRat ((decodeStore cap ee).kV.get i) =
        (kv : Rat) / 2 ^ ((ee 56).extractLsb' 8 4).toNat) ∧
    (-131200 ≤ ktaInt ∧ ktaInt ≤ 98431) ∧
    (F32.isFinite ((decodeStore cap ee).kTa.get i) = true ∧
      F32.toRat ((decodeStore cap ee).kTa.get i) =
        (ktaInt : Rat) / 2 ^ (((ee 56).extractLsb' 4 4).toNat + 8))

/-- R171: the bad-pixel list is strictly increasing, holds only flagged pixels, at most BAD_CAP of them,
the lowest-indexed first; a flagged pixel is left out only when the list is full, and BAD_OVERFLOW says
that one was; a slot from BAD_COUNT on reads `0xFFFFFFFF`. -/
def Obligations.BadPixelListBuilt : Prop :=
  ∀ (cap : Nat) (ee : Image), 1 ≤ cap → cap ≤ 8 →
    let flag := fun i : Pixel => (ee (64 + i.val)).getLsbD 0
    let st := decodeStore cap ee
    st.badPixels.Pairwise (fun i j => i.val < j.val) ∧
    (∀ i ∈ st.badPixels, flag i = true) ∧
    st.badPixels.length ≤ cap ∧
    (∀ i, flag i = true → i ∉ st.badPixels →
      st.badPixels.length = cap ∧ ∀ j ∈ st.badPixels, j.val < i.val) ∧
    (decOverflow cap ee = true ↔ ∃ i, flag i = true ∧ i ∉ st.badPixels) ∧
    st.badCount = BitVec.ofNat 32 st.badPixels.length ∧
    (∀ k (h : k < st.badPixels.length), st.badIdx k = BitVec.ofNat 32 (st.badPixels[k]).val) ∧
    (∀ k, st.badPixels.length ≤ k → st.badIdx k = 0xFFFFFFFF#32)

/-- R172: the checkerboard pattern, the same for every image, is the parity of row and column. -/
def Obligations.CheckerboardPattern : Prop :=
  ∀ (cap : Nat) (ee : Image) (i : Pixel),
    ((decodeStore cap ee).pattern.get i).val = ((i.val / 32) ^^^ i.val) &&& 1 ∧
    ((decodeStore cap ee).pattern.get i).val = (i.val / 32 % 2) ^^^ (i.val % 32 % 2) ∧
    (((decodeStore cap ee).pattern.get i).val = 0 ↔ Pix.phase i = 0 ∨ Pix.phase i = 3)

/-- R109, U23: words 0 to 15, word 53, and bits 15:14 of words 56 and 63 have no effect on the store. -/
def Obligations.UnusedImageBitsHaveNoEffect : Prop :=
  ∀ (cap : Nat) (ee ee' : Image),
    (∀ k, 16 ≤ k → k < 832 → k ≠ 53 → k ≠ 56 → k ≠ 63 → ee k = ee' k) →
    (ee 56).extractLsb' 0 14 = (ee' 56).extractLsb' 0 14 →
    (ee 63).extractLsb' 0 14 = (ee' 63).extractLsb' 0 14 →
    decodeStore cap ee = decodeStore cap ee' ∧ decOverflow cap ee = decOverflow cap ee'

/-! ### MERGE's index sets -/

/-- R201: `SUB(0)` and `SUB(1)` have 384 distinct elements each, are disjoint, hold all 768 indices
together, and are the pixels whose pattern is the offset; in row 0, `SUB(0)` holds the even columns. -/
def Obligations.SubpagesInterleave : Prop :=
  (subIndices 0).length = 384 ∧ (subIndices 1).length = 384 ∧
  (subIndices 0).Nodup ∧ (subIndices 1).Nodup ∧
  (∀ i, i ∈ subIndices 0 → i ∉ subIndices 1) ∧
  (∀ i, i < 768 ↔ i ∈ subIndices 0 ∨ i ∈ subIndices 1) ∧
  (∀ (o : Nat) (i : Pixel), o < 2 → (i.val ∈ subIndices o ↔ (patternOf i).val = o)) ∧
  (∀ c, c < 32 → (c ∈ subIndices 0 ↔ c % 2 = 0))

/-! ### EVALUATE's stages -/

/-- R221, R122: for a resolution code of two bits, `resCorr` is exactly `2^Resolution / 2^RES_RAM`, a power
of two from 2^-3 to 2^3; bits 11:10 of AUX_CTRL are the only ones that act on the frame scalars. -/
def Obligations.ResolutionCorrectionExact : Prop :=
  ∀ (st : CalStore) (aux : AuxBank), st.resolution ≤ 3 →
    F32.isFinite (frameScalars st aux).resCorr = true ∧
    F32.toRat (frameScalars st aux).resCorr =
      2 ^ st.resolution / 2 ^ (aux.ctrl.extractLsb' 10 2).toNat ∧
    (∀ w : Half, w.extractLsb' 10 2 = aux.ctrl.extractLsb' 10 2 →
      frameScalars st { aux with ctrl := w } = frameScalars st aux)

/-- R222, R224: the supply voltage and the gain factor, and what they are when their divisor is zero.
`K_Vdd = 0` gives a NaN or an infinity, and a NaN when the dividend is zero too. `AUX_GAIN = 0` gives a NaN
or an infinity, a NaN when GAIN is 0, and `+∞` when GAIN is positive. R222 and R224 say only that such a
result is an infinity or a NaN, and R224 the NaN for `GAIN = 0`; the NaN of a zero over a zero in the supply
voltage and the sign of the infinity are IEEE 754's, which the model presumes (log 17). -/
def Obligations.VoltageAndGainScalars : Prop :=
  ∀ (st : CalStore) (aux : AuxBank),
    let fs := frameScalars st aux
    let num := F32.sub (F32.mul fs.resCorr (F32.ofInt aux.vdd.toInt)) (F32.ofInt st.vdd25)
    fs.vdd = F32.add (F32.div num (F32.ofInt st.kVdd)) F32.c3_3 ∧
    (st.kVdd = 0 → F32.isFinite fs.vdd = false ∧ (F32.mag num = 0 → F32.isNaN fs.vdd = true)) ∧
    fs.kGain = F32.div (F32.ofInt st.gain) (F32.ofInt aux.gain.toInt) ∧
    (aux.gain = 0#16 → F32.isFinite fs.kGain = false) ∧
    (aux.gain = 0#16 → st.gain = 0 → F32.isNaN fs.kGain = true) ∧
    (aux.gain = 0#16 → 0 < st.gain → st.gain ≤ 32767 → fs.kGain = F32.inf false)

/-- R223, R225, R226, R227: the ambient temperature, the two deltas, the compensation-pixel pair and the
reflected-temperature term are the expressions of the rules, each operation rounded on its own. -/
def Obligations.FrameScalarExpressions : Prop :=
  ∀ (st : CalStore) (aux : AuxBank),
    let fs := frameScalars st aux
    let toF := F32.ofInt
    let ptat := toF aux.ptat.toInt
    let vbe := toF aux.vbe.toInt
    let ptatArt :=
      F32.mul (F32.div ptat (F32.add (F32.mul ptat st.alphaPtat) vbe)) 0x48800000#32
    let trK := F32.add (F32.sub fs.ta 0x41000000#32) 0x43889333#32
    let taK := F32.add fs.ta 0x43889333#32
    let trK4 := F32.mul (F32.mul trK trK) (F32.mul trK trK)
    let taK4 := F32.mul (F32.mul taK taK) (F32.mul taK taK)
    let one : F32 := 0x3F800000#32
    let cp := fun (live : Half) (off : Int) =>
      F32.sub (F32.mul (toF live.toInt) fs.kGain)
        (F32.mul (F32.mul (toF off) (F32.add one (F32.mul st.kTaCP fs.dTa)))
          (F32.add one (F32.mul st.kVCP fs.dV)))
    fs.ta =
      F32.add
        (F32.div
          (F32.sub
            (F32.div ptatArt (F32.add one (F32.mul st.kVPtat (F32.sub fs.vdd 0x40533333#32))))
            (toF st.vPtat25))
          st.kTPtat)
        0x41C80000#32 ∧
    fs.dTa = F32.sub fs.ta 0x41C80000#32 ∧ fs.dV = F32.sub fs.vdd 0x40533333#32 ∧
    fs.cp0 = cp aux.cpSp0 st.offCP0 ∧ fs.cp1 = cp aux.cpSp1 st.offCP1 ∧
    fs.taR = F32.sub trK4 (F32.div (F32.sub trK4 taK4) one)

/-- R228, R229, R231, R232, R233, R235: the pre-repair temperature of a pixel is the chain of the rules'
expressions, each operation rounded on its own and taken in the order the rules write. -/
def Obligations.PixelStageExpressions : Prop :=
  ∀ (st : CalStore) (fs : FrameScalars) (raw : Half) (i : Pixel),
    let toF := F32.ofInt
    let one : F32 := 0x3F800000#32
    let k : F32 := 0x43889333#32
    let p := toF ((st.pattern.get i).val : Int)
    let pick := fun x0 x1 : F32 => F32.add (F32.mul (F32.sub one p) x0) (F32.mul p x1)
    let v5 := F32.mul (toF raw.toInt) fs.kGain
    let v6 :=
      F32.sub v5
        (F32.mul
          (F32.mul (toF (st.pixOsRef.get i)) (F32.add one (F32.mul (st.kTa.get i) fs.dTa)))
          (F32.add one (F32.mul (st.kV.get i) fs.dV)))
    let v9 := F32.sub (F32.div v6 one) (F32.mul st.tgc (pick fs.cp0 fs.cp1))
    let ac :=
      F32.mul (F32.sub (st.a.get i) (F32.mul st.tgc (pick st.aCP0 st.aCP1)))
        (F32.add one (F32.mul st.ksTa fs.dTa))
    let ac3 := F32.mul (F32.mul ac ac) ac
    let ac4 := F32.mul ac3 ac
    let sx :=
      F32.mul (st.ksTo.get 1)
        (F32.root4 (F32.add (F32.mul ac3 v9) (F32.mul ac4 fs.taR)))
    let t :=
      F32.sub
        (F32.root4
          (F32.add
            (F32.div v9 (F32.add (F32.mul ac (F32.sub one (F32.mul (st.ksTo.get 1) k))) sx))
            fs.taR))
        k
    let r := rangeOf st t
    pixelTemp st fs raw i =
      F32.sub
        (F32.root4
          (F32.add
            (F32.div v9
              (F32.mul (F32.mul ac (st.alphaCorr.get r))
                (F32.add one (F32.mul (st.ksTo.get r) (F32.sub t (toF (ctFloor st r)))))))
            fs.taR))
        k

/-- R230: the division by the emissivity returns every value that is not a NaN unchanged, and a NaN for a
NaN. -/
def Obligations.EmissivityDivisionIsIdentity : Prop :=
  ∀ v6 : F32,
    (F32.isNaN v6 = false → stV7 v6 = v6) ∧ (F32.isNaN v6 = true → F32.isNaN (stV7 v6) = true)

/-- R231, D44: the weighted choice. With both values finite it is the value the pattern picks, but for the
sign of a zero. A value that is not finite makes the result not finite, whether the pattern picks it or
not; one that is not picked makes it a NaN. -/
def Obligations.WeightedChoicePicksOne : Prop :=
  ∀ x0 x1 : F32,
    (F32.isFinite x0 = true → F32.isFinite x1 = true →
      F32.feq (weigh F32.c0 x0 x1) x0 = true ∧ F32.feq (weigh F32.c1 x0 x1) x1 = true ∧
      (F32.mag x0 ≠ 0 → weigh F32.c0 x0 x1 = x0) ∧ (F32.mag x1 ≠ 0 → weigh F32.c1 x0 x1 = x1)) ∧
    (F32.isFinite x1 = false → F32.isNaN (weigh F32.c0 x0 x1) = true) ∧
    (F32.isFinite x0 = false → F32.isNaN (weigh F32.c1 x0 x1) = true) ∧
    (F32.isFinite x0 = false → F32.isFinite (weigh F32.c0 x0 x1) = false) ∧
    (F32.isFinite x1 = false → F32.isFinite (weigh F32.c1 x0 x1) = false)

/-- R234: the range selection, with half-open ranges, for corner temperatures within R161's bounds. -/
def Obligations.RangeSelectionHalfOpen : Prop :=
  ∀ (st : CalStore) (t : F32), 0 ≤ st.ct3 → st.ct3 ≤ st.ct4 → st.ct4 ≤ 900 →
    (F32.isNaN t = true → rangeOf st t = 3) ∧
    (F32.isInf t = true → rangeOf st t = if F32.sign t then 0 else 3) ∧
    (F32.isFinite t = true →
      rangeOf st t =
        if F32.toRat t < 0 then 0
        else if F32.toRat t < (st.ct3 : Rat) then 1
        else if F32.toRat t < (st.ct4 : Rat) then 2
        else 3)

/-- R261, R263: the neighbours of a pixel in the order up, down, left, right, each where it exists, which
makes 4 inside, 3 at an edge and 2 at a corner; and the horizontal flip. -/
def Obligations.GridGeometry : Prop :=
  (∀ b : Pixel,
    let r := b.val / 32
    let c := b.val % 32
    (neighbours b).map (fun n => n.val) =
      (if 0 < r then [b.val - 32] else []) ++ (if r < 23 then [b.val + 32] else [])
        ++ (if 0 < c then [b.val - 1] else []) ++ (if c < 31 then [b.val + 1] else []) ∧
    (neighbours b).length =
      (if 0 < r ∧ r < 23 then 2 else 1) + (if 0 < c ∧ c < 31 then 2 else 1)) ∧
  (∀ (t : Grid F32) (y x : Nat) (hy : y < 24) (hx : x < 32),
    (flipGrid t).get ⟨y * 32 + x, by unfold nPix; omega⟩ =
      t.get ⟨y * 32 + (31 - x), by unfold nPix; omega⟩)

/-- R260, R262: repair in list order, in place. A pixel not listed keeps its value; a listed one gets the
mean of its neighbours as they stand when its turn comes, which for the later of two neighbouring listed
pixels are the repaired ones. With an empty list the grid stays as it is. -/
def Obligations.RepairInListOrder : Prop :=
  (∀ t : Grid F32, repair [] t = t) ∧
  ∀ (pre post : List Pixel) (b : Pixel) (t : Grid F32), (pre ++ b :: post).Nodup →
    (∀ i, i ∉ pre ++ b :: post → (repair (pre ++ b :: post) t).get i = t.get i) ∧
    (repair (pre ++ b :: post) t).get b =
      meanOf ((neighbours b).map (repair pre t).get) ∧
    (∀ v w, meanOf [v, w] = F32.div (F32.add v w) 0x40000000#32) ∧
    (∀ v w x, meanOf [v, w, x] = F32.div (F32.add (F32.add v w) x) 0x40400000#32) ∧
    (∀ v w x y, meanOf [v, w, x, y] =
      F32.div (F32.add (F32.add (F32.add v w) x) y) 0x40800000#32)

/-- R264: the scans. A NaN first entry is both results; otherwise neither result is a NaN, both are
entries, no entry lies below MIN or above MAX, and among equal values the first in scan order is kept. -/
def Obligations.MinMaxScan : Prop :=
  ∀ g : Grid F32,
    (F32.isNaN (g.get 0) = true → scanMin g = g.get 0 ∧ scanMax g = g.get 0) ∧
    (F32.isNaN (g.get 0) = false →
      (∃ j, scanMin g = g.get j ∧ F32.isNaN (g.get j) = false ∧
        (∀ i, F32.lt (g.get i) (g.get j) = false) ∧
        (∀ i, i.val < j.val → F32.isNaN (g.get i) = false → F32.lt (g.get j) (g.get i) = true)) ∧
      (∃ j, scanMax g = g.get j ∧ F32.isNaN (g.get j) = false ∧
        (∀ i, F32.lt (g.get j) (g.get i) = false) ∧
        (∀ i, i.val < j.val → F32.isNaN (g.get i) = false → F32.lt (g.get i) (g.get j) = true)))

/-- R265, R15: NONFINITE says that some entry of the grid is a NaN or an infinity, which is the case exactly
when some TEMP word, MIN_TEMP or MAX_TEMP is. A computed value that is not a NaN reaches its TEMP word
unchanged, and a NaN reaches it as some quiet NaN, whatever sign and payload the draw gives it. -/
def Obligations.NonfiniteFlagMatchesOutputs : Prop :=
  ∀ (draws : Nat) (fs : FrameScalars) (g : Grid F32),
    let o := outputsOf draws fs g
    (anyNonfinite g = true ↔ ∃ i, F32.isFinite (g.get i) = false) ∧
    (anyNonfinite g = true ↔
      (∃ i, F32.isFinite (o.temp.get i) = false) ∨
        F32.isFinite o.minTemp = false ∨ F32.isFinite o.maxTemp = false) ∧
    (∀ i, F32.isNaN (g.get i) = false → o.temp.get i = g.get i) ∧
    (∀ i, F32.isNaN (g.get i) = true →
      F32.isNaN (o.temp.get i) = true ∧ (o.temp.get i).getLsbD 22 = true)

/-! ### Arithmetic -/

/-- R10: addition, subtraction, multiplication and division of finite values give the exact result
correctly rounded, to nearest with ties to even. The rest is what IEEE 754 says and R10 does not spell out,
which the model presumes (log 17): the sign of an exact zero sum, of a product and of a quotient, and the
results for a zero divisor and for infinite operands. -/
def Obligations.ArithmeticCorrectlyRounded : Prop :=
  ∀ x y : F32,
    let sg := F32.sign x != F32.sign y
    (F32.isFinite x = true → F32.isFinite y = true →
      F32.Rounds (F32.toRat x + F32.toRat y) (F32.add x y) ∧
      F32.Rounds (F32.toRat x - F32.toRat y) (F32.sub x y) ∧
      F32.Rounds (F32.toRat x * F32.toRat y) (F32.mul x y) ∧
      (F32.toRat y ≠ 0 → F32.Rounds (F32.toRat x / F32.toRat y) (F32.div x y)) ∧
      (F32.toRat x + F32.toRat y = 0 → F32.add x y = F32.zero (F32.sign x && F32.sign y)) ∧
      F32.sign (F32.mul x y) = sg ∧
      (F32.toRat y ≠ 0 → F32.sign (F32.div x y) = sg) ∧
      (F32.toRat y = 0 → F32.toRat x ≠ 0 → F32.div x y = F32.inf sg) ∧
      (F32.toRat y = 0 → F32.toRat x = 0 → F32.isNaN (F32.div x y) = true)) ∧
    (F32.isInf x = true → F32.isFinite y = true →
      F32.add x y = x ∧ F32.add y x = x ∧ F32.sub x y = x ∧ F32.sub y x = F32.neg x ∧
      (F32.toRat y ≠ 0 → F32.mul x y = F32.inf sg ∧ F32.mul y x = F32.inf sg) ∧
      (F32.toRat y = 0 → F32.isNaN (F32.mul x y) = true ∧ F32.isNaN (F32.mul y x) = true) ∧
      F32.div x y = F32.inf sg ∧ F32.div y x = F32.zero sg) ∧
    (F32.isInf x = true → F32.isInf y = true →
      (sg = false → F32.add x y = x ∧ F32.isNaN (F32.sub x y) = true) ∧
      (sg = true → F32.isNaN (F32.add x y) = true ∧ F32.sub x y = x) ∧
      F32.mul x y = F32.inf sg ∧ F32.isNaN (F32.div x y) = true)

/-- R13: the square root is correctly rounded, and its special cases; the fourth root is the square root
of the square root. -/
def Obligations.SquareRootCorrectlyRounded : Prop :=
  (∀ x : F32, F32.isFinite x = true → 0 ≤ F32.toRat x →
    F32.RootRounds (F32.toRat x) (F32.sqrt x)) ∧
  F32.sqrt 0x80000000#32 = 0x80000000#32 ∧ F32.sqrt 0x7F800000#32 = 0x7F800000#32 ∧
  (∀ x, F32.isNaN x = true → F32.isNaN (F32.sqrt x) = true) ∧
  (∀ x, F32.lt x F32.c0 = true → F32.isNaN (F32.sqrt x) = true) ∧
  (∀ x, F32.root4 x = F32.sqrt (F32.sqrt x))

/-- R12, R14: the conversion of an integer of magnitude at most 2^24 is exact, `pow2 n` is 2^n, and the
decimal constants have the exact values of R14's table. -/
def Obligations.ConversionsExact : Prop :=
  (∀ n : Int, -(2 ^ 24) ≤ n → n ≤ 2 ^ 24 →
    F32.isFinite (F32.ofInt n) = true ∧ F32.toRat (F32.ofInt n) = (n : Rat)) ∧
  (∀ n : Nat, n ≤ 127 → F32.isFinite (F32.pow2 n) = true ∧ F32.toRat (F32.pow2 n) = 2 ^ n) ∧
  F32.toRat F32.c1 = 1 ∧
  F32.toRat F32.c3_3 = 32999999523162841796875 / 10 ^ 22 ∧
  F32.toRat F32.c8 = 8 ∧ F32.toRat F32.c25 = 25 ∧ F32.toRat F32.c40 = 40 ∧
  F32.toRat F32.c273_15 = 273149993896484375 / 10 ^ 15 ∧
  F32.toRat F32.emissivity = 1

/-- R15: the comparisons are those of the values, with `-∞` below and `+∞` above every finite value and each
equal to itself alone; a NaN operand makes each of them false, and the two zeros are equal. -/
def Obligations.ComparisonsAreIeee : Prop :=
  (∀ x y : F32, F32.isNaN x = true ∨ F32.isNaN y = true →
    F32.lt x y = false ∧ F32.feq x y = false) ∧
  (∀ x y : F32, F32.isFinite x = true → F32.isFinite y = true →
    (F32.lt x y = true ↔ F32.toRat x < F32.toRat y) ∧
    (F32.feq x y = true ↔ F32.toRat x = F32.toRat y)) ∧
  (∀ x : F32, F32.isFinite x = true →
    F32.lt x (F32.inf false) = true ∧ F32.lt (F32.inf true) x = true ∧
    F32.lt (F32.inf false) x = false ∧ F32.lt x (F32.inf true) = false ∧
    ∀ b, F32.feq x (F32.inf b) = false ∧ F32.feq (F32.inf b) x = false) ∧
  (∀ b c, F32.lt (F32.inf b) (F32.inf c) = (b && !c) ∧ F32.feq (F32.inf b) (F32.inf c) = (b == c)) ∧
  (∀ x : F32, F32.isInf x = true → x = F32.inf (F32.sign x)) ∧
  F32.feq 0x80000000#32 0x00000000#32 = true

/-- R15: no operation looks into a NaN. A NaN operand makes the result a NaN, and no result depends on a
NaN's sign or payload. R15 leaves the sign and payload of each NaN an operation produces free; that the
results for two different NaN operands are equal bit by bit is the model's choice, since one fixed NaN
stands for every NaN inside the pipeline until a word becomes visible (log 4). -/
def Obligations.NanPayloadNeverRead : Prop :=
  ∀ x x' y : F32, F32.isNaN x = true → F32.isNaN x' = true →
    (F32.isNaN (F32.add x y) = true ∧ F32.isNaN (F32.add y x) = true ∧
      F32.isNaN (F32.sub x y) = true ∧ F32.isNaN (F32.sub y x) = true ∧
      F32.isNaN (F32.mul x y) = true ∧ F32.isNaN (F32.mul y x) = true ∧
      F32.isNaN (F32.div x y) = true ∧ F32.isNaN (F32.div y x) = true) ∧
    (F32.add x y = F32.add x' y ∧ F32.add y x = F32.add y x' ∧
      F32.sub x y = F32.sub x' y ∧ F32.sub y x = F32.sub y x' ∧
      F32.mul x y = F32.mul x' y ∧ F32.mul y x = F32.mul y x' ∧
      F32.div x y = F32.div x' y ∧ F32.div y x = F32.div y x' ∧
      F32.sqrt x = F32.sqrt x' ∧ F32.lt x y = F32.lt x' y ∧ F32.lt y x = F32.lt y x')

/-! ### The host port -/

/-- R34, R300: STATUS is made of its fields at the positions of the table, bits 31:16 read as 0, and an
error code above 6 is never produced. -/
def Obligations.StatusWordLayout : Prop :=
  ∀ t : Status,
    t.word.getLsbD 0 = t.busy ∧ t.word.getLsbD 1 = t.calValid ∧ t.word.getLsbD 2 = t.outValid ∧
    t.word.getLsbD 3 = t.merged0 ∧ t.word.getLsbD 4 = t.merged1 ∧
    t.word.getLsbD 5 = t.badOverflow ∧ t.word.getLsbD 6 = t.nonfinite ∧
    t.word.getLsbD 7 = t.writeWhileBusy ∧ t.word.extractLsb' 8 4 = t.err.code ∧
    t.word.extractLsb' 12 4 = t.lastOp ∧ t.word.extractLsb' 16 16 = 0#16 ∧
    t.err.code.toNat ≤ 6

/-- R71: where the map puts every location, with the AUX register, the `EV_*` register and the calibration
scalar of every address by name, and that every other address is reserved. -/
def Obligations.AddressMap : Prop :=
  ∀ a : Addr,
    let n := a.toNat
    (n = 0x0000 → locate a = .id) ∧ (n = 0x0001 → locate a = .cmd) ∧
    (n = 0x0002 → locate a = .status) ∧
    (n = 0x0020 → locate a = .minTemp) ∧ (n = 0x0021 → locate a = .maxTemp) ∧
    (n = 0x0022 → locate a = .badCount) ∧
    (∀ p ∈ ([(0x0010, .aux .vbe), (0x0011, .aux .cpSp0), (0x0012, .aux .gain),
        (0x0013, .aux .ptat), (0x0014, .aux .cpSp1), (0x0015, .aux .vdd), (0x0016, .aux .ctrl),
        (0x0030, .ev .resCorr), (0x0031, .ev .vdd), (0x0032, .ev .ta), (0x0033, .ev .kGain),
        (0x0034, .ev .cp0), (0x0035, .ev .cp1), (0x0036, .ev .taR),
        (0x0040, .cal .kVdd), (0x0041, .cal .vdd25), (0x0042, .cal .kVPtat), (0x0043, .cal .kTPtat),
        (0x0044, .cal .vPtat25), (0x0045, .cal .alphaPtat), (0x0046, .cal .gain),
        (0x0047, .cal .ksTa), (0x0048, .cal .ct3), (0x0049, .cal .ct4), (0x004A, .cal .tgc),
        (0x004B, .cal .resolution), (0x004C, .cal .aCP0), (0x004D, .cal .aCP1),
        (0x004E, .cal .offCP0), (0x004F, .cal .offCP1), (0x0050, .cal .kVCP), (0x0051, .cal .kTaCP),
        (0x0052, .cal (.ksTo 0)), (0x0053, .cal (.ksTo 1)), (0x0054, .cal (.ksTo 2)),
        (0x0055, .cal (.ksTo 3)), (0x0056, .cal (.alphaCorr 0)), (0x0057, .cal (.alphaCorr 1)),
        (0x0058, .cal (.alphaCorr 2)), (0x0059, .cal (.alphaCorr 3))] : List (Nat × Loc)),
      n = p.1 → locate a = p.2) ∧
    (0x0028 ≤ n ∧ n ≤ 0x002F → locate a = .badIdx (n - 0x0028)) ∧
    (0x0400 ≤ n ∧ n ≤ 0x073F → locate a = .ee (n - 0x0400)) ∧
    (0x0800 ≤ n ∧ n ≤ 0x0AFF → ∃ i : Pixel, locate a = .pix i ∧ n = 0x0800 + i.val) ∧
    (0x0C00 ≤ n ∧ n ≤ 0x0EFF → ∃ i : Pixel, locate a = .raw i ∧ n = 0x0C00 + i.val) ∧
    (0x1000 ≤ n ∧ n ≤ 0x12FF → ∃ i : Pixel, locate a = .temp i ∧ n = 0x1000 + i.val) ∧
    (0x1400 ≤ n ∧ n ≤ 0x16FF → ∃ i : Pixel, locate a = .pixOsRef i ∧ n = 0x1400 + i.val) ∧
    (0x1800 ≤ n ∧ n ≤ 0x1AFF → ∃ i : Pixel, locate a = .a i ∧ n = 0x1800 + i.val) ∧
    (0x1C00 ≤ n ∧ n ≤ 0x1EFF → ∃ i : Pixel, locate a = .kV i ∧ n = 0x1C00 + i.val) ∧
    (0x2000 ≤ n ∧ n ≤ 0x22FF → ∃ i : Pixel, locate a = .kTa i ∧ n = 0x2000 + i.val) ∧
    (0x2400 ≤ n ∧ n ≤ 0x26FF → ∃ i : Pixel, locate a = .pattern i ∧ n = 0x2400 + i.val) ∧
    ((0x0003 ≤ n ∧ n ≤ 0x000F) ∨ (0x0017 ≤ n ∧ n ≤ 0x001F) ∨ (0x0023 ≤ n ∧ n ≤ 0x0027) ∨
        (0x0037 ≤ n ∧ n ≤ 0x003F) ∨ (0x005A ≤ n ∧ n ≤ 0x03FF) ∨ (0x0740 ≤ n ∧ n ≤ 0x07FF) ∨
        (0x0B00 ≤ n ∧ n ≤ 0x0BFF) ∨ (0x0F00 ≤ n ∧ n ≤ 0x0FFF) ∨ (0x1300 ≤ n ∧ n ≤ 0x13FF) ∨
        (0x1700 ≤ n ∧ n ≤ 0x17FF) ∨ (0x1B00 ≤ n ∧ n ≤ 0x1BFF) ∨ (0x1F00 ≤ n ∧ n ≤ 0x1FFF) ∨
        (0x2300 ≤ n ∧ n ≤ 0x23FF) ∨ 0x2700 ≤ n →
      locate a = .reserved)

/-- R72, R73: with BUSY 0, reserved addresses and CMD read 0, and a write to a reserved address or to a
location the host may only read is ignored and sets no flag. -/
def Obligations.ReservedAndReadOnlyAddresses : Prop :=
  ∀ (s : State) (a : Addr) (v : Word), s.status.busy = false →
    (locate a = .reserved → s.peek a = some 0#32) ∧
    s.peek 0x0001#16 = some 0#32 ∧
    ((∀ r, locate a ≠ .aux r) → (∀ k, locate a ≠ .ee k) → (∀ i, locate a ≠ .pix i) →
      locate a ≠ .cmd → writePort a v s = .next s)

/-- R74, R81, R52 to R54: with BUSY 0, a write to an AUX, EE or PIX location stores bits 15:0 and sets the
location's valid bit, so that it then reads back zero-extended; every other address reads as before, and
the same write again changes nothing further. -/
def Obligations.InputLocationsHoldLowHalf : Prop :=
  ∀ (s : State) (a : Addr) (v : Word), s.status.busy = false →
    ((∃ r, locate a = .aux r) ∨ (0x0400 ≤ a.toNat ∧ a.toNat ≤ 0x073F) ∨
      (0x0800 ≤ a.toNat ∧ a.toNat ≤ 0x0AFF)) →
    ∃ t, writePort a v s = .next t ∧
      t.peek a = some (0#16 ++ v.extractLsb' 0 16) ∧
      (∀ b, b ≠ a → t.peek b = s.peek b) ∧
      t.status = s.status ∧ t.store = s.store ∧ t.out = s.out ∧ t.pending = s.pending ∧
      writePort a v t = .next t

/-- R75, R81, R107, R108: the four kinds of read, `RD a`, `RD a -> name`, `EXPECT a, v` and one round of
`POLL`, which reads STATUS. Each returns the location's contents, or a draw where R75 makes it one, and
changes no state of the block; only the host's record and the count of draws move, which are the model's own
(logs 3 and 9), and a pending command comes one event nearer to its completion (log 2). `RD a -> name` binds
the name to the value read, `EXPECT` passes only if the value is `v`, a round of POLL stays the next event
while the BUSY it reads is 1, and the reads other than `RD a -> name` bind no name (log 9). -/
def Obligations.ReadsChangeNoBlockState : Prop :=
  ∀ (s : State) (es : List HostEvent), s.engineDue = false →
    let reads := fun (a : Addr) (w : Word) (t : State) =>
      (∀ x, s.peek a = some x → w = x ∧ t.draws = s.draws) ∧
      (s.peek a = none → w = Config.readDraw s.draws ∧ t.draws = s.draws + 1) ∧
      t.host.trace = (a, w) :: s.host.trace ∧
      s.SameBlock t ∧ t.status = s.status ∧ t.delays = s.delays ∧
      t.busyLeft = if s.status.busy then s.busyLeft - 1 else s.busyLeft
    (∀ a, s.host.inputs = .rd a :: es →
      ∃ t w, step s = .next t ∧ reads a w t ∧ t.host.inputs = es ∧
        t.host.bindings = s.host.bindings ∧ t.host.testPass = s.host.testPass) ∧
    (∀ a name, s.host.inputs = .rdTo a name :: es →
      ∃ t w, step s = .next t ∧ reads a w t ∧ t.host.inputs = es ∧
        t.host.bindings = (name, w) :: s.host.bindings ∧ t.host.testPass = s.host.testPass) ∧
    (∀ a v, s.host.inputs = .expect a v :: es →
      ∃ t w, step s = .next t ∧ reads a w t ∧ t.host.inputs = es ∧
        t.host.bindings = s.host.bindings ∧
        (t.host.testPass = true ↔ s.host.testPass = true ∧ w = v)) ∧
    (s.host.inputs = .poll :: es →
      ∃ t, step s = .next t ∧ reads 0x0002#16 s.status.word t ∧
        t.host.inputs = (if s.status.busy then .poll :: es else es) ∧
        t.host.bindings = s.host.bindings ∧ t.host.testPass = s.host.testPass)

/-- R32, R34, R44 to R50, R75, R77: with BUSY 0, which piece of state every readable address shows once its
valid bit is 1, in its format, and that it is a draw while the bit is 0; ID and STATUS always read their
values. -/
def Obligations.ReadbackShowsState : Prop :=
  ∀ s : State, s.status.busy = false →
    (s.status.calValid = true →
      let int := fun n : Int => some (BitVec.ofInt 32 n)
      s.peek 0x0040#16 = int s.store.kVdd ∧ s.peek 0x0041#16 = int s.store.vdd25 ∧
      s.peek 0x0042#16 = some s.store.kVPtat ∧ s.peek 0x0043#16 = some s.store.kTPtat ∧
      s.peek 0x0044#16 = int s.store.vPtat25 ∧ s.peek 0x0045#16 = some s.store.alphaPtat ∧
      s.peek 0x0046#16 = int s.store.gain ∧ s.peek 0x0047#16 = some s.store.ksTa ∧
      s.peek 0x0048#16 = int s.store.ct3 ∧ s.peek 0x0049#16 = int s.store.ct4 ∧
      s.peek 0x004A#16 = some s.store.tgc ∧ s.peek 0x004B#16 = int s.store.resolution ∧
      s.peek 0x004C#16 = some s.store.aCP0 ∧ s.peek 0x004D#16 = some s.store.aCP1 ∧
      s.peek 0x004E#16 = int s.store.offCP0 ∧ s.peek 0x004F#16 = int s.store.offCP1 ∧
      s.peek 0x0050#16 = some s.store.kVCP ∧ s.peek 0x0051#16 = some s.store.kTaCP ∧
      (∀ r : Fin 4, s.peek (BitVec.ofNat 16 (0x0052 + r.val)) = some (s.store.ksTo.get r)) ∧
      (∀ r : Fin 4, s.peek (BitVec.ofNat 16 (0x0056 + r.val)) = some (s.store.alphaCorr.get r)) ∧
      s.peek 0x0022#16 = int s.store.badPixels.length ∧
      (∀ k, k < 8 → s.peek (BitVec.ofNat 16 (0x0028 + k)) = some (s.store.badIdx k)) ∧
      (∀ i : Pixel,
        s.peek (BitVec.ofNat 16 (0x1400 + i.val)) = int (s.store.pixOsRef.get i) ∧
        s.peek (BitVec.ofNat 16 (0x1800 + i.val)) = some (s.store.a.get i) ∧
        s.peek (BitVec.ofNat 16 (0x1C00 + i.val)) = some (s.store.kV.get i) ∧
        s.peek (BitVec.ofNat 16 (0x2000 + i.val)) = some (s.store.kTa.get i) ∧
        s.peek (BitVec.ofNat 16 (0x2400 + i.val)) = int (s.store.pattern.get i).val)) ∧
    (s.status.outValid = true →
      s.peek 0x0020#16 = some s.out.minTemp ∧ s.peek 0x0021#16 = some s.out.maxTemp ∧
      s.peek 0x0030#16 = some s.out.evResCorr ∧ s.peek 0x0031#16 = some s.out.evVdd ∧
      s.peek 0x0032#16 = some s.out.evTa ∧ s.peek 0x0033#16 = some s.out.evKGain ∧
      s.peek 0x0034#16 = some s.out.evCP0 ∧ s.peek 0x0035#16 = some s.out.evCP1 ∧
      s.peek 0x0036#16 = some s.out.evTaR ∧
      (∀ i : Pixel, s.peek (BitVec.ofNat 16 (0x1000 + i.val)) = some (s.out.temp.get i))) ∧
    ((s.auxValid.vbe = true → s.peek 0x0010#16 = some (0#16 ++ s.aux.vbe)) ∧
      (s.auxValid.cpSp0 = true → s.peek 0x0011#16 = some (0#16 ++ s.aux.cpSp0)) ∧
      (s.auxValid.gain = true → s.peek 0x0012#16 = some (0#16 ++ s.aux.gain)) ∧
      (s.auxValid.ptat = true → s.peek 0x0013#16 = some (0#16 ++ s.aux.ptat)) ∧
      (s.auxValid.cpSp1 = true → s.peek 0x0014#16 = some (0#16 ++ s.aux.cpSp1)) ∧
      (s.auxValid.vdd = true → s.peek 0x0015#16 = some (0#16 ++ s.aux.vdd)) ∧
      (s.auxValid.ctrl = true → s.peek 0x0016#16 = some (0#16 ++ s.aux.ctrl))) ∧
    (s.peek 0x0000#16 = some 0x54430001#32 ∧ s.peek 0x0002#16 = some s.status.word) ∧
    (∀ k, k < 832 →
      (s.eeValid k = true → s.peek (BitVec.ofNat 16 (0x0400 + k)) = some (0#16 ++ s.ee k)) ∧
      (s.eeValid k = false → s.peek (BitVec.ofNat 16 (0x0400 + k)) = none)) ∧
    (∀ i : Pixel,
      (s.pixValid i.val = true →
        s.peek (BitVec.ofNat 16 (0x0800 + i.val)) = some (0#16 ++ s.pix i.val)) ∧
      (s.pixValid i.val = false → s.peek (BitVec.ofNat 16 (0x0800 + i.val)) = none) ∧
      (s.rawMerged i.val = true →
        s.peek (BitVec.ofNat 16 (0x0C00 + i.val)) = some (0#16 ++ s.raw i.val)) ∧
      (s.rawMerged i.val = false → s.peek (BitVec.ofNat 16 (0x0C00 + i.val)) = none)) ∧
    (∀ i : Pixel, s.peek (BitVec.ofNat 16 (0x0C00 + i.val)) =
      (s.mem.lookup (0x0C00 + i.val)).map fun w => 0#16 ++ w) ∧
    (s.status.calValid = false → ∀ a : Addr,
      (a = 0x0022#16 ∨ (0x0028 ≤ a.toNat ∧ a.toNat ≤ 0x002F) ∨
        (0x0040 ≤ a.toNat ∧ a.toNat ≤ 0x0059) ∨
        (0x1400 ≤ a.toNat ∧ a.toNat < 0x2700 ∧ a.toNat % 0x0400 < 768)) →
      s.peek a = none) ∧
    (s.status.outValid = false → ∀ a : Addr,
      (a = 0x0020#16 ∨ a = 0x0021#16 ∨ (0x0030 ≤ a.toNat ∧ a.toNat ≤ 0x0036) ∨
        (0x1000 ≤ a.toNat ∧ a.toNat ≤ 0x12FF)) →
      s.peek a = none) ∧
    (∀ r a, locate a = .aux r → s.auxValid.get r = false → s.peek a = none)

/-! ### The whole machine -/

/-- R332, R333: right after reset the block is idle, STATUS reads 0, no valid bit is set, ID reads its
constant, and every location the reset leaves unspecified reads as a draw. That `BAD_CAP` stands at R6's
default there is the model's choice (log 5). -/
def Obligations.ResetLeavesBlockIdle : Prop :=
  State.reset.status.word = 0x00000000#32 ∧ State.reset.engineDue = false ∧
  State.reset.peek 0x0000#16 = some 0x54430001#32 ∧
  (∀ k, State.reset.eeValid k = false) ∧ (∀ i, State.reset.pixValid i = false) ∧
  (∀ r, State.reset.auxValid.get r = false) ∧
  (∀ a, locate a ≠ .id → locate a ≠ .cmd → locate a ≠ .status → locate a ≠ .reserved →
    State.reset.peek a = none) ∧
  State.reset.badCap = 4

/-- R330, R331: the reset input, whenever it is the next event, resets the block at any time, also while
BUSY is 1: STATUS is 0, every valid bit is 0 and the pending command never completes. -/
def Obligations.HardResetAtAnyTime : Prop :=
  ∀ (s : State) (es : List HostEvent), s.engineDue = false → s.host.inputs = .hardReset :: es →
    ∃ t, step s = .next t ∧ t.status.word = 0x00000000#32 ∧ t.engineDue = false ∧
      (∀ k, t.eeValid k = false) ∧ (∀ i, t.pixValid i = false) ∧ (∀ i, t.rawMerged i = false) ∧
      (∀ r, t.auxValid.get r = false) ∧ t.host.inputs = es

/-- The invariant holds right after reset. -/
def Obligations.ResetMeetsInvariant : Prop := State.reset.Inv

/-- Every step keeps the invariant. -/
def Obligations.StepKeepsInvariant : Prop :=
  ∀ s t : State, s.Inv → step s = .next t → t.Inv

/-- R70, R307, R316, R345: every step answers a next state: no transaction fails and no command traps; with
no event to come and nothing pending, it changes nothing; and a pending command that no event resets
completes after exactly as many events as its duration says (log 2; the completion comes before what waits
then, log 15), whatever those events are: they end in
a state with the same inputs, targets and PENDING, the next step is the completion of PENDING at that
state, and BUSY is then 0. -/
def Obligations.EveryStepAnswers : Prop :=
  (∀ s : State, ∃ t, step s = .next t) ∧
  (∀ s : State, s.status.busy = false → s.host.inputs = [] → step s = .next s) ∧
  (∀ s : State, s.status.busy = true → (∀ e ∈ s.host.inputs.take s.busyLeft, ¬ resets e) →
    ∃ u : State, core.run s.busyLeft s = .next u ∧ u.engineDue = true ∧ s.SameBlock u ∧
      core.run (s.busyLeft + 1) s = .next (completePending u) ∧
      (completePending u).status.busy = false)

/-- R45, R51, R266: a step changes the calibration store only when it is the completion of a pending
DECODE, and then the whole store is the one decoded from EE and CAL_VALID is 1; a step changes the output
set only when it is the completion of a pending EVALUATE, and then OUT_VALID is 1 and both MERGED bits are
0. That no reset changes either of them is the model's choice, where R330 leaves both unspecified after a
reset and R266 keeps the output set only until the next EVALUATE or a reset (log 8); that the completion is
due at `busyLeft` 0 is the model's own count (log 2). -/
def Obligations.StoreAndOutputHaveOneWriter : Prop :=
  ∀ s t : State, step s = .next t →
    (t.store ≠ s.store →
      s.status.busy = true ∧ s.busyLeft = 0 ∧ s.pending = 0x00000001#32 ∧
        t.store = decodeStore s.badCap s.ee ∧ t.status.calValid = true) ∧
    (t.out ≠ s.out →
      s.status.busy = true ∧ s.busyLeft = 0 ∧ s.pending = 0x00000003#32 ∧
        t.status.outValid = true ∧ t.status.merged0 = false ∧ t.status.merged1 = false)

/-- R36, R37, R330, R331: CAL_VALID and OUT_VALID fall only in a step whose event is the reset input or the
write of `0x0000000F`, SOFT_RESET, to CMD, and STATUS is then what that reset leaves, with no EE word
valid. -/
def Obligations.ValidFlagsFallOnlyByReset : Prop :=
  ∀ s t : State, step s = .next t →
    ((s.status.calValid = true ∧ t.status.calValid = false) ∨
      (s.status.outValid = true ∧ t.status.outValid = false)) →
    s.engineDue = false ∧
    ((s.host.inputs.head? = some .hardReset ∧ t.status.word = 0x00000000#32) ∨
      (s.host.inputs.head? = some (.wr 0x0001#16 0x0000000F#32) ∧ t.status.word = 0x0000F000#32)) ∧
    t.mem = [] ∧ t.status.busy = false

/-- R82, R83: while a command stays pending, its inputs and targets do not change: a step from BUSY 1 to
BUSY 1 keeps EE, PIX, RAW, AUX, their valid bits, the store, the output set, PENDING and BAD_CAP, and every
STATUS field but WRITE_WHILE_BUSY. No step at all changes BAD_CAP, a parameter of R6 (log 5). -/
def Obligations.PendingCommandSeesFrozenInputs : Prop :=
  (∀ s t : State, s.status.busy = true → step s = .next t → t.status.busy = true →
    s.SameBlock t ∧
      { t.status with writeWhileBusy := false } = { s.status with writeWhileBusy := false }) ∧
  (∀ s t : State, step s = .next t → t.badCap = s.badCap)

/-- R84, R108, R345: a POLL ends. From any state whose next host event is POLL, after at most two steps
more than the pending command's remaining duration (logs 2 and 15) the POLL is done, BUSY is 0, and the events
behind it are next. -/
def Obligations.PollTerminates : Prop :=
  ∀ (s : State) (es : List HostEvent), s.host.inputs = .poll :: es →
    ∃ (n : Nat) (t : State), n ≤ s.busyLeft + 2 ∧ core.run n s = .next t ∧ t.host.inputs = es ∧
      t.status.busy = false
end

