-- ==== Sys2Proof/Laws/AddressMap.lean ====
section
/-! SUPPORT. The address map read backwards: which addresses name a location. -/

namespace Sys2Proof.Machine

/-- An offset lies in a window of 768 words exactly when it is the window's base plus a pixel index. -/
theorem pixelIn_eq_some {base n : Nat} {i : Pixel} : pixelIn base n = some i ↔ n = base + i.val := by
  unfold pixelIn
  have hi := i.isLt
  split
  · rename_i h
    rw [Option.some_inj, Fin.ext_iff]
    dsimp only
    omega
  · rename_i h
    refine ⟨nofun, fun e => absurd ?_ h⟩
    omega

theorem pixelIn_eq_none {base n : Nat} : pixelIn base n = none ↔ n < base ∨ base + 768 ≤ n := by
  unfold pixelIn nPix
  split <;> simp <;> omega

/-- The windows of the map, as one chain of ranges. -/
theorem pixelWindow_spec (n : Nat) :
    (∃ i : Pixel, n = 0x0800 + i.val ∧ pixelWindow n = .pix i) ∨
    (∃ i : Pixel, n = 0x0C00 + i.val ∧ pixelWindow n = .raw i) ∨
    (∃ i : Pixel, n = 0x1000 + i.val ∧ pixelWindow n = .temp i) ∨
    (∃ i : Pixel, n = 0x1400 + i.val ∧ pixelWindow n = .pixOsRef i) ∨
    (∃ i : Pixel, n = 0x1800 + i.val ∧ pixelWindow n = .a i) ∨
    (∃ i : Pixel, n = 0x1C00 + i.val ∧ pixelWindow n = .kV i) ∨
    (∃ i : Pixel, n = 0x2000 + i.val ∧ pixelWindow n = .kTa i) ∨
    (∃ i : Pixel, n = 0x2400 + i.val ∧ pixelWindow n = .pattern i) ∨
    (pixelWindow n = .reserved ∧
      ∀ w, w ∈ [0x0800, 0x0C00, 0x1000, 0x1400, 0x1800, 0x1C00, 0x2000, 0x2400] →
        n < w ∨ w + 768 ≤ n) := by
  unfold pixelWindow pixBase rawBase
  split
  · exact .inl ⟨_, pixelIn_eq_some.mp ‹_›, rfl⟩
  split
  · exact .inr (.inl ⟨_, pixelIn_eq_some.mp ‹_›, rfl⟩)
  split
  · exact .inr (.inr (.inl ⟨_, pixelIn_eq_some.mp ‹_›, rfl⟩))
  split
  · exact .inr (.inr (.inr (.inl ⟨_, pixelIn_eq_some.mp ‹_›, rfl⟩)))
  split
  · exact .inr (.inr (.inr (.inr (.inl ⟨_, pixelIn_eq_some.mp ‹_›, rfl⟩))))
  split
  · exact .inr (.inr (.inr (.inr (.inr (.inl ⟨_, pixelIn_eq_some.mp ‹_›, rfl⟩)))))
  split
  · exact .inr (.inr (.inr (.inr (.inr (.inr (.inl ⟨_, pixelIn_eq_some.mp ‹_›, rfl⟩))))))
  split
  · exact .inr (.inr (.inr (.inr (.inr (.inr (.inr (.inl ⟨_, pixelIn_eq_some.mp ‹_›, rfl⟩)))))))
  refine .inr (.inr (.inr (.inr (.inr (.inr (.inr (.inr ⟨rfl, ?_⟩)))))))
  simp only [pixelIn_eq_none] at *
  simp only [List.mem_cons, List.not_mem_nil, or_false, forall_eq_or_imp, forall_eq]
  omega

/-- An EE word is named by one address. -/
theorem locate_eq_ee {a : Addr} {k : Nat} : locate a = .ee k ↔ a.toNat = 0x0400 + k ∧ k < 832 := by
  unfold locate eeBase eeWords
  split
  · refine ⟨fun h => ?_, by omega⟩
    revert h
    unfold registerLoc
    split <;> nofun
  · split
    · rw [Loc.ee.injEq]
      omega
    · refine ⟨fun h => ?_, by omega⟩
      rcases pixelWindow_spec a.toNat with ⟨_, _, e⟩ | ⟨_, _, e⟩ | ⟨_, _, e⟩ | ⟨_, _, e⟩ | ⟨_, _, e⟩ |
        ⟨_, _, e⟩ | ⟨_, _, e⟩ | ⟨_, _, e⟩ | ⟨e, _⟩ <;> rw [e] at h <;> cases h

/-- A PIX word is named by one address. -/
theorem locate_eq_pix {a : Addr} {i : Pixel} : locate a = .pix i ↔ a.toNat = 0x0800 + i.val := by
  unfold locate eeBase eeWords
  split
  · refine ⟨fun h => ?_, by omega⟩
    revert h
    unfold registerLoc
    split <;> nofun
  · split
    · exact ⟨nofun, by omega⟩
    · unfold pixelWindow pixBase
      cases h : pixelIn 0x0800 a.toNat with
      | some j =>
        dsimp only
        rw [Loc.pix.injEq, ← pixelIn_eq_some, h, Option.some_inj]
      | none =>
        have hn := pixelIn_eq_none.mp h
        have hi := i.isLt
        unfold nPix at hi
        refine ⟨fun h => ?_, by omega⟩
        revert h
        dsimp only
        repeat' split
        all_goals nofun

/-- An AUX register is named by one address. -/
theorem locate_eq_aux {a : Addr} {r : AuxName} :
    locate a = .aux r ↔ a.toNat = match r with
      | .vbe => 0x10 | .cpSp0 => 0x11 | .gain => 0x12 | .ptat => 0x13
      | .cpSp1 => 0x14 | .vdd => 0x15 | .ctrl => 0x16 := by
  constructor
  · unfold locate eeBase
    split
    · unfold registerLoc
      split <;> intro h <;> cases h <;> assumption
    · split
      · nofun
      · intro h
        rcases pixelWindow_spec a.toNat with ⟨_, _, e⟩ | ⟨_, _, e⟩ | ⟨_, _, e⟩ | ⟨_, _, e⟩ | ⟨_, _, e⟩ |
          ⟨_, _, e⟩ | ⟨_, _, e⟩ | ⟨_, _, e⟩ | ⟨e, _⟩ <;> rw [e] at h <;> cases h
  · intro h
    have e : a = BitVec.ofNat 16 a.toNat := by simp
    rw [e, h]
    cases r <;> rfl

/-- CMD is named by address 1 alone. -/
theorem locate_eq_cmd {a : Addr} : locate a = .cmd ↔ a = 0x0001#16 := by
  constructor
  · unfold locate eeBase
    split
    · intro h
      apply BitVec.eq_of_toNat_eq
      revert h
      unfold registerLoc
      split <;> intro h <;> first | assumption | cases h
    · split
      · nofun
      · intro h
        rcases pixelWindow_spec a.toNat with ⟨_, _, e⟩ | ⟨_, _, e⟩ | ⟨_, _, e⟩ | ⟨_, _, e⟩ | ⟨_, _, e⟩ |
          ⟨_, _, e⟩ | ⟨_, _, e⟩ | ⟨_, _, e⟩ | ⟨e, _⟩ <;> rw [e] at h <;> cases h
  · rintro rfl
    decide

end Sys2Proof.Machine
end

