-- ==== Sys2Proof/Laws/Binary32.lean ====
section
/-! SUPPORT. What the binary32 operations rest on: the code of a word and its magnitude, and what one
rounding does. -/

namespace Sys2Proof

/-! ### Codes -/

theorem F32.code_lt (x : F32) : F32.code x < 2 ^ 31 := Nat.mod_lt _ (by decide)

theorem F32.sign_eq (x : F32) : F32.sign x = decide (2 ^ 31 ≤ x.toNat) := by
  unfold F32.sign
  rw [BitVec.msb_eq_decide]

theorem F32.code_pack {c : Nat} (h : c < 2 ^ 31) (neg : Bool) : F32.code (F32.pack neg c) = c := by
  unfold F32.code F32.pack
  rw [BitVec.toNat_ofNat]
  cases neg <;> simp only [Bool.false_eq_true, if_false, if_true] <;> omega

theorem F32.sign_pack {c : Nat} (h : c < 2 ^ 31) (neg : Bool) : F32.sign (F32.pack neg c) = neg := by
  rw [F32.sign_eq]
  unfold F32.pack
  rw [BitVec.toNat_ofNat]
  cases neg <;> simp only [Bool.false_eq_true, if_false, if_true, decide_eq_true_eq, decide_eq_false_iff_not]
    <;> omega

theorem F32.pack_sign_code (x : F32) : F32.pack (F32.sign x) (F32.code x) = x := by
  have h := x.isLt
  apply BitVec.eq_of_toNat_eq
  rw [F32.sign_eq]
  unfold F32.pack F32.code
  rw [BitVec.toNat_ofNat]
  by_cases hx : 2 ^ 31 ≤ x.toNat
  · simp only [hx, decide_true, if_true]
    omega
  · simp only [hx, decide_false, Bool.false_eq_true, if_false]
    omega

theorem F32.isFinite_eq_false (x : F32) :
    F32.isFinite x = false ↔ F32.isNaN x = true ∨ F32.isInf x = true := by
  simp only [F32.isFinite, F32.isNaN, F32.isInf, decide_eq_false_iff_not, decide_eq_true_eq]
  omega

theorem F32.isFinite_of_not {x : F32} (h1 : F32.isNaN x = false) (h2 : F32.isInf x = false) :
    F32.isFinite x = true := by
  cases h : F32.isFinite x
  · rcases (F32.isFinite_eq_false x).mp h with e | e <;> simp_all
  · rfl

theorem F32.isNaN_of_isFinite {x : F32} (h : F32.isFinite x = true) : F32.isNaN x = false := by
  simp only [F32.isFinite, F32.isNaN, decide_eq_false_iff_not, decide_eq_true_eq] at *
  omega

theorem F32.isInf_of_isFinite {x : F32} (h : F32.isFinite x = true) : F32.isInf x = false := by
  simp only [F32.isFinite, F32.isInf, decide_eq_false_iff_not, decide_eq_true_eq] at *
  omega

/-! ### Magnitudes -/

/-- The code `k · 2^23 + m` stands for `m` units of `2^k`, also at both ends of the binade. -/
theorem F32.magOfCode_add (k m : Nat) (h : k = 0 ∨ 2 ^ 23 ≤ m) (hm : m ≤ 2 ^ 24) :
    F32.magOfCode (k * 2 ^ 23 + m) = m * 2 ^ k := by
  unfold F32.magOfCode
  rcases Nat.lt_or_ge m (2 ^ 23) with h1 | h1
  · have hk : k = 0 := by omega
    subst hk
    rw [if_pos (by omega)]
    omega
  · rcases Nat.lt_or_ge m (2 ^ 24) with h2 | h2
    · have e1 : (k * 2 ^ 23 + m) / 2 ^ 23 = k + 1 := by omega
      have e2 : (k * 2 ^ 23 + m) % 2 ^ 23 + 2 ^ 23 = m := by omega
      rw [e1, e2, if_neg (by omega)]
      rfl
    · have e0 : m = 2 ^ 24 := by omega
      have e1 : (k * 2 ^ 23 + m) / 2 ^ 23 = k + 2 := by omega
      have e2 : (k * 2 ^ 23 + m) % 2 ^ 23 = 0 := by omega
      rw [e1, e2, if_neg (by omega), e0, show k + 2 - 1 = k + 1 from rfl, Nat.pow_succ]
      omega

theorem F32.magOfCode_lt_succ (c : Nat) : F32.magOfCode c < F32.magOfCode (c + 1) := by
  rcases Nat.lt_or_ge c (2 ^ 23) with h | h
  · have h1 := F32.magOfCode_add 0 c (.inl rfl) (by omega)
    have h2 := F32.magOfCode_add 0 (c + 1) (.inl rfl) (by omega)
    simp only [Nat.zero_mul, Nat.zero_add, Nat.pow_zero, Nat.mul_one] at h1 h2
    omega
  · have e : c = (c / 2 ^ 23 - 1) * 2 ^ 23 + (c % 2 ^ 23 + 2 ^ 23) := by omega
    have h1 := F32.magOfCode_add (c / 2 ^ 23 - 1) (c % 2 ^ 23 + 2 ^ 23) (.inr (by omega)) (by omega)
    have h2 := F32.magOfCode_add (c / 2 ^ 23 - 1) (c % 2 ^ 23 + 2 ^ 23 + 1) (.inr (by omega)) (by omega)
    rw [← Nat.add_assoc, ← e] at h2
    rw [← e] at h1
    rw [h1, h2]
    exact Nat.mul_lt_mul_of_pos_right (by omega) (Nat.two_pow_pos _)

/-- The magnitude grows with the code. -/
theorem F32.magOfCode_strictMono : StrictMono F32.magOfCode := strictMono_nat_of_lt_succ F32.magOfCode_lt_succ

/-! ### Rounding -/

/-- What one rounding does: the magnitude `n / d` lies between two neighbouring codes, and the result is
the nearer one, the even one in the middle between them; a code past the largest finite one becomes the
code of infinity. -/
theorem F32.roundCode_spec (n d : Nat) (hd : 0 < d) :
    ∃ c, F32.magOfCode c * d ≤ n ∧ n < F32.magOfCode (c + 1) * d ∧
      F32.roundCode n d =
        min
          (if F32.magOfCode c * d + F32.magOfCode (c + 1) * d < 2 * n ∨
              (2 * n = F32.magOfCode c * d + F32.magOfCode (c + 1) * d ∧ c % 2 = 1)
            then c + 1 else c)
          F32.infCode := by
  set k := F32.lastPlace (n / d) with hk
  set m := n / (d * 2 ^ k) with hm
  have hden : 0 < d * 2 ^ k := Nat.mul_pos hd (Nat.two_pow_pos k)
  have hm' : m = n / d / 2 ^ k := by rw [hm, Nat.div_div_eq_div_mul]
  have hrange : (k = 0 ∨ 2 ^ 23 ≤ m) ∧ m < 2 ^ 24 := by
    rw [hm', hk]
    unfold F32.lastPlace
    split
    · rename_i h
      simpa using h
    · rename_i h
      have hq : n / d ≠ 0 := by omega
      have h1 : 24 ≤ Nat.log2 (n / d) := (Nat.le_log2 hq).mpr (by omega)
      have h2 := Nat.log2_self_le hq
      have h3 := Nat.lt_log2_self (n := n / d)
      have e : Nat.log2 (n / d) = (Nat.log2 (n / d) - 23) + 23 := by omega
      refine ⟨.inr ?_, ?_⟩
      · rw [Nat.le_div_iff_mul_le (Nat.two_pow_pos _), ← Nat.pow_add, Nat.add_comm, ← e]
        exact h2
      · rw [Nat.div_lt_iff_lt_mul (Nat.two_pow_pos _), ← Nat.pow_add,
          show 24 + (Nat.log2 (n / d) - 23) = Nat.log2 (n / d) + 1 by omega]
        exact h3
  have c0 := F32.magOfCode_add k m hrange.1 (by omega)
  have c1 := F32.magOfCode_add k (m + 1) (by omega) (by omega)
  rw [← Nat.add_assoc] at c1
  have e0 : F32.magOfCode (k * 2 ^ 23 + m) * d = m * (d * 2 ^ k) := by rw [c0]; ring
  have e1 : F32.magOfCode (k * 2 ^ 23 + m + 1) * d = m * (d * 2 ^ k) + d * 2 ^ k := by rw [c1]; ring
  have hr := Nat.div_add_mod n (d * 2 ^ k)
  have hlt := Nat.mod_lt n hden
  rw [← hm, Nat.mul_comm] at hr
  refine ⟨k * 2 ^ 23 + m, by omega, by omega, ?_⟩
  unfold F32.roundCode
  simp only [← hk, ← hm]
  rw [e0, e1]
  have hodd : (k * 2 ^ 23 + m) % 2 = m % 2 := by omega
  rw [hodd]
  congr 1
  by_cases hc : d * 2 ^ k < 2 * (n % (d * 2 ^ k)) ∨ (2 * (n % (d * 2 ^ k)) = d * 2 ^ k ∧ m % 2 = 1)
  · rw [if_pos hc, if_pos (by omega)]
    omega
  · rw [if_neg hc, if_neg (by omega)]

/-- A magnitude that is some finite code's rounds to that code. -/
theorem F32.roundCode_exact {c d : Nat} (hd : 0 < d) (hc : c ≤ F32.infCode) :
    F32.roundCode (F32.magOfCode c * d) d = c := by
  obtain ⟨b, h1, h2, h3⟩ := F32.roundCode_spec (F32.magOfCode c * d) d hd
  have h4 : b ≤ c := F32.magOfCode_strictMono.le_iff_le.mp (Nat.le_of_mul_le_mul_right h1 hd)
  have h5 : c < b + 1 := F32.magOfCode_strictMono.lt_iff_lt.mp (Nat.lt_of_mul_lt_mul_right h2)
  have h6 : b = c := by omega
  subst h6
  have h7 := Nat.mul_lt_mul_of_pos_right (F32.magOfCode_lt_succ b) hd
  rw [h3, if_neg (by omega)]
  exact Nat.min_eq_left hc

/-- A magnitude of at most some code's rounds to at most that code. -/
theorem F32.roundCode_le_code {n c d : Nat} (hd : 0 < d) (h : n ≤ F32.magOfCode c * d) :
    F32.roundCode n d ≤ c := by
  obtain ⟨b, h1, h2, h3⟩ := F32.roundCode_spec n d hd
  have h4 : b ≤ c :=
    F32.magOfCode_strictMono.le_iff_le.mp (Nat.le_of_mul_le_mul_right (Nat.le_trans h1 h) hd)
  rw [h3]
  refine Nat.le_trans (Nat.min_le_left _ _) ?_
  rcases Nat.lt_or_eq_of_le h4 with h5 | rfl
  · split <;> omega
  · rw [if_neg (by omega)]

theorem F32.roundCode_le (n d : Nat) : F32.roundCode n d ≤ F32.infCode := Nat.min_le_right _ _

theorem F32.code_round (neg : Bool) (n d : Nat) : F32.code (F32.round neg n d) = F32.roundCode n d :=
  F32.code_pack (Nat.lt_of_le_of_lt (F32.roundCode_le n d) (by decide)) neg

theorem F32.sign_round (neg : Bool) (n d : Nat) : F32.sign (F32.round neg n d) = neg :=
  F32.sign_pack (Nat.lt_of_le_of_lt (F32.roundCode_le n d) (by decide)) neg

/-- A rounding never gives a NaN. -/
theorem F32.isNaN_round (neg : Bool) (n d : Nat) : F32.isNaN (F32.round neg n d) = false := by
  unfold F32.isNaN
  rw [F32.code_round]
  have := F32.roundCode_le n d
  simp only [decide_eq_false_iff_not]
  omega

/-- Rounding the exact value of a word that is not a NaN gives the word. -/
theorem F32.round_exact {x : F32} (hx : F32.isNaN x = false) {d : Nat} (hd : 0 < d) :
    F32.round (F32.sign x) (F32.mag x * d) d = x := by
  unfold F32.round F32.mag
  rw [F32.roundCode_exact hd (by simpa [F32.isNaN] using hx)]
  exact F32.pack_sign_code x

/-! ### The operations on finite operands -/

theorem F32.add_finite {x y : F32} (hx : F32.isFinite x = true) (hy : F32.isFinite y = true) :
    F32.add x y =
      if F32.units x + F32.units y = 0 then F32.zero (F32.sign x && F32.sign y)
      else F32.round (decide (F32.units x + F32.units y < 0)) (F32.units x + F32.units y).natAbs 1 := by
  simp only [F32.add, F32.isNaN_of_isFinite hx, F32.isNaN_of_isFinite hy, F32.isInf_of_isFinite hx,
    F32.isInf_of_isFinite hy, Bool.or_self, Bool.false_eq_true, if_false]

theorem F32.mul_finite {x y : F32} (hx : F32.isFinite x = true) (hy : F32.isFinite y = true) :
    F32.mul x y = F32.round (F32.sign x != F32.sign y) (F32.mag x * F32.mag y) (2 ^ 149) := by
  simp only [F32.mul, F32.isNaN_of_isFinite hx, F32.isNaN_of_isFinite hy, F32.isInf_of_isFinite hx,
    F32.isInf_of_isFinite hy, Bool.or_self, Bool.false_eq_true, if_false]

theorem F32.div_finite {x y : F32} (hx : F32.isFinite x = true) (hy : F32.isFinite y = true)
    (h : F32.mag y ≠ 0) :
    F32.div x y = F32.round (F32.sign x != F32.sign y) (F32.mag x * 2 ^ 149) (F32.mag y) := by
  simp only [F32.div, F32.isNaN_of_isFinite hx, F32.isNaN_of_isFinite hy, F32.isInf_of_isFinite hx,
    F32.isInf_of_isFinite hy, Bool.or_self, Bool.false_eq_true, if_false, h]

/-- A power of two is a finite positive value. -/
theorem F32.pow2_parts {n : Nat} (h : n ≤ 127) :
    F32.isFinite (F32.pow2 n) = true ∧ F32.sign (F32.pow2 n) = false ∧
      F32.mag (F32.pow2 n) = 2 ^ (n + 149) := by
  have hc : F32.code (F32.pow2 n) = (n + 127) * 2 ^ 23 := F32.code_pack (by omega) false
  refine ⟨?_, F32.sign_pack (by omega) false, ?_⟩
  · unfold F32.isFinite F32.infCode
    rw [hc, decide_eq_true_eq]
    omega
  · unfold F32.mag
    have := F32.magOfCode_add (n + 126) (2 ^ 23) (.inr (Nat.le_refl _)) (by decide)
    rw [hc, show (n + 127) * 2 ^ 23 = (n + 126) * 2 ^ 23 + 2 ^ 23 by omega, this, ← Nat.pow_add]
    congr 1
    omega

theorem F32.code_neg (x : F32) : F32.code (F32.neg x) = F32.code x := F32.code_pack (F32.code_lt x) _
theorem F32.sign_neg (x : F32) : F32.sign (F32.neg x) = !F32.sign x := F32.sign_pack (F32.code_lt x) _

/-- The value of a word by its sign and magnitude. -/
theorem F32.toRat_eq (x : F32) :
    F32.toRat x = (if F32.sign x then -1 else 1) * ((F32.mag x : Rat) / 2 ^ 149) := by
  unfold F32.toRat F32.units
  split <;> push_cast <;> ring

/-- A value is zero exactly when its magnitude is. -/
theorem F32.toRat_eq_zero (x : F32) : F32.toRat x = 0 ↔ F32.mag x = 0 := by
  rw [F32.toRat_eq]
  split <;> simp

/-- An infinity is what it is called, has its sign, and its magnitude is not zero. -/
theorem F32.inf_parts (b : Bool) : F32.isInf (F32.inf b) = true ∧ F32.sign (F32.inf b) = b := by
  cases b <;> decide

theorem F32.mag_of_isInf {x : F32} (h : F32.isInf x = true) : F32.mag x ≠ 0 := by
  unfold F32.isInf at h
  rw [decide_eq_true_eq] at h
  unfold F32.mag
  rw [h]
  decide +kernel

theorem F32.isNaN_of_isInf {x : F32} (h : F32.isInf x = true) : F32.isNaN x = false := by
  simp only [F32.isInf, F32.isNaN, decide_eq_false_iff_not, decide_eq_true_eq] at *
  omega

theorem F32.isFinite_of_isInf {x : F32} (h : F32.isInf x = true) : F32.isFinite x = false :=
  (F32.isFinite_eq_false x).mpr (.inr h)

/-! ### Exact conversions and quotients -/

/-- A magnitude of at most 24 significant bits within the range has a finite code. -/
theorem F32.exists_code {a e : Nat} (ha : a < 2 ^ 24) (he : e ≤ 253) :
    ∃ c, c < F32.infCode ∧ F32.magOfCode c = a * 2 ^ e := by
  unfold F32.infCode
  rcases Nat.eq_zero_or_pos a with h0 | h0
  · exact ⟨0, by decide, by simp [h0, F32.magOfCode]⟩
  · have ha0 : a ≠ 0 := by omega
    have hj1 := Nat.log2_self_le ha0
    have hj2 := Nat.lt_log2_self (n := a)
    have hj3 : Nat.log2 a ≤ 23 := Nat.lt_succ_iff.mp ((Nat.log2_lt ha0).mpr ha)
    generalize Nat.log2 a = j at *
    by_cases h : e + j < 23
    · have hlt : a * 2 ^ e < 2 ^ 23 := by
        calc a * 2 ^ e < 2 ^ (j + 1) * 2 ^ e := Nat.mul_lt_mul_of_pos_right hj2 (Nat.two_pow_pos e)
          _ = 2 ^ (j + 1 + e) := (Nat.pow_add ..).symm
          _ ≤ 2 ^ 23 := Nat.pow_le_pow_right (by decide) (by omega)
      have := F32.magOfCode_add 0 (a * 2 ^ e) (.inl rfl) (by omega)
      simp only [Nat.zero_mul, Nat.zero_add, Nat.pow_zero, Nat.mul_one] at this
      exact ⟨a * 2 ^ e, by omega, this⟩
    · have h1 : 2 ^ 23 ≤ a * 2 ^ (23 - j) := by
        calc 2 ^ 23 = 2 ^ j * 2 ^ (23 - j) := by rw [← Nat.pow_add]; congr 1; omega
          _ ≤ a * 2 ^ (23 - j) := Nat.mul_le_mul_right _ hj1
      have h2 : a * 2 ^ (23 - j) < 2 ^ 24 := by
        calc a * 2 ^ (23 - j) < 2 ^ (j + 1) * 2 ^ (23 - j) :=
              Nat.mul_lt_mul_of_pos_right hj2 (Nat.two_pow_pos _)
          _ = 2 ^ 24 := by rw [← Nat.pow_add]; congr 1; omega
      refine ⟨(e + j - 23) * 2 ^ 23 + a * 2 ^ (23 - j), by omega, ?_⟩
      rw [F32.magOfCode_add _ _ (.inr h1) (by omega), Nat.mul_assoc, ← Nat.pow_add]
      congr 2
      omega

/-- A rounding of a ratio that has at most 24 significant bits is exact. -/
theorem F32.round_parts {a e d n : Nat} (ha : a < 2 ^ 24) (he : e ≤ 253) (hd : 0 < d)
    (hn : n = a * 2 ^ e * d) (neg : Bool) :
    F32.isFinite (F32.round neg n d) = true ∧ F32.sign (F32.round neg n d) = neg ∧
      F32.mag (F32.round neg n d) = a * 2 ^ e := by
  obtain ⟨c, hc, hm⟩ := F32.exists_code ha he
  have hr : F32.roundCode n d = c := by
    rw [hn, ← hm, F32.roundCode_exact hd (Nat.le_of_lt hc)]
  refine ⟨?_, F32.sign_round .., ?_⟩
  · unfold F32.isFinite
    rw [F32.code_round, hr, decide_eq_true_eq]
    exact hc
  · unfold F32.mag
    rw [F32.code_round, hr, hm]

/-! ### Bounds -/

/-- A ratio of at most a power of two rounds to a finite value of at most that power. -/
theorem F32.round_le_pow2 {n d k : Nat} (hd : 0 < d) (hk : k ≤ 253) (h : n ≤ 2 ^ k * d) (neg : Bool) :
    F32.isFinite (F32.round neg n d) = true ∧ F32.mag (F32.round neg n d) ≤ 2 ^ k := by
  obtain ⟨c, hc, hm⟩ := F32.exists_code (a := 1) (by decide) hk
  rw [Nat.one_mul] at hm
  have hr := F32.roundCode_le_code (n := n) (c := c) hd (hm ▸ h)
  unfold F32.isFinite F32.mag
  rw [F32.code_round, decide_eq_true_eq, ← hm]
  exact ⟨Nat.lt_of_le_of_lt hr hc, F32.magOfCode_strictMono.monotone hr⟩

/-- A product of finite values of at most `2^a` and `2^b` units times `2^149` is finite and bounded. -/
theorem F32.mul_le_pow2 {x y : F32} {a b : Nat} (hx : F32.isFinite x = true) (hy : F32.isFinite y = true)
    (hab : a + b ≤ 104) (ha : F32.mag x ≤ 2 ^ (a + 149)) (hb : F32.mag y ≤ 2 ^ (b + 149)) :
    F32.isFinite (F32.mul x y) = true ∧ F32.mag (F32.mul x y) ≤ 2 ^ (a + b + 149) := by
  rw [F32.mul_finite hx hy]
  refine F32.round_le_pow2 (by decide) (by omega) ?_ _
  calc F32.mag x * F32.mag y ≤ 2 ^ (a + 149) * 2 ^ (b + 149) := Nat.mul_le_mul ha hb
    _ = 2 ^ (a + b + 149) * 2 ^ 149 := by rw [← Nat.pow_add, ← Nat.pow_add]; congr 1; omega

/-- A sum of finite values of at most `2^k` units is finite and at most `2^(k+1)` units. -/
theorem F32.add_le_pow2 {x y : F32} {k : Nat} (hx : F32.isFinite x = true) (hy : F32.isFinite y = true)
    (hk : k ≤ 252) (ha : F32.mag x ≤ 2 ^ k) (hb : F32.mag y ≤ 2 ^ k) :
    F32.isFinite (F32.add x y) = true ∧ F32.mag (F32.add x y) ≤ 2 ^ (k + 1) := by
  rw [F32.add_finite hx hy]
  split
  · rename_i h
    have h0 : ∀ b, F32.code (F32.zero b) = 0 := fun b => F32.code_pack (by decide) b
    unfold F32.isFinite F32.mag
    rw [h0]
    exact ⟨by decide, Nat.zero_le _⟩
  · refine F32.round_le_pow2 (by decide) (by omega) ?_ _
    have e : (F32.units x + F32.units y).natAbs ≤ F32.mag x + F32.mag y := by
      unfold F32.units
      split <;> split <;> omega
    rw [Nat.pow_succ]
    omega

/-- An integer of less than 24 bits converts exactly. -/
theorem F32.ofInt_parts {n : Int} (h : n.natAbs < 2 ^ 24) :
    F32.isFinite (F32.ofInt n) = true ∧ F32.sign (F32.ofInt n) = decide (n < 0) ∧
      F32.mag (F32.ofInt n) = n.natAbs * 2 ^ 149 :=
  F32.round_parts h (by decide) (by decide) (Nat.mul_one _).symm _

/-- An integer of less than 24 bits over a power of two is exact. -/
theorem F32.div_pow2_parts {n : Int} {k : Nat} (h : n.natAbs < 2 ^ 24) (hk : k ≤ 127) :
    F32.isFinite (F32.div (F32.ofInt n) (F32.pow2 k)) = true ∧
      F32.toRat (F32.div (F32.ofInt n) (F32.pow2 k)) = (n : Rat) / 2 ^ k := by
  obtain ⟨f1, s1, m1⟩ := F32.ofInt_parts h
  obtain ⟨f2, s2, m2⟩ := F32.pow2_parts hk
  have hp := Nat.two_pow_pos (k + 149)
  rw [F32.div_finite f1 f2 (by omega), s1, s2, m1, m2, Bool.bne_false]
  have e : n.natAbs * 2 ^ 149 * 2 ^ 149 = n.natAbs * 2 ^ (149 - k) * 2 ^ (k + 149) := by
    rw [Nat.mul_assoc, Nat.mul_assoc, ← Nat.pow_add, ← Nat.pow_add]
    congr 2
    omega
  obtain ⟨f, s, m⟩ := F32.round_parts h (show 149 - k ≤ 253 by omega) hp e (decide (n < 0))
  refine ⟨f, ?_⟩
  rw [F32.toRat_eq, s, m]
  have e2 : ((2 : Rat)) ^ 149 = 2 ^ (149 - k) * 2 ^ k := by
    rw [← pow_add]
    congr 1
    omega
  have p1 : (2 : Rat) ^ (149 - k) ≠ 0 := pow_ne_zero _ (by decide)
  have p2 : (2 : Rat) ^ k ≠ 0 := pow_ne_zero _ (by decide)
  rw [e2, Nat.cast_mul, Nat.cast_pow, Nat.cast_natAbs]
  by_cases hn : n < 0
  · rw [abs_of_neg hn]
    simp only [hn, decide_true, if_true]
    push_cast
    field_simp
  · rw [abs_of_nonneg (by omega)]
    simp only [hn, decide_false, Bool.false_eq_true, if_false]
    push_cast
    field_simp

/-! ### The square root of a whole number -/

theorem isqrtBits_spec (n : Nat) : ∀ b lo, lo * lo ≤ n → n < (lo + 2 ^ b) * (lo + 2 ^ b) →
    isqrtBits n b lo * isqrtBits n b lo ≤ n ∧
      n < (isqrtBits n b lo + 1) * (isqrtBits n b lo + 1) := by
  intro b
  induction b with
  | zero => exact fun lo h1 h2 => ⟨h1, h2⟩
  | succ b ih =>
    intro lo h1 h2
    unfold isqrtBits
    dsimp only
    split
    · rename_i h
      refine ih _ h ?_
      rwa [Nat.add_assoc, ← Nat.two_mul, ← Nat.pow_succ']
    · rename_i h
      exact ih _ h1 (Nat.lt_of_not_le h)

/-- `isqrt n` is the whole part of the square root. -/
theorem isqrt_spec (n : Nat) : isqrt n * isqrt n ≤ n ∧ n < (isqrt n + 1) * (isqrt n + 1) := by
  refine isqrtBits_spec n _ 0 (Nat.zero_le n) ?_
  have h := Nat.lt_log2_self (n := n)
  refine Nat.lt_of_lt_of_le h ?_
  rw [Nat.zero_add, ← Nat.pow_add]
  exact Nat.pow_le_pow_right (by decide) (by omega)

/-! ### NaN words -/

/-- A quiet NaN is a NaN, and its quiet bit is 1, whatever its sign and payload. -/
theorem F32.quietNaN_parts (free : BitVec 23) :
    F32.isNaN (F32.quietNaN free) = true ∧ (F32.quietNaN free).getLsbD 22 = true := by
  constructor
  · have h := free.isLt
    have h1 : free.toNat % 2 ^ 22 < 2 ^ 22 := Nat.mod_lt _ (by decide)
    have h2 : free.toNat / 2 ^ 22 % 2 ^ 1 = free.toNat / 2 ^ 22 := by omega
    have h3 : (0x1FF#9 : BitVec 9).toNat < 2 ^ 9 := by decide
    have h4 : (0x1FF#9 : BitVec 9).toNat = 0x1FF := rfl
    have e : (F32.quietNaN free).toNat =
        (free.toNat / 2 ^ 22 * 2 ^ 9 + 0x1FF) * 2 ^ 22 + free.toNat % 2 ^ 22 := by
      unfold F32.quietNaN
      rw [BitVec.toNat_append, BitVec.toNat_append, BitVec.extractLsb'_toNat, BitVec.extractLsb'_toNat,
        Nat.shiftRight_eq_div_pow, Nat.shiftRight_zero, h2, ← Nat.shiftLeft_add_eq_or_of_lt h3,
        ← Nat.shiftLeft_add_eq_or_of_lt h1, Nat.shiftLeft_eq, Nat.shiftLeft_eq, h4]
    unfold F32.isNaN F32.code F32.infCode
    rw [e, decide_eq_true_eq]
    omega
  · unfold F32.quietNaN
    rw [BitVec.getLsbD_append, if_neg (by decide), BitVec.getLsbD_append, if_pos (by decide)]
    decide

/-- What the host sees of a value that is no NaN is the value. -/
theorem F32.settle_number {x : F32} (h : F32.isNaN x = false) (n : Nat) : F32.settle n x = x := by
  unfold F32.settle
  rw [h]
  rfl

theorem F32.isNaN_settle (x : F32) (n : Nat) : F32.isNaN (F32.settle n x) = F32.isNaN x := by
  cases h : F32.isNaN x
  · rw [F32.settle_number h, h]
  · unfold F32.settle
    rw [h]
    exact (F32.quietNaN_parts _).1

theorem F32.isFinite_settle (x : F32) (n : Nat) : F32.isFinite (F32.settle n x) = F32.isFinite x := by
  cases h : F32.isNaN x
  · rw [F32.settle_number h]
  · rw [(F32.isFinite_eq_false x).mpr (.inl h),
      (F32.isFinite_eq_false _).mpr (.inl ((F32.isNaN_settle x n).trans h))]

/-- What the host sees of a computed value. -/
theorem F32.shows_settle (x : F32) (n : Nat) : F32.Shows (F32.settle n x) x :=
  ⟨fun h => F32.settle_number h n, fun h => by
    unfold F32.settle
    rw [h]
    exact F32.quietNaN_parts _⟩

end Sys2Proof
end

