-- ==== Sys2Proof/Laws/Memory.lean ====
section
/-! SUPPORT. The 16-bit buffers and the AUX registers: reading after a write, the canonical form, and what
a run of copies does. -/

namespace Sys2Proof.Machine

/-- A read after a write: the written word at its address, what was there elsewhere. -/
theorem Memory.lookup_write (m : Memory) (a : Nat) (w : Half) (b : Nat) :
    (m.write a w).lookup b = if b = a then some w else m.lookup b := by
  induction m with
  | nil => simp [Memory.write, Memory.lookup]
  | cons c m ih =>
    obtain ⟨k, v⟩ := c
    simp only [Memory.write]
    split
    · simp only [Memory.lookup]
    · split
      · rename_i h
        subst h
        simp only [Memory.lookup]
        split <;> rfl
      · rename_i h
        simp only [Memory.lookup, ih]
        by_cases hb : b = k
        · subst hb
          rw [if_pos rfl, if_pos rfl, if_neg (fun e => h e.symm)]
        · rw [if_neg hb, if_neg hb]

/-- Every listed cell after a write is the written one or was there before. -/
theorem Memory.mem_write {m : Memory} {a : Nat} {w : Half} {c : Nat × Half}
    (h : c ∈ m.write a w) : c = (a, w) ∨ c ∈ m := by
  induction m with
  | nil => simpa [Memory.write] using h
  | cons d m ih =>
    obtain ⟨k, v⟩ := d
    simp only [Memory.write] at h
    split at h
    · rcases List.mem_cons.mp h with h | h
      · exact .inl h
      · exact .inr h
    · split at h
      · rcases List.mem_cons.mp h with h | h
        · exact .inl h
        · exact .inr (List.mem_cons_of_mem _ h)
      · rcases List.mem_cons.mp h with h | h
        · exact .inr (h ▸ List.mem_cons_self)
        · exact (ih h).imp_right (List.mem_cons_of_mem _)

/-- A write keeps the canonical form. -/
theorem Memory.wf_write {m : Memory} (h : m.wf) (a : Nat) (w : Half) : (m.write a w).wf := by
  induction m with
  | nil => simp [Memory.wf, Memory.write]
  | cons d m ih =>
    obtain ⟨k, v⟩ := d
    obtain ⟨hk, hm⟩ := List.pairwise_cons.mp h
    simp only [Memory.write]
    split
    · rename_i ha
      refine List.pairwise_cons.mpr ⟨fun c hc => ?_, h⟩
      rcases List.mem_cons.mp hc with rfl | hc
      · exact ha
      · exact Nat.lt_trans ha (hk c hc)
    · split
      · rename_i ha
        subst ha
        exact List.pairwise_cons.mpr ⟨hk, hm⟩
      · rename_i h1 h2
        refine List.pairwise_cons.mpr ⟨fun c hc => ?_, ih hm⟩
        rcases Memory.mem_write hc with rfl | hc
        · show k < a
          omega
        · exact hk c hc

/-- A write lists its address and unlists none. -/
theorem Memory.listed_write (m : Memory) (a : Nat) (w : Half) (b : Nat) :
    (m.write a w).listed b = (decide (b = a) || m.listed b) := by
  simp only [Memory.listed, Memory.lookup_write]
  split <;> simp_all

/-- Writing the same word again changes nothing. -/
theorem Memory.write_write_self (m : Memory) (a : Nat) (w : Half) :
    (m.write a w).write a w = m.write a w := by
  induction m with
  | nil => simp [Memory.write]
  | cons c m ih =>
    obtain ⟨k, v⟩ := c
    simp only [Memory.write]
    split
    · simp [Memory.write]
    · split
      · simp [Memory.write]
      · rename_i h1 h2
        simp [Memory.write, h1, h2, ih]

/-- A word is listed exactly when a cell of the list has its address. -/
theorem Memory.listed_iff {m : Memory} {a : Nat} : m.listed a = true ↔ ∃ c ∈ m, c.1 = a := by
  induction m with
  | nil => simp [Memory.listed, Memory.lookup]
  | cons d m ih =>
    obtain ⟨k, v⟩ := d
    unfold Memory.listed at ih ⊢
    simp only [Memory.lookup, List.mem_cons, exists_eq_or_imp]
    by_cases h : a = k
    · simp [h]
    · rw [if_neg h, ih]
      simp [Ne.symm h]

/-- The empty memory of reset has the canonical form. -/
theorem Memory.wf_nil : Memory.wf [] := List.Pairwise.nil

/-- The copies of MERGE keep the canonical form. -/
theorem Memory.wf_copies (l : List Nat) : ∀ {m : Memory}, m.wf → (l.foldl copyPixel m).wf := by
  induction l with
  | nil => exact fun h => h
  | cons x l ih => exact fun h => ih (Memory.wf_write h _ _)

/-- What the copies of MERGE leave at an address: for indices below 768, RAW words of the list hold the
PIX words as they were, and nothing else changes. -/
theorem Memory.lookup_copies (l : List Nat) (hl : ∀ x ∈ l, x < nPix) :
    ∀ (m : Memory) (b : Nat), (l.foldl copyPixel m).lookup b =
      if rawBase ≤ b ∧ b - rawBase ∈ l then some (m.read (pixBase + (b - rawBase)))
      else m.lookup b := by
  induction l with
  | nil => simp
  | cons x l ih =>
    intro m b
    have hx : x < nPix := hl x List.mem_cons_self
    have hl' : ∀ y ∈ l, y < nPix := fun y hy => hl y (List.mem_cons_of_mem _ hy)
    have pixKept : ∀ y, y < nPix → (copyPixel m x).read (pixBase + y) = m.read (pixBase + y) := by
      intro y hy
      unfold copyPixel Memory.read
      rw [Memory.lookup_write, if_neg]
      unfold pixBase rawBase nPix at *
      omega
    rw [List.foldl_cons, ih hl']
    by_cases hb : rawBase ≤ b ∧ b - rawBase ∈ l
    · have hy : b - rawBase < nPix := hl' _ hb.2
      rw [if_pos hb, if_pos ⟨hb.1, List.mem_cons_of_mem _ hb.2⟩, pixKept _ hy]
    · rw [if_neg hb]
      unfold copyPixel
      rw [Memory.lookup_write]
      by_cases hbx : b = rawBase + x
      · have e : b - rawBase = x := by omega
        rw [if_pos hbx, e, if_pos ⟨by omega, List.mem_cons_self⟩]
      · rw [if_neg hbx, if_neg]
        rintro ⟨h1, h2⟩
        rcases List.mem_cons.mp h2 with h2 | h2
        · omega
        · exact hb ⟨h1, h2⟩

/-- A listed cell after the copies of MERGE was there before or is a RAW word of the list. -/
theorem Memory.mem_copies (l : List Nat) {c : Nat × Half} :
    ∀ {m : Memory}, c ∈ l.foldl copyPixel m → c ∈ m ∨ ∃ x ∈ l, c.1 = rawBase + x := by
  induction l with
  | nil => exact fun h => .inl h
  | cons x l ih =>
    intro m h
    rcases ih h with h | ⟨y, hy, e⟩
    · rcases Memory.mem_write h with rfl | h
      · exact .inr ⟨x, List.mem_cons_self, rfl⟩
      · exact .inl h
    · exact .inr ⟨y, List.mem_cons_of_mem _ hy, e⟩

/-- Membership in `SUB(o)`: the pixels whose column parity is that of row plus offset (R201). -/
theorem mem_subIndices (o idx : Nat) :
    idx ∈ subIndices o ↔ idx < nPix ∧ (idx / 32 + idx % 32 + o) % 2 = 0 := by
  simp only [subIndices, List.mem_flatMap, List.mem_map, List.mem_range, nPix]
  constructor
  · rintro ⟨row, hr, i, hi, rfl⟩
    omega
  · rintro ⟨h1, h2⟩
    exact ⟨idx / 32, by omega, (idx % 32 - (idx / 32 + o) % 2) / 2, by omega, by omega⟩

theorem lt_of_mem_subIndices {o idx : Nat} (h : idx ∈ subIndices o) : idx < nPix :=
  ((mem_subIndices o idx).mp h).1

/-! ### The AUX registers -/

theorem AuxBank.get_set (b : AuxBank) (r r' : AuxName) (w : Half) :
    (b.set r w).get r' = if r' = r then w else b.get r' := by
  cases r <;> cases r' <;> simp [AuxBank.set, AuxBank.get]

theorem AuxValid.get_mark (b : AuxValid) (r r' : AuxName) :
    (b.mark r).get r' = (decide (r' = r) || b.get r') := by
  cases r <;> cases r' <;> simp [AuxValid.mark, AuxValid.get]

end Sys2Proof.Machine
end

