-- ==== Sys2Proof/Laws/State.lean ====
section
/-! SUPPORT. What every named update of the state does to every field, so that no proof unfolds a record
update. -/

namespace Sys2Proof.Machine

variable (s : State)

/-! `State.setLastOp` -/

@[simp] theorem State.setLastOp_status (op : BitVec 4) :
    (s.setLastOp op).status = { s.status with lastOp := op } := rfl
@[simp] theorem State.setLastOp_aux (op : BitVec 4) : (s.setLastOp op).aux = s.aux := rfl
@[simp] theorem State.setLastOp_auxValid (op : BitVec 4) : (s.setLastOp op).auxValid = s.auxValid := rfl
@[simp] theorem State.setLastOp_mem (op : BitVec 4) : (s.setLastOp op).mem = s.mem := rfl
@[simp] theorem State.setLastOp_store (op : BitVec 4) : (s.setLastOp op).store = s.store := rfl
@[simp] theorem State.setLastOp_out (op : BitVec 4) : (s.setLastOp op).out = s.out := rfl
@[simp] theorem State.setLastOp_pending (op : BitVec 4) : (s.setLastOp op).pending = s.pending := rfl
@[simp] theorem State.setLastOp_badCap (op : BitVec 4) : (s.setLastOp op).badCap = s.badCap := rfl
@[simp] theorem State.setLastOp_busyLeft (op : BitVec 4) : (s.setLastOp op).busyLeft = s.busyLeft := rfl
@[simp] theorem State.setLastOp_delays (op : BitVec 4) : (s.setLastOp op).delays = s.delays := rfl
@[simp] theorem State.setLastOp_draws (op : BitVec 4) : (s.setLastOp op).draws = s.draws := rfl
@[simp] theorem State.setLastOp_host (op : BitVec 4) : (s.setLastOp op).host = s.host := rfl

/-! `State.setErr` -/

@[simp] theorem State.setErr_status (e : Err) : (s.setErr e).status = { s.status with err := e } := rfl
@[simp] theorem State.setErr_aux (e : Err) : (s.setErr e).aux = s.aux := rfl
@[simp] theorem State.setErr_auxValid (e : Err) : (s.setErr e).auxValid = s.auxValid := rfl
@[simp] theorem State.setErr_mem (e : Err) : (s.setErr e).mem = s.mem := rfl
@[simp] theorem State.setErr_store (e : Err) : (s.setErr e).store = s.store := rfl
@[simp] theorem State.setErr_out (e : Err) : (s.setErr e).out = s.out := rfl
@[simp] theorem State.setErr_pending (e : Err) : (s.setErr e).pending = s.pending := rfl
@[simp] theorem State.setErr_badCap (e : Err) : (s.setErr e).badCap = s.badCap := rfl
@[simp] theorem State.setErr_busyLeft (e : Err) : (s.setErr e).busyLeft = s.busyLeft := rfl
@[simp] theorem State.setErr_delays (e : Err) : (s.setErr e).delays = s.delays := rfl
@[simp] theorem State.setErr_draws (e : Err) : (s.setErr e).draws = s.draws := rfl
@[simp] theorem State.setErr_host (e : Err) : (s.setErr e).host = s.host := rfl

/-! `State.discardWrite` -/

@[simp] theorem State.discardWrite_status :
    (s.discardWrite).status = { s.status with writeWhileBusy := true } := rfl
@[simp] theorem State.discardWrite_aux : (s.discardWrite).aux = s.aux := rfl
@[simp] theorem State.discardWrite_auxValid : (s.discardWrite).auxValid = s.auxValid := rfl
@[simp] theorem State.discardWrite_mem : (s.discardWrite).mem = s.mem := rfl
@[simp] theorem State.discardWrite_store : (s.discardWrite).store = s.store := rfl
@[simp] theorem State.discardWrite_out : (s.discardWrite).out = s.out := rfl
@[simp] theorem State.discardWrite_pending : (s.discardWrite).pending = s.pending := rfl
@[simp] theorem State.discardWrite_badCap : (s.discardWrite).badCap = s.badCap := rfl
@[simp] theorem State.discardWrite_busyLeft : (s.discardWrite).busyLeft = s.busyLeft := rfl
@[simp] theorem State.discardWrite_delays : (s.discardWrite).delays = s.delays := rfl
@[simp] theorem State.discardWrite_draws : (s.discardWrite).draws = s.draws := rfl
@[simp] theorem State.discardWrite_host : (s.discardWrite).host = s.host := rfl

/-! `State.clearWriteWhileBusy` -/

@[simp] theorem State.clearWriteWhileBusy_status :
    (s.clearWriteWhileBusy).status = { s.status with writeWhileBusy := false } := rfl
@[simp] theorem State.clearWriteWhileBusy_aux : (s.clearWriteWhileBusy).aux = s.aux := rfl
@[simp] theorem State.clearWriteWhileBusy_auxValid : (s.clearWriteWhileBusy).auxValid = s.auxValid := rfl
@[simp] theorem State.clearWriteWhileBusy_mem : (s.clearWriteWhileBusy).mem = s.mem := rfl
@[simp] theorem State.clearWriteWhileBusy_store : (s.clearWriteWhileBusy).store = s.store := rfl
@[simp] theorem State.clearWriteWhileBusy_out : (s.clearWriteWhileBusy).out = s.out := rfl
@[simp] theorem State.clearWriteWhileBusy_pending : (s.clearWriteWhileBusy).pending = s.pending := rfl
@[simp] theorem State.clearWriteWhileBusy_badCap : (s.clearWriteWhileBusy).badCap = s.badCap := rfl
@[simp] theorem State.clearWriteWhileBusy_busyLeft : (s.clearWriteWhileBusy).busyLeft = s.busyLeft := rfl
@[simp] theorem State.clearWriteWhileBusy_delays : (s.clearWriteWhileBusy).delays = s.delays := rfl
@[simp] theorem State.clearWriteWhileBusy_draws : (s.clearWriteWhileBusy).draws = s.draws := rfl
@[simp] theorem State.clearWriteWhileBusy_host : (s.clearWriteWhileBusy).host = s.host := rfl

/-! `State.raiseError` -/

@[simp] theorem State.raiseError_status (op : BitVec 4) (e : Err) :
    (s.raiseError op e).status = { s.status with lastOp := op, err := e } := rfl
@[simp] theorem State.raiseError_aux (op : BitVec 4) (e : Err) : (s.raiseError op e).aux = s.aux := rfl
@[simp] theorem State.raiseError_auxValid (op : BitVec 4) (e : Err) :
    (s.raiseError op e).auxValid = s.auxValid := rfl
@[simp] theorem State.raiseError_mem (op : BitVec 4) (e : Err) : (s.raiseError op e).mem = s.mem := rfl
@[simp] theorem State.raiseError_store (op : BitVec 4) (e : Err) : (s.raiseError op e).store = s.store := rfl
@[simp] theorem State.raiseError_out (op : BitVec 4) (e : Err) : (s.raiseError op e).out = s.out := rfl
@[simp] theorem State.raiseError_pending (op : BitVec 4) (e : Err) :
    (s.raiseError op e).pending = s.pending := rfl
@[simp] theorem State.raiseError_badCap (op : BitVec 4) (e : Err) :
    (s.raiseError op e).badCap = s.badCap := rfl
@[simp] theorem State.raiseError_busyLeft (op : BitVec 4) (e : Err) :
    (s.raiseError op e).busyLeft = s.busyLeft := rfl
@[simp] theorem State.raiseError_delays (op : BitVec 4) (e : Err) :
    (s.raiseError op e).delays = s.delays := rfl
@[simp] theorem State.raiseError_draws (op : BitVec 4) (e : Err) : (s.raiseError op e).draws = s.draws := rfl
@[simp] theorem State.raiseError_host (op : BitVec 4) (e : Err) : (s.raiseError op e).host = s.host := rfl

/-! `State.accept` -/

@[simp] theorem State.accept_status (v : Word) :
    (s.accept v).status = { s.status with err := .ok, busy := true } := rfl
@[simp] theorem State.accept_aux (v : Word) : (s.accept v).aux = s.aux := rfl
@[simp] theorem State.accept_auxValid (v : Word) : (s.accept v).auxValid = s.auxValid := rfl
@[simp] theorem State.accept_mem (v : Word) : (s.accept v).mem = s.mem := rfl
@[simp] theorem State.accept_store (v : Word) : (s.accept v).store = s.store := rfl
@[simp] theorem State.accept_out (v : Word) : (s.accept v).out = s.out := rfl
@[simp] theorem State.accept_pending (v : Word) : (s.accept v).pending = v := rfl
@[simp] theorem State.accept_badCap (v : Word) : (s.accept v).badCap = s.badCap := rfl
@[simp] theorem State.accept_busyLeft (v : Word) : (s.accept v).busyLeft = s.nextDelay := rfl
@[simp] theorem State.accept_delays (v : Word) : (s.accept v).delays = s.delays.tail := rfl
@[simp] theorem State.accept_draws (v : Word) : (s.accept v).draws = s.draws + 1 := rfl
@[simp] theorem State.accept_host (v : Word) : (s.accept v).host = s.host := rfl

/-! `State.finish` -/

@[simp] theorem State.finish_status : (s.finish).status = { s.status with busy := false } := rfl
@[simp] theorem State.finish_aux : (s.finish).aux = s.aux := rfl
@[simp] theorem State.finish_auxValid : (s.finish).auxValid = s.auxValid := rfl
@[simp] theorem State.finish_mem : (s.finish).mem = s.mem := rfl
@[simp] theorem State.finish_store : (s.finish).store = s.store := rfl
@[simp] theorem State.finish_out : (s.finish).out = s.out := rfl
@[simp] theorem State.finish_pending : (s.finish).pending = s.pending := rfl
@[simp] theorem State.finish_badCap : (s.finish).badCap = s.badCap := rfl
@[simp] theorem State.finish_busyLeft : (s.finish).busyLeft = s.busyLeft := rfl
@[simp] theorem State.finish_delays : (s.finish).delays = s.delays := rfl
@[simp] theorem State.finish_draws : (s.finish).draws = s.draws := rfl
@[simp] theorem State.finish_host : (s.finish).host = s.host := rfl

/-! `State.resetBlock` -/

@[simp] theorem State.resetBlock_status : (s.resetBlock).status = Status.cleared := rfl
@[simp] theorem State.resetBlock_aux : (s.resetBlock).aux = s.aux := rfl
@[simp] theorem State.resetBlock_auxValid : (s.resetBlock).auxValid = AuxValid.none := rfl
@[simp] theorem State.resetBlock_mem : (s.resetBlock).mem = [] := rfl
@[simp] theorem State.resetBlock_store : (s.resetBlock).store = s.store := rfl
@[simp] theorem State.resetBlock_out : (s.resetBlock).out = s.out := rfl
@[simp] theorem State.resetBlock_pending : (s.resetBlock).pending = 0#32 := rfl
@[simp] theorem State.resetBlock_badCap : (s.resetBlock).badCap = s.badCap := rfl
@[simp] theorem State.resetBlock_busyLeft : (s.resetBlock).busyLeft = 0 := rfl
@[simp] theorem State.resetBlock_delays : (s.resetBlock).delays = s.delays := rfl
@[simp] theorem State.resetBlock_draws : (s.resetBlock).draws = s.draws := rfl
@[simp] theorem State.resetBlock_host : (s.resetBlock).host = s.host := rfl

/-! `State.tick` -/

@[simp] theorem State.tick_status : (s.tick).status = s.status := rfl
@[simp] theorem State.tick_aux : (s.tick).aux = s.aux := rfl
@[simp] theorem State.tick_auxValid : (s.tick).auxValid = s.auxValid := rfl
@[simp] theorem State.tick_mem : (s.tick).mem = s.mem := rfl
@[simp] theorem State.tick_store : (s.tick).store = s.store := rfl
@[simp] theorem State.tick_out : (s.tick).out = s.out := rfl
@[simp] theorem State.tick_pending : (s.tick).pending = s.pending := rfl
@[simp] theorem State.tick_badCap : (s.tick).badCap = s.badCap := rfl
@[simp] theorem State.tick_busyLeft :
    (s.tick).busyLeft = if s.status.busy then s.busyLeft - 1 else s.busyLeft := rfl
@[simp] theorem State.tick_delays : (s.tick).delays = s.delays := rfl
@[simp] theorem State.tick_draws : (s.tick).draws = s.draws := rfl
@[simp] theorem State.tick_host : (s.tick).host = s.host := rfl

/-! `State.setInputs` -/

@[simp] theorem State.setInputs_status (es : List HostEvent) : (s.setInputs es).status = s.status := rfl
@[simp] theorem State.setInputs_aux (es : List HostEvent) : (s.setInputs es).aux = s.aux := rfl
@[simp] theorem State.setInputs_auxValid (es : List HostEvent) : (s.setInputs es).auxValid = s.auxValid := rfl
@[simp] theorem State.setInputs_mem (es : List HostEvent) : (s.setInputs es).mem = s.mem := rfl
@[simp] theorem State.setInputs_store (es : List HostEvent) : (s.setInputs es).store = s.store := rfl
@[simp] theorem State.setInputs_out (es : List HostEvent) : (s.setInputs es).out = s.out := rfl
@[simp] theorem State.setInputs_pending (es : List HostEvent) : (s.setInputs es).pending = s.pending := rfl
@[simp] theorem State.setInputs_badCap (es : List HostEvent) : (s.setInputs es).badCap = s.badCap := rfl
@[simp] theorem State.setInputs_busyLeft (es : List HostEvent) : (s.setInputs es).busyLeft = s.busyLeft := rfl
@[simp] theorem State.setInputs_delays (es : List HostEvent) : (s.setInputs es).delays = s.delays := rfl
@[simp] theorem State.setInputs_draws (es : List HostEvent) : (s.setInputs es).draws = s.draws := rfl
@[simp] theorem State.setInputs_host (es : List HostEvent) :
    (s.setInputs es).host = { s.host with inputs := es } := rfl

/-! `State.bindName` -/

@[simp] theorem State.bindName_status (n : String) (w : Word) : (s.bindName n w).status = s.status := rfl
@[simp] theorem State.bindName_aux (n : String) (w : Word) : (s.bindName n w).aux = s.aux := rfl
@[simp] theorem State.bindName_auxValid (n : String) (w : Word) :
    (s.bindName n w).auxValid = s.auxValid := rfl
@[simp] theorem State.bindName_mem (n : String) (w : Word) : (s.bindName n w).mem = s.mem := rfl
@[simp] theorem State.bindName_store (n : String) (w : Word) : (s.bindName n w).store = s.store := rfl
@[simp] theorem State.bindName_out (n : String) (w : Word) : (s.bindName n w).out = s.out := rfl
@[simp] theorem State.bindName_pending (n : String) (w : Word) : (s.bindName n w).pending = s.pending := rfl
@[simp] theorem State.bindName_badCap (n : String) (w : Word) : (s.bindName n w).badCap = s.badCap := rfl
@[simp] theorem State.bindName_busyLeft (n : String) (w : Word) :
    (s.bindName n w).busyLeft = s.busyLeft := rfl
@[simp] theorem State.bindName_delays (n : String) (w : Word) : (s.bindName n w).delays = s.delays := rfl
@[simp] theorem State.bindName_draws (n : String) (w : Word) : (s.bindName n w).draws = s.draws := rfl
@[simp] theorem State.bindName_host (n : String) (w : Word) :
    (s.bindName n w).host = { s.host with bindings := (n, w) :: s.host.bindings } := rfl

/-! `State.judge` -/

@[simp] theorem State.judge_status (ok : Bool) : (s.judge ok).status = s.status := rfl
@[simp] theorem State.judge_aux (ok : Bool) : (s.judge ok).aux = s.aux := rfl
@[simp] theorem State.judge_auxValid (ok : Bool) : (s.judge ok).auxValid = s.auxValid := rfl
@[simp] theorem State.judge_mem (ok : Bool) : (s.judge ok).mem = s.mem := rfl
@[simp] theorem State.judge_store (ok : Bool) : (s.judge ok).store = s.store := rfl
@[simp] theorem State.judge_out (ok : Bool) : (s.judge ok).out = s.out := rfl
@[simp] theorem State.judge_pending (ok : Bool) : (s.judge ok).pending = s.pending := rfl
@[simp] theorem State.judge_badCap (ok : Bool) : (s.judge ok).badCap = s.badCap := rfl
@[simp] theorem State.judge_busyLeft (ok : Bool) : (s.judge ok).busyLeft = s.busyLeft := rfl
@[simp] theorem State.judge_delays (ok : Bool) : (s.judge ok).delays = s.delays := rfl
@[simp] theorem State.judge_draws (ok : Bool) : (s.judge ok).draws = s.draws := rfl
@[simp] theorem State.judge_host (ok : Bool) :
    (s.judge ok).host = { s.host with testPass := s.host.testPass && ok } := rfl

/-! `State.observe` -/

@[simp] theorem State.observe_status (a : Addr) : (s.observe a).status = s.status := rfl
@[simp] theorem State.observe_aux (a : Addr) : (s.observe a).aux = s.aux := rfl
@[simp] theorem State.observe_auxValid (a : Addr) : (s.observe a).auxValid = s.auxValid := rfl
@[simp] theorem State.observe_mem (a : Addr) : (s.observe a).mem = s.mem := rfl
@[simp] theorem State.observe_store (a : Addr) : (s.observe a).store = s.store := rfl
@[simp] theorem State.observe_out (a : Addr) : (s.observe a).out = s.out := rfl
@[simp] theorem State.observe_pending (a : Addr) : (s.observe a).pending = s.pending := rfl
@[simp] theorem State.observe_badCap (a : Addr) : (s.observe a).badCap = s.badCap := rfl
@[simp] theorem State.observe_busyLeft (a : Addr) : (s.observe a).busyLeft = s.busyLeft := rfl
@[simp] theorem State.observe_delays (a : Addr) : (s.observe a).delays = s.delays := rfl
@[simp] theorem State.observe_draws (a : Addr) :
    (s.observe a).draws = if (s.peek a).isSome then s.draws else s.draws + 1 := rfl
@[simp] theorem State.observe_host (a : Addr) :
    (s.observe a).host = { s.host with trace := (a, s.readValue a) :: s.host.trace } := rfl

/-! `State.storeAux` -/

@[simp] theorem State.storeAux_status (r : AuxName) (v : Word) : (s.storeAux r v).status = s.status := rfl
@[simp] theorem State.storeAux_aux (r : AuxName) (v : Word) :
    (s.storeAux r v).aux = s.aux.set r (v.setWidth 16) := rfl
@[simp] theorem State.storeAux_auxValid (r : AuxName) (v : Word) :
    (s.storeAux r v).auxValid = s.auxValid.mark r := rfl
@[simp] theorem State.storeAux_mem (r : AuxName) (v : Word) : (s.storeAux r v).mem = s.mem := rfl
@[simp] theorem State.storeAux_store (r : AuxName) (v : Word) : (s.storeAux r v).store = s.store := rfl
@[simp] theorem State.storeAux_out (r : AuxName) (v : Word) : (s.storeAux r v).out = s.out := rfl
@[simp] theorem State.storeAux_pending (r : AuxName) (v : Word) : (s.storeAux r v).pending = s.pending := rfl
@[simp] theorem State.storeAux_badCap (r : AuxName) (v : Word) : (s.storeAux r v).badCap = s.badCap := rfl
@[simp] theorem State.storeAux_busyLeft (r : AuxName) (v : Word) :
    (s.storeAux r v).busyLeft = s.busyLeft := rfl
@[simp] theorem State.storeAux_delays (r : AuxName) (v : Word) : (s.storeAux r v).delays = s.delays := rfl
@[simp] theorem State.storeAux_draws (r : AuxName) (v : Word) : (s.storeAux r v).draws = s.draws := rfl
@[simp] theorem State.storeAux_host (r : AuxName) (v : Word) : (s.storeAux r v).host = s.host := rfl

/-! `State.storeMem` -/

@[simp] theorem State.storeMem_status (a : Nat) (v : Word) : (s.storeMem a v).status = s.status := rfl
@[simp] theorem State.storeMem_aux (a : Nat) (v : Word) : (s.storeMem a v).aux = s.aux := rfl
@[simp] theorem State.storeMem_auxValid (a : Nat) (v : Word) : (s.storeMem a v).auxValid = s.auxValid := rfl
@[simp] theorem State.storeMem_mem (a : Nat) (v : Word) :
    (s.storeMem a v).mem = s.mem.write a (v.setWidth 16) := rfl
@[simp] theorem State.storeMem_store (a : Nat) (v : Word) : (s.storeMem a v).store = s.store := rfl
@[simp] theorem State.storeMem_out (a : Nat) (v : Word) : (s.storeMem a v).out = s.out := rfl
@[simp] theorem State.storeMem_pending (a : Nat) (v : Word) : (s.storeMem a v).pending = s.pending := rfl
@[simp] theorem State.storeMem_badCap (a : Nat) (v : Word) : (s.storeMem a v).badCap = s.badCap := rfl
@[simp] theorem State.storeMem_busyLeft (a : Nat) (v : Word) : (s.storeMem a v).busyLeft = s.busyLeft := rfl
@[simp] theorem State.storeMem_delays (a : Nat) (v : Word) : (s.storeMem a v).delays = s.delays := rfl
@[simp] theorem State.storeMem_draws (a : Nat) (v : Word) : (s.storeMem a v).draws = s.draws := rfl
@[simp] theorem State.storeMem_host (a : Nat) (v : Word) : (s.storeMem a v).host = s.host := rfl

/-! `completeDecode` -/

@[simp] theorem completeDecode_status :
    (completeDecode s).status =
      { s.status with busy := false, calValid := true, badOverflow := decOverflow s.badCap s.ee } := by
  simp only [completeDecode, State.finish]
@[simp] theorem completeDecode_aux : (completeDecode s).aux = s.aux := rfl
@[simp] theorem completeDecode_auxValid : (completeDecode s).auxValid = s.auxValid := rfl
@[simp] theorem completeDecode_mem : (completeDecode s).mem = s.mem := rfl
@[simp] theorem completeDecode_store : (completeDecode s).store = decodeStore s.badCap s.ee := rfl
@[simp] theorem completeDecode_out : (completeDecode s).out = s.out := rfl
@[simp] theorem completeDecode_pending : (completeDecode s).pending = s.pending := rfl
@[simp] theorem completeDecode_badCap : (completeDecode s).badCap = s.badCap := rfl
@[simp] theorem completeDecode_busyLeft : (completeDecode s).busyLeft = s.busyLeft := rfl
@[simp] theorem completeDecode_delays : (completeDecode s).delays = s.delays := rfl
@[simp] theorem completeDecode_draws : (completeDecode s).draws = s.draws := rfl
@[simp] theorem completeDecode_host : (completeDecode s).host = s.host := rfl

/-! `completeMerge` -/

@[simp] theorem completeMerge_status (o : Nat) :
    (completeMerge o s).status = { s.status.setMerged o with busy := false } := by
  simp only [completeMerge, State.finish]
@[simp] theorem completeMerge_aux (o : Nat) : (completeMerge o s).aux = s.aux := rfl
@[simp] theorem completeMerge_auxValid (o : Nat) : (completeMerge o s).auxValid = s.auxValid := rfl
@[simp] theorem completeMerge_mem (o : Nat) :
    (completeMerge o s).mem = (subIndices o).foldl copyPixel s.mem := by
  simp only [completeMerge, State.finish]
@[simp] theorem completeMerge_store (o : Nat) : (completeMerge o s).store = s.store := rfl
@[simp] theorem completeMerge_out (o : Nat) : (completeMerge o s).out = s.out := rfl
@[simp] theorem completeMerge_pending (o : Nat) : (completeMerge o s).pending = s.pending := rfl
@[simp] theorem completeMerge_badCap (o : Nat) : (completeMerge o s).badCap = s.badCap := rfl
@[simp] theorem completeMerge_busyLeft (o : Nat) : (completeMerge o s).busyLeft = s.busyLeft := rfl
@[simp] theorem completeMerge_delays (o : Nat) : (completeMerge o s).delays = s.delays := rfl
@[simp] theorem completeMerge_draws (o : Nat) : (completeMerge o s).draws = s.draws := rfl
@[simp] theorem completeMerge_host (o : Nat) : (completeMerge o s).host = s.host := rfl

/-! `completeEvaluate` -/

@[simp] theorem completeEvaluate_status :
    (completeEvaluate s).status =
      { s.status with
        busy := false
        nonfinite := anyNonfinite (finalGrid s.store (frameScalars s.store s.aux) s.raw)
        outValid := true
        merged0 := false
        merged1 := false } := by
  simp only [completeEvaluate, State.finish]
@[simp] theorem completeEvaluate_aux : (completeEvaluate s).aux = s.aux := rfl
@[simp] theorem completeEvaluate_auxValid : (completeEvaluate s).auxValid = s.auxValid := rfl
@[simp] theorem completeEvaluate_mem : (completeEvaluate s).mem = s.mem := rfl
@[simp] theorem completeEvaluate_store : (completeEvaluate s).store = s.store := rfl
@[simp] theorem completeEvaluate_out :
    (completeEvaluate s).out =
      outputsOf s.draws (frameScalars s.store s.aux)
        (finalGrid s.store (frameScalars s.store s.aux) s.raw) := rfl
@[simp] theorem completeEvaluate_pending : (completeEvaluate s).pending = s.pending := rfl
@[simp] theorem completeEvaluate_badCap : (completeEvaluate s).badCap = s.badCap := rfl
@[simp] theorem completeEvaluate_busyLeft : (completeEvaluate s).busyLeft = s.busyLeft := rfl
@[simp] theorem completeEvaluate_delays : (completeEvaluate s).delays = s.delays := rfl
@[simp] theorem completeEvaluate_draws : (completeEvaluate s).draws = s.draws + 775 := rfl
@[simp] theorem completeEvaluate_host : (completeEvaluate s).host = s.host := rfl

end Sys2Proof.Machine
end

