-- ==== Sys2Proof/Laws/Table.lean ====
section
/-! SUPPORT. Reading, building and writing tables of fixed length. -/

namespace Sys2Proof

@[simp] theorem Table.get_tab {n : Nat} {α : Type} (f : Fin n → α) (i : Fin n) :
    (Table.tab f).get i = f i := by
  unfold Table.get Table.tab
  exact List.getElem_ofFn _

@[simp] theorem Table.get_fill {n : Nat} {α : Type} (x : α) (i : Fin n) :
    (Table.fill n x).get i = x := by
  unfold Table.get Table.fill
  exact List.getElem_replicate _

theorem Table.get_set {n : Nat} {α : Type} (t : Table n α) (i j : Fin n) (x : α) :
    (t.set i x).get j = if i = j then x else t.get j := by
  simp only [Table.get, Table.set, List.getElem_set, Fin.ext_iff]

@[simp] theorem Table.get_set_self {n : Nat} {α : Type} (t : Table n α) (i : Fin n) (x : α) :
    (t.set i x).get i = x := by
  rw [Table.get_set, if_pos rfl]

theorem Table.get_set_ne {n : Nat} {α : Type} (t : Table n α) {i j : Fin n} (x : α) (h : i ≠ j) :
    (t.set i x).get j = t.get j := by
  rw [Table.get_set, if_neg h]

/-- Two tables with the same entries are equal. -/
theorem Table.ext_get {n : Nat} {α : Type} {s t : Table n α} (h : ∀ i, s.get i = t.get i) : s = t := by
  obtain ⟨a, ha⟩ := s
  obtain ⟨b, hb⟩ := t
  have : a = b := by
    apply List.ext_getElem (by omega)
    intro i h1 h2
    exact h ⟨i, by omega⟩
  subst this
  rfl

end Sys2Proof
end

