-- ==== Sys2Proof/Laws/Commands.lean ====
section
/-! SUPPORT. What the shared operations of the commands do: acceptance, the checks, and one event of the
machine by its kinds. -/

namespace Sys2Proof.Machine

/-! ### The checks -/

theorem State.eeComplete_iff (s : State) : s.eeComplete = true ↔ ∀ k, k < 832 → s.eeValid k = true := by
  unfold State.eeComplete eeWords
  rw [List.all_eq_true]
  exact ⟨fun h k hk => h k (List.mem_range.mpr hk), fun h k hk => h k (List.mem_range.mp hk)⟩

/-- DECODE's check passes exactly when every EE word was written; otherwise it is EE_INCOMPLETE. -/
theorem decodeCheck_eq_none (s : State) :
    decodeCheck s = none ↔ ∀ k, k < 832 → s.eeValid k = true := by
  rw [← s.eeComplete_iff]
  unfold decodeCheck
  split <;> simp_all

theorem decodeCheck_eq_some {s : State} {e : Err} (h : decodeCheck s = some e) : e = .eeIncomplete := by
  unfold decodeCheck at h
  split at h <;> simp_all

/-- MERGE's check passes exactly when every PIX word of its half was written; otherwise it is
PIX_INCOMPLETE. -/
theorem mergeCheck_eq_none (o : Nat) (s : State) :
    mergeCheck o s = none ↔
      ∀ idx, idx < 768 → (idx / 32 + idx % 32) % 2 = o % 2 → s.pixValid idx = true := by
  have h : mergeCheck o s = none ↔ (subIndices o).all s.pixValid = true := by
    unfold mergeCheck
    split <;> simp_all
  rw [h, List.all_eq_true]
  refine forall_congr' fun idx => ?_
  rw [mem_subIndices]
  refine ⟨fun h1 h2 h3 => h1 ⟨h2, by omega⟩, fun h1 h2 => h1 h2.1 (by omega)⟩

theorem mergeCheck_eq_some {o : Nat} {s : State} {e : Err} (h : mergeCheck o s = some e) :
    e = .pixIncomplete := by
  unfold mergeCheck at h
  split at h <;> simp_all

theorem AuxValid.complete_iff (b : AuxValid) : b.complete = true ↔ ∀ r, b.get r = true := by
  constructor
  · intro h r
    simp only [AuxValid.complete, Bool.and_eq_true] at h
    cases r <;> simp_all [AuxValid.get]
  · intro h
    simp only [AuxValid.complete, Bool.and_eq_true]
    exact ⟨⟨⟨⟨⟨⟨h .vbe, h .cpSp0⟩, h .gain⟩, h .ptat⟩, h .cpSp1⟩, h .vdd⟩, h .ctrl⟩

/-- EVALUATE's check passes exactly when the block is calibrated, both halves are merged and every AUX
register was written. -/
theorem evaluateCheck_eq_none (s : State) :
    evaluateCheck s = none ↔
      s.status.calValid = true ∧ s.status.merged0 = true ∧ s.status.merged1 = true ∧
        ∀ r, s.auxValid.get r = true := by
  rw [← AuxValid.complete_iff]
  unfold evaluateCheck
  cases s.status.calValid <;> cases s.status.merged0 <;> cases s.status.merged1 <;>
    cases s.auxValid.complete <;> decide

/-! ### Acceptance -/

theorem State.issueShort_idle {s : State} (h : s.status.busy = false) (v : Word) (f : State → State) :
    s.issueShort v f = f ((s.setLastOp (opField v)).setErr .ok) := by
  unfold State.issueShort
  rw [h]
  rfl

theorem State.issueShort_busy {s : State} (h : s.status.busy = true) (v : Word) (f : State → State) :
    s.issueShort v f = s.discardWrite := by
  unfold State.issueShort
  rw [h]
  rfl

theorem State.issueLong_busy {s : State} (h : s.status.busy = true) (v : Word) (c : Option Err) :
    s.issueLong v c = s.discardWrite := by
  unfold State.issueLong
  rw [h]
  rfl

theorem State.issueLong_accepted {s : State} (h : s.status.busy = false) (v : Word) :
    s.issueLong v none = (s.setLastOp (opField v)).accept v := by
  unfold State.issueLong
  rw [h]
  rfl

theorem State.issueLong_refused {s : State} (h : s.status.busy = false) (v : Word) (e : Err) :
    s.issueLong v (some e) = s.raiseError (opField v) e := by
  unfold State.issueLong
  rw [h]
  rfl

/-- What a long command's word can do when it is written to CMD: be discarded, be turned away, or be
accepted. -/
theorem State.issueLong_cases (s : State) (v : Word) (c : Option Err) :
    (s.status.busy = true ∧ s.issueLong v c = s.discardWrite) ∨
    (s.status.busy = false ∧ (∃ e, c = some e ∧ s.issueLong v c = s.raiseError (opField v) e)) ∨
    (s.status.busy = false ∧ c = none ∧
      s.issueLong v c = (s.setLastOp (opField v)).accept v) := by
  cases h : s.status.busy
  · cases c with
    | none => exact .inr (.inr ⟨rfl, rfl, State.issueLong_accepted h v⟩)
    | some e => exact .inr (.inl ⟨rfl, e, rfl, State.issueLong_refused h v e⟩)
  · exact .inl ⟨rfl, State.issueLong_busy h v c⟩

/-! ### What a command, a write and an event can do -/

/-- What a command can do when its word is written to CMD: be discarded, record an error, run as NOP or
CLEAR_FLAGS, reset the block, or leave itself pending with its check passed. -/
theorem exec_cases {i : Instr} {s t : State} (h : exec i s = .next t) :
    (s.status.busy = true ∧ i ≠ .softReset ∧ t = s.discardWrite) ∨
    (s.status.busy = false ∧ ∃ e, t = s.raiseError (opField (encode i)) e) ∨
    (s.status.busy = false ∧ i = .nop ∧ t = (s.setLastOp 0x0#4).setErr .ok) ∨
    (s.status.busy = false ∧ i = .clearFlags ∧
      t = ((s.setLastOp 0x4#4).setErr .ok).clearWriteWhileBusy) ∨
    (i = .softReset ∧ t = s.resetBlock.setLastOp 0xF#4) ∨
    (s.status.busy = false ∧ longCheck i s = some none ∧
      t = (s.setLastOp (opField (encode i))).accept (encode i)) := by
  cases i with
  | nop =>
    have ht := (Host.Outcome.next.inj h).symm
    cases hb : s.status.busy
    · exact .inr (.inr (.inl ⟨rfl, rfl, ht.trans (State.issueShort_idle hb _ _)⟩))
    · exact .inl ⟨rfl, by decide, ht.trans (State.issueShort_busy hb _ _)⟩
  | clearFlags =>
    have ht := (Host.Outcome.next.inj h).symm
    cases hb : s.status.busy
    · exact .inr (.inr (.inr (.inl ⟨rfl, rfl, ht.trans (State.issueShort_idle hb _ _)⟩)))
    · exact .inl ⟨rfl, by decide, ht.trans (State.issueShort_busy hb _ _)⟩
  | softReset => exact .inr (.inr (.inr (.inr (.inl ⟨rfl, (Host.Outcome.next.inj h).symm⟩))))
  | decode | merge o | evaluate =>
    have ht := (Host.Outcome.next.inj h).symm
    rcases s.issueLong_cases _ _ with ⟨hb, e⟩ | ⟨hb, x, -, e⟩ | ⟨hb, hc, e⟩
    · exact .inl ⟨hb, nofun, ht.trans e⟩
    · exact .inr (.inl ⟨hb, x, ht.trans e⟩)
    · exact .inr (.inr (.inr (.inr (.inr ⟨hb, congrArg some hc, ht.trans e⟩))))

/-- What a word written to CMD can do: what the command it encodes can do, be discarded, or record
ILLEGAL_CMD. -/
theorem writeCmd_cases {s t : State} {v : Word} (h : writeCmd v s = .next t) :
    (∃ i, decodeWord v = .ok i ∧ exec i s = .next t) ∨
    (s.status.busy = true ∧ t = s.discardWrite) ∨
    (s.status.busy = false ∧ t = s.raiseError (opField v) .illegalCmd) := by
  unfold writeCmd at h
  cases hd : decodeWord v with
  | ok i => exact .inl ⟨i, rfl, by rw [hd] at h; exact h⟩
  | error e =>
    rw [hd] at h
    have ht := (Host.Outcome.next.inj h).symm
    cases hb : s.status.busy <;> rw [hb] at ht
    · exact .inr (.inr ⟨rfl, ht⟩)
    · exact .inr (.inl ⟨rfl, ht⟩)

/-- What a write transaction can do besides writing CMD: be discarded, store a word of AUX or of a buffer
window, or nothing. -/
theorem writePort_cases {s t : State} {a : Addr} {v : Word} (h : writePort a v s = .next t) :
    (locate a = .cmd ∧ writeCmd v s = .next t) ∨
    (s.status.busy = true ∧ t = s.discardWrite) ∨
    (s.status.busy = false ∧ t = s.storeLoc v (locate a)) := by
  unfold writePort at h
  split at h
  · exact .inl ⟨‹_›, h⟩
  · have ht := (Host.Outcome.next.inj h).symm
    cases hb : s.status.busy <;> rw [hb] at ht
    · exact .inr (.inr ⟨rfl, ht⟩)
    · exact .inr (.inl ⟨rfl, ht⟩)

/-- What a location takes from a write while BUSY is 0. -/
theorem State.storeLoc_cases (s : State) (v : Word) (l : Loc) :
    s.storeLoc v l = s ∨ (∃ r, l = .aux r ∧ s.storeLoc v l = s.storeAux r v) ∨
    (∃ k, l = .ee k ∧ s.storeLoc v l = s.storeMem (eeBase + k) v) ∨
    (∃ i : Pixel, l = .pix i ∧ s.storeLoc v l = s.storeMem (pixBase + i.val) v) := by
  cases l <;> simp [State.storeLoc]

/-! ### What one EVALUATE writes -/

/-- Every entry of the pre-repair grid is its pixel's temperature. -/
theorem rawTemps_get (st : CalStore) (fs : FrameScalars) (raw : Nat → Half) (i : Pixel) :
    (rawTemps st fs raw).get i = pixelTemp st fs (raw i.val) i := Table.get_tab _ i

/-- Every TEMP word is what the host sees of the grid's entry. -/
theorem outputsOf_temp (d : Nat) (fs : FrameScalars) (g : Grid F32) (i : Pixel) :
    (outputsOf d fs g).temp.get i = F32.settle (d + i.val) (g.get i) := Table.get_tab _ i

theorem outputsOf_minTemp (d : Nat) (fs : FrameScalars) (g : Grid F32) :
    (outputsOf d fs g).minTemp = scanMin (outputsOf d fs g).temp := by
  simp only [outputsOf]

theorem outputsOf_maxTemp (d : Nat) (fs : FrameScalars) (g : Grid F32) :
    (outputsOf d fs g).maxTemp = scanMax (outputsOf d fs g).temp := by
  simp only [outputsOf]

/-- Every EV register shows the frame scalar of its name. -/
theorem outputsOf_shows (d : Nat) (fs : FrameScalars) (g : Grid F32) :
    let o := outputsOf d fs g
    F32.Shows o.evResCorr fs.resCorr ∧ F32.Shows o.evVdd fs.vdd ∧ F32.Shows o.evTa fs.ta ∧
      F32.Shows o.evKGain fs.kGain ∧ F32.Shows o.evCP0 fs.cp0 ∧ F32.Shows o.evCP1 fs.cp1 ∧
      F32.Shows o.evTaR fs.taR := by
  simp only [outputsOf]
  exact ⟨F32.shows_settle _ _, F32.shows_settle _ _, F32.shows_settle _ _, F32.shows_settle _ _,
    F32.shows_settle _ _, F32.shows_settle _ _, F32.shows_settle _ _⟩

/-- EVALUATE's completion step as one update of the state. -/
theorem completeEvaluate_eq (s : State) :
    completeEvaluate s =
      { s with
        out := outputsOf s.draws (frameScalars s.store s.aux)
          (finalGrid s.store (frameScalars s.store s.aux) s.raw)
        draws := s.draws + 775
        status :=
          { s.status with
            busy := false
            nonfinite := anyNonfinite (finalGrid s.store (frameScalars s.store s.aux) s.raw)
            outValid := true
            merged0 := false
            merged1 := false } } := by
  simp only [completeEvaluate, State.finish, evalDraws, nPix]

/-! ### What keeps the block's inputs, targets and PENDING -/

theorem State.SameBlock.refl (s : State) : s.SameBlock s := ⟨rfl, rfl, rfl, rfl, rfl, rfl, rfl⟩

theorem State.SameBlock.trans {s t u : State} (h : s.SameBlock t) (k : t.SameBlock u) :
    s.SameBlock u where
  mem := k.mem.trans h.mem
  aux := k.aux.trans h.aux
  auxValid := k.auxValid.trans h.auxValid
  store := k.store.trans h.store
  out := k.out.trans h.out
  pending := k.pending.trans h.pending
  badCap := k.badCap.trans h.badCap

theorem State.sameBlock_tick (s : State) : s.SameBlock s.tick :=
  ⟨rfl, rfl, rfl, rfl, rfl, rfl, rfl⟩
theorem State.sameBlock_setInputs (s : State) (es : List HostEvent) : s.SameBlock (s.setInputs es) :=
  ⟨rfl, rfl, rfl, rfl, rfl, rfl, rfl⟩
theorem State.sameBlock_observe (s : State) (a : Addr) : s.SameBlock (s.observe a) :=
  ⟨rfl, rfl, rfl, rfl, rfl, rfl, rfl⟩
theorem State.sameBlock_bindName (s : State) (name : String) (w : Word) :
    s.SameBlock (s.bindName name w) := ⟨rfl, rfl, rfl, rfl, rfl, rfl, rfl⟩
theorem State.sameBlock_judge (s : State) (ok : Bool) : s.SameBlock (s.judge ok) :=
  ⟨rfl, rfl, rfl, rfl, rfl, rfl, rfl⟩
theorem State.sameBlock_discardWrite (s : State) : s.SameBlock s.discardWrite :=
  ⟨rfl, rfl, rfl, rfl, rfl, rfl, rfl⟩

/-! ### One event -/

/-- A step takes the engine's completion when it is due, and the host's next event otherwise. -/
theorem step_due {s : State} (h : s.engineDue = true) : step s = .next (completePending s) := by
  unfold step
  rw [if_pos h]

theorem step_host {s : State} (h : s.engineDue = false) : step s = hostTurn s.tick := by
  unfold step
  rw [if_neg (by rw [h]; decide)]

/-- The first step of a run. -/
theorem run_succ {s t : State} (h : step s = .next t) (k : Nat) : core.run (k + 1) s = core.run k t := by
  have e : core.step s = .next t := h
  simp only [Host.Core.run, e]

/-- What a completion step can be: that of a long command, or of a word that is none (log 11). -/
theorem completePending_cases (s : State) :
    (decodeWord s.pending = .ok .decode ∧ completePending s = completeDecode s) ∨
    (∃ o, decodeWord s.pending = .ok (.merge o) ∧ completePending s = completeMerge o s) ∨
    (decodeWord s.pending = .ok .evaluate ∧ completePending s = completeEvaluate s) ∨
    completePending s = s.finish := by
  unfold completePending
  split
  · exact .inl ⟨‹_›, rfl⟩
  · exact .inr (.inl ⟨_, ‹_›, rfl⟩)
  · exact .inr (.inr (.inl ⟨‹_›, rfl⟩))
  all_goals exact .inr (.inr (.inr rfl))

/-- A completion step clears BUSY. -/
theorem completePending_busy (s : State) : (completePending s).status.busy = false := by
  rcases completePending_cases s with ⟨-, e⟩ | ⟨o, -, e⟩ | ⟨-, e⟩ | e <;> rw [e] <;> simp

/-- What an event of the outside world can do: nothing when there is none, a write, a read with what the
host makes of its value, or a reset. -/
theorem hostTurn_cases {s t : State} (h : hostTurn s = .next t) :
    (s.host.inputs = [] ∧ t = s) ∨
    (∃ a v es, s.host.inputs = .wr a v :: es ∧ writePort a v (s.setInputs es) = .next t) ∨
    (∃ a es, s.host.inputs = .rd a :: es ∧ t = (s.setInputs es).observe a) ∨
    (∃ a name es, s.host.inputs = .rdTo a name :: es ∧
      t = ((s.setInputs es).observe a).bindName name (s.readValue a)) ∨
    (∃ a v es, s.host.inputs = .expect a v :: es ∧
      t = ((s.setInputs es).observe a).judge (s.readValue a == v)) ∨
    (∃ es, s.host.inputs = .poll :: es ∧
      t = (s.setInputs (if pollAgain (s.readValue statusAddr) then .poll :: es else es)).observe
        statusAddr) ∨
    (∃ es, s.host.inputs = .hardReset :: es ∧ t = (s.setInputs es).resetBlock) := by
  unfold hostTurn at h
  split at h
  · exact .inl ⟨‹_›, (Host.Outcome.next.inj h).symm⟩
  · exact .inr (.inl ⟨_, _, _, ‹_›, h⟩)
  · exact .inr (.inr (.inl ⟨_, _, ‹_›, (Host.Outcome.next.inj h).symm⟩))
  · exact .inr (.inr (.inr (.inl ⟨_, _, _, ‹_›, (Host.Outcome.next.inj h).symm⟩)))
  · exact .inr (.inr (.inr (.inr (.inl ⟨_, _, _, ‹_›, (Host.Outcome.next.inj h).symm⟩))))
  · exact .inr (.inr (.inr (.inr (.inr (.inl ⟨_, ‹_›, (Host.Outcome.next.inj h).symm⟩)))))
  · exact .inr (.inr (.inr (.inr (.inr (.inr ⟨_, ‹_›, (Host.Outcome.next.inj h).symm⟩)))))

end Sys2Proof.Machine
end

