-- ==== Sys2Proof/Laws/PerInstr.lean ====
section
/-! SUPPORT. One law for all commands, proved constructor by constructor: the encoding of every command
keeps the reserved bits 31:5 at 0 (R100), and its bits 3:0 are its opcode (R101). -/

namespace Sys2Proof.Laws.EncodingFields

/-- The opcode of a command (R101). -/
def opcode : Instr → Nat
  | .nop => 0x0
  | .decode => 0x1
  | .merge _ => 0x2
  | .evaluate => 0x3
  | .clearFlags => 0x4
  | .softReset => 0xF

def Statement (i : Instr) : Prop :=
  (encode i).toNat % 16 = opcode i ∧ (encode i).toNat < 32

theorem nop : Statement .nop := ⟨by decide, by decide⟩
theorem decode : Statement .decode := ⟨by decide, by decide⟩
theorem evaluate : Statement .evaluate := ⟨by decide, by decide⟩
theorem clearFlags : Statement .clearFlags := ⟨by decide, by decide⟩
theorem softReset : Statement .softReset := ⟨by decide, by decide⟩

theorem merge (o : Nat) : Statement (.merge o) := by
  simp only [Statement, encode, opcode]
  rcases Nat.mod_two_eq_zero_or_one o with h | h <;> rw [h] <;> decide

end Sys2Proof.Laws.EncodingFields
end

