-- ==== Sys2Proof/Laws/Script.lean ====
section
/-! SUPPORT. What the host's procedures issue: the tests of the start-up, and when a frame is abandoned. -/

namespace Sys2Proof.Machine

/-! ### The start-up procedure (R334) -/

/-- The field at bits 11:8, and the bit at position 1, of a word put together as STATUS is (R34). -/
theorem extract_err (h : BitVec 20) (e : BitVec 4) (l : BitVec 8) :
    (h ++ e ++ l).extractLsb' 8 4 = e := by
  apply BitVec.eq_of_getLsbD_eq
  intro i hi
  simp only [BitVec.getLsbD_extractLsb', BitVec.getLsbD_append, hi]
  simp [show ¬ (8 + i < 8) by omega, hi]

theorem getLsbD_calValid (h : BitVec 24) (l : BitVec 6) (c b : Bool) :
    (h ++ (l ++ BitVec.ofBool c ++ BitVec.ofBool b) : BitVec 32).getLsbD 1 = c := by
  simp only [BitVec.getLsbD_append]
  cases c <;> simp

/-- Step 7's test of a STATUS word says what its two fields are. -/
theorem calibrationTaken_word (t : Status) :
    calibrationTaken t.word = true ↔ t.err = .ok ∧ t.calValid = true := by
  have h1 : t.word.extractLsb' 8 4 = t.err.code := extract_err (0#16 ++ t.lastOp) t.err.code _
  have h2 : t.word.getLsbD 1 = t.calValid := getLsbD_calValid _ _ _ _
  unfold calibrationTaken
  rw [h1, h2, Bool.and_eq_true, beq_iff_eq]
  cases t.err <;> simp [Err.code]

/-- What the host's start-up procedure can come to: only a session whose requirements hold is ready. -/
theorem startupNext_ready {p : StartupPlan} {h : HostSide} {g : StartupStage}
    (hr : (startupNext p h g).2 = .ready) :
    g = .ready ∨ (g = .decode ∧ h.calibrationRequired = true) := by
  cases g <;> simp only [startupNext] at hr
  · cases hr
  · split at hr
    · split at hr <;> cases hr
    · cases hr
  · split at hr
    · exact .inr ⟨rfl, ‹_›⟩
    · cases hr
  · exact .inl rfl
  · cases hr

theorem wordsOfDump_length : ∀ (n : Nat) (bs : List (BitVec 8)), bs.length = 2 * n →
    (wordsOfDump bs).length = n
  | 0, [], _ => rfl
  | n + 1, b0 :: b1 :: bs, h => by
    have := wordsOfDump_length n bs (by simp only [List.length_cons] at h; omega)
    simp only [wordsOfDump, List.length_cons, this]
  | 0, _ :: _, h => by simp at h
  | n + 1, [], h => by simp at h
  | n + 1, [_], h => by simp only [List.length_cons, List.length_nil] at h; omega

/-- Only the bytes of 832 words are taken as an image, so the script that loads it is well formed. -/
theorem startupScript_wellFormed {p : StartupPlan} {dump : List (BitVec 8)} (h : p.image = some dump) :
    (startupScript dump).all Statement.wellFormed = true := by
  have hl : dump.length = 2 * 832 := by
    unfold StartupPlan.image at h
    simpa [eeWords] using (Option.filter_eq_some_iff.mp h).2
  have hw : (wordsOfDump dump).length = 832 := wordsOfDump_length 832 dump hl
  simp [startupScript, Statement.wellFormed, Instr.wellFormed, hw]

/-! ### The frame procedure (R203) -/

theorem HostPart.andThen_done (p q : HostPart) : (p.andThen q).done = (p.done && q.done) := by
  unfold HostPart.andThen
  cases h : p.done
  · exact h
  · rfl

/-- Every statement of two parts is one of the first or of the second. -/
theorem HostPart.mem_andThen {p q : HostPart} {x : Statement} (h : x ∈ (p.andThen q).script) :
    x ∈ p.script ∨ x ∈ q.script := by
  unfold HostPart.andThen at h
  split at h
  · exact List.mem_append.mp h
  · exact .inl h

theorem HostPart.andThen_script {p : HostPart} (h : p.done = true) (q : HostPart) :
    (p.andThen q).script = p.script ++ q.script := by
  unfold HostPart.andThen
  rw [if_pos h]

/-- Copying words comes to its end exactly when no read fails. -/
theorem copyWords_done (rs : List (Nat × Option Half)) :
    (copyWords rs).done = true ↔ ∀ r ∈ rs, r.2.isSome = true := by
  induction rs with
  | nil => simp [copyWords, HostPart.of, HostPart.done]
  | cons r rs ih =>
    have e : copyWords (r :: rs) = (copyWord r.1 r.2).andThen (copyWords rs) := rfl
    rw [e, HostPart.andThen_done, Bool.and_eq_true, ih]
    obtain ⟨a, w⟩ := r
    cases w <;> simp [copyWord, HostPart.of, HostPart.done]

/-- Copying words issues writes and nothing else. -/
theorem copyWords_writes (rs : List (Nat × Option Half)) :
    ∀ x ∈ (copyWords rs).script, ∃ a v, x = .wr a v := by
  induction rs with
  | nil => simp [copyWords, HostPart.of]
  | cons r rs ih =>
    intro x hx
    have e : copyWords (r :: rs) = (copyWord r.1 r.2).andThen (copyWords rs) := rfl
    rw [e] at hx
    rcases HostPart.mem_andThen hx with h | h
    · obtain ⟨a, w⟩ := r
      cases w with
      | none => cases h
      | some w => exact ⟨_, _, List.mem_singleton.mp h⟩
    · exact ih x h

/-- The AUX words copied with no failure are what LOADAUX writes (R108). -/
theorem auxPart_complete (x : AuxBank) :
    expandAll
        (auxPart ⟨some x.vbe, some x.cpSp0, some x.gain, some x.ptat, some x.cpSp1, some x.vdd,
          some x.ctrl⟩).script =
      expand (.loadAux x.vbe x.cpSp0 x.gain x.ptat x.cpSp1 x.vdd x.ctrl) := rfl

/-- A subpage's part issues writes, the MERGE of its own offset, and SOFT_RESET where a bound ran out, and
nothing else. -/
theorem subpagePart_statements {o : Nat} {m : Measurement} {x : Statement}
    (h : x ∈ (subpagePart o m).script) :
    (∃ a v, x = .wr a v) ∨ x = .run (.merge o) ∨ (x = .cmd .softReset ∧ m.wait = .boundReached) := by
  rcases HostPart.mem_andThen h with h | h
  · rcases HostPart.mem_andThen h with h | h
    · unfold newDataPart at h
      split at h
      · cases h
      · cases h
      · exact .inr (.inr ⟨List.mem_singleton.mp h, ‹_›⟩)
    · exact .inl (copyWords_writes _ x h)
  · exact .inr (.inl (List.mem_singleton.mp h))

/-- A subpage's part that comes to its end has issued its MERGE. -/
theorem subpagePart_merges {o : Nat} {m : Measurement} (h : (subpagePart o m).done = true) :
    .run (.merge o) ∈ (subpagePart o m).script := by
  unfold subpagePart at *
  rw [HostPart.andThen_done, Bool.and_eq_true] at h
  rw [HostPart.andThen_script h.1]
  exact List.mem_append_right _ (List.mem_singleton.mpr rfl)

/-- Before EVALUATE a frame issues writes, MERGEs and SOFT_RESET, and nothing else. -/
theorem framePrefix_statements {f : FrameReads} {x : Statement} (h : x ∈ (framePrefix f).script) :
    (∃ a v, x = .wr a v) ∨ (∃ o, x = .run (.merge o)) ∨ x = .cmd .softReset := by
  unfold framePrefix at h
  split at h
  · rcases HostPart.mem_andThen h with h | h
    · rcases HostPart.mem_andThen h with h | h
      · exact (subpagePart_statements h).imp id (.imp (fun e => ⟨_, e⟩) And.left)
      · exact (subpagePart_statements h).imp id (.imp (fun e => ⟨_, e⟩) And.left)
    · exact .inl (copyWords_writes _ x h)
  · cases h

/-- An abandoned frame issues no EVALUATE. -/
theorem frameScript_abandoned {f : FrameReads} (h : (framePrefix f).done = false) :
    .run .evaluate ∉ frameScript f := by
  intro hx
  unfold frameScript framePart HostPart.andThen at hx
  rw [h] at hx
  rcases framePrefix_statements hx with ⟨a, v, e⟩ | ⟨o, e⟩ | e <;> cases e

/-- A frame that is not abandoned issues both MERGEs before its EVALUATE. -/
theorem frameScript_complete {f : FrameReads} (h : (framePrefix f).done = true) :
    frameScript f = (framePrefix f).script ++ resultScript ∧
      .run (.merge 0) ∈ (framePrefix f).script ∧ .run (.merge 1) ∈ (framePrefix f).script := by
  refine ⟨HostPart.andThen_script h _, ?_⟩
  unfold framePrefix at *
  cases hs : f.status with
  | none =>
    rw [hs] at h
    cases h
  | some s =>
    rw [hs] at h
    dsimp only at h ⊢
    rw [HostPart.andThen_done, Bool.and_eq_true] at h
    have h2 := h.1
    rw [HostPart.andThen_done, Bool.and_eq_true] at h2
    rw [HostPart.andThen_script h.1, HostPart.andThen_script h2.1]
    have m1 := subpagePart_merges h2.1
    have m2 := subpagePart_merges h2.2
    have hb : subpageId s = 0 ∨ subpageId s = 1 := by
      unfold subpageId
      omega
    rcases hb with e | e <;> rw [e] at m1 m2 ⊢ <;> simp_all [List.mem_append]

end Sys2Proof.Machine
end

