-- ==== Sys2Proof/Tests/Slice0.lean ====
section
/-! SUPPORT. The model's own tests: words written out from the spec's encodings, the spec's worked values
(95), an ill-formed term for each well-formedness check, and for every statement with hypotheses a state
and operands that meet them. -/

namespace Sys2Proof.Tests

open Sys2Proof Machine

/-! ### Decoding: words from the table of R101, and illegal ones from 95, 3.4.1 -/

theorem test_decode_nop : decodeWord 0b00000000000000000000000000000000#32 = .ok .nop := by decide
theorem test_decode_decode : decodeWord 0b00000000000000000000000000000001#32 = .ok .decode := by decide
theorem test_decode_merge0 : decodeWord 0b00000000000000000000000000000010#32 = .ok (.merge 0) := by decide
theorem test_decode_merge1 : decodeWord 0b00000000000000000000000000010010#32 = .ok (.merge 1) := by decide
theorem test_decode_evaluate : decodeWord 0b00000000000000000000000000000011#32 = .ok .evaluate := by decide
theorem test_decode_clearFlags :
    decodeWord 0b00000000000000000000000000000100#32 = .ok .clearFlags := by decide
theorem test_decode_softReset :
    decodeWord 0b00000000000000000000000000001111#32 = .ok .softReset := by decide
theorem test_decode_reservedOp : decodeWord 0x00000005#32 = .error .reservedOp := by decide
theorem test_decode_bit4 : decodeWord 0x0000001F#32 = .error .reservedBit := by decide
theorem test_decode_bit5 : decodeWord 0x00000022#32 = .error .reservedBit := by decide
theorem test_decode_bit31 : decodeWord 0x80000003#32 = .error .reservedBit := by decide
theorem test_tableWord_drops_high_bits : decodeTableWord 8 0x112 = some (.merge 1) := by decide

/-! ### Well-formedness: what each check refuses -/

theorem test_wf_refuses_merge2 : (Instr.merge 2).wellFormed = false := by decide
theorem test_wf_refuses_cmd_merge2 : (Statement.cmd (.merge 2)).wellFormed = false := by decide
theorem test_wf_refuses_run_merge5 : (Statement.run (.merge 5)).wellFormed = false := by decide
theorem test_wf_refuses_short_ee : (Statement.loadEE [0#16]).wellFormed = false := by decide
theorem test_wf_refuses_short_pix : (Statement.loadPix []).wellFormed = false := by decide
theorem test_wf_takes_merge1 : (Instr.merge 1).wellFormed = true := by decide

/-! ### The image of 95, 2.1, and its AUX words (2.4) -/

def headA : List Half :=
  [0x4231#16, 0xFFC4#16, 0x10FE#16, 0x0FE2#16, 0xFE21#16, 0xE210#16, 0x210F#16, 0x80FE#16, 0x0FED#16,
    0xD321#16, 0x10FE#16, 0xED32#16, 0x210F#16, 0xFED3#16, 0x3210#16, 0x7FED#16, 0x6321#16, 0x2EE0#16,
    0xF10F#16, 0x0F10#16, 0x10F1#16, 0xF10F#16, 0x0F10#16, 0x10F1#16]
    ++ List.replicate 8 0x10FE#16
    ++ [0x18EF#16, 0x2FF1#16, 0x5950#16, 0x9D68#16, 0x4332#16, 0x0000#16, 0x3432#16, 0x3331#16, 0x2351#16,
      0x1023#16, 0x0FC4#16, 0x0428#16, 0xF801#16, 0x9797#16, 0x9998#16, 0x2789#16]

def imageA : Image := fun k =>
  if k < 16 then 0#16
  else if k < 64 then headA.getD (k - 16) 0#16
  else
    let p := k - 64
    BitVec.ofNat 16
      (7 * p % 64 * 1024 + 5 * p % 64 * 16 + p % 8 * 2 + if p ∈ [0, 33, 65, 767] then 1 else 0)

def auxA : AuxBank := ⟨0x4FB0#16, 0xFFC9#16, 0x189C#16, 0x06A4#16, 0xFFCC#16, 0xCCD4#16, 0x1901#16⟩

def storeA : CalStore := decodeStore 4 imageA

/-- 95, 3.1.1. -/
theorem test_store_integers :
    (storeA.kVdd, storeA.vdd25, storeA.vPtat25, storeA.gain, storeA.ct3, storeA.ct4) =
      (-3168, -13056, 12273, 6383, 160, 300) := by decide
theorem test_store_scaled :
    (storeA.kVPtat, storeA.kTPtat, storeA.alphaPtat, storeA.ksTa, storeA.tgc) =
      (0x3BB00000#32, 0x42280000#32, 0x41100000#32, 0xBA800000#32, 0x3D000000#32) := by decide +kernel
theorem test_store_cp :
    (storeA.aCP0, storeA.aCP1, storeA.offCP0, storeA.offCP1, storeA.kVCP, storeA.kTaCP) =
      (0x318C0000#32, 0x31906000#32, -60, -57, 0x3F000000#32, 0x3BA00000#32) := by decide +kernel
theorem test_store_ranges :
    (storeA.ksTo.vals, storeA.alphaCorr.vals) =
      ([0xBA520000#32, 0xBA520000#32, 0xBA500000#32, 0xBA4E0000#32],
        [0x3F843CC2#32, 0x3F800000#32, 0x3F5F3000#32, 0x3F46651B#32]) := by decide +kernel
theorem test_store_bad : storeA.badPixels = [0, 33, 65, 767] := by decide +kernel

/-- 95, 3.1.2, pixels 33 and 767. -/
theorem test_store_pixel33 :
    (storeA.pixOsRef.get 33, storeA.a.get 33, storeA.kV.get 33, storeA.kTa.get 33, storeA.pattern.get 33) =
      (-130, 0x343A9800#32, 0x3E800000#32, 0x3BCC0000#32, 0) := by decide +kernel
theorem test_store_pixel767 :
    (storeA.pixOsRef.get 767, storeA.a.get 767, storeA.kV.get 767, storeA.kTa.get 767) =
      (-50, 0x343B8800#32, 0x3E800000#32, 0x3BBC0000#32) := by decide +kernel

/-- 95, 3.3.1. -/
theorem test_frame_scalars :
    frameScalars storeA auxA =
      { resCorr := 0x3F800000#32, vdd := 0x405416C1#32, ta := 0x41EFD4E8#32, kGain := 0x3F81AFB5#32
        dTa := F32.sub 0x41EFD4E8#32 F32.c25, dV := F32.sub 0x405416C1#32 F32.c3_3
        cp0 := 0x40C525D8#32, cp1 := 0x40C36558#32, taR := 0x4FFBA0E7#32 } := by decide +kernel

/-- The frame scalars of 95, 3.3.1, as words. -/
def scalarsA : FrameScalars :=
  { resCorr := 0x3F800000#32, vdd := 0x405416C1#32, ta := 0x41EFD4E8#32, kGain := 0x3F81AFB5#32
    dTa := F32.sub 0x41EFD4E8#32 F32.c25, dV := F32.sub 0x405416C1#32 F32.c3_3
    cp0 := 0x40C525D8#32, cp1 := 0x40C36558#32, taR := 0x4FFBA0E7#32 }

/-- 95, 3.3.2: one pixel of each range, and the NaN pixel of 3.3.5. -/
theorem test_pixel200_range0 : pixelTemp storeA scalarsA 0xFD48#16 200 = 0xC0F8F040#32 := by decide +kernel
theorem test_pixel0_range1 : pixelTemp storeA scalarsA 0x0008#16 0 = 0x420D62E8#32 := by decide +kernel
theorem test_pixel300_range2 : pixelTemp storeA scalarsA 0x1D10#16 300 = 0x43600C4A#32 := by decide +kernel
theorem test_pixel400_range3 : pixelTemp storeA scalarsA 0x6144#16 400 = 0x43CB3E95#32 := by decide +kernel
theorem test_pixel500_nan : F32.isNaN (pixelTemp storeA scalarsA 0xF3F4#16 500) = true := by decide +kernel

/-- E8: the range selection at its boundaries, with `CT3 = 160` and `CT4 = 300`. -/
theorem test_range_boundaries :
    [0xBF800000#32, 0x80000000#32, 0x00000000#32, 0x431FFFFF#32, 0x43200000#32, 0x4395FFFF#32,
      0x43960000#32, 0x7FC00000#32].map (rangeOf storeA) = [0, 1, 1, 1, 2, 2, 3, 3] := by decide +kernel

/-- 95, 3.3.4: the mean of a corner pixel and of pixel 65. -/
theorem test_mean_corner : meanOf [0x4213DCD8#32, 0x420E4218#32] = 0x42110F78#32 := by decide +kernel
theorem test_mean_interior :
    meanOf [0x42113E06#32, 0x4213AEC8#32, 0x42197DF0#32, 0x420E1590#32] = 0x42132014#32 := by
  decide +kernel
theorem test_neighbours : neighbours 65 = [33, 97, 64, 66] ∧ neighbours 767 = [735, 766] := by decide

/-- E12: the resolution correction. -/
theorem test_resolution_correction :
    stResCorr { storeA with resolution := 2 } { auxA with ctrl := 0x1101#16 } = 0x40800000#32 ∧
      stResCorr { storeA with resolution := 0 } { auxA with ctrl := 0x1D01#16 } = 0x3E000000#32 := by
  decide +kernel

/-- Rounding: `1 + 2^-24` is a tie and goes to the even neighbour, `1 + 3·2^-24` is a tie and goes up, the
largest finite value doubled is an infinity, and the least value halved is a tie that goes to 0. -/
theorem test_rounding :
    F32.add 0x3F800000#32 0x33800000#32 = 0x3F800000#32 ∧
      F32.add 0x3F800001#32 0x33800000#32 = 0x3F800002#32 ∧
      F32.mul 0x7F7FFFFF#32 0x40000000#32 = 0x7F800000#32 ∧
      F32.div 0x00000001#32 0x40000000#32 = 0x00000000#32 := by decide +kernel

/-! ### States for the tests -/

/-- Memory with `n` words listed from address `b` on. -/
@[irreducible] def filled (b n : Nat) : Memory := (List.range n).map fun k => (b + k, BitVec.ofNat 16 k)

theorem filled_listed (b n k : Nat) (h : k < n) : (filled b n).listed (b + k) = true := by
  unfold filled
  exact Memory.listed_iff.mpr ⟨_, List.mem_map_of_mem (List.mem_range.mpr h), rfl⟩

/-- A state with the given buffers. -/
def withMem (m : Memory) : State := { State.reset with mem := m }

/-- A state with the given STATUS. -/
def withStatus (t : Status) : State := { State.reset with status := t }

def calibrated : Status := { Status.cleared with calValid := true }
def merged : Status := { calibrated with merged0 := true, merged1 := true }
def auxAll : AuxValid := ⟨true, true, true, true, true, true, true⟩

/-- A block with the command word `v` pending for `n` events more. -/
def busyWith (v : Word) (n : Nat) : State :=
  { State.reset with
    status := { Status.cleared with busy := true }, pending := v, busyLeft := n }

/-- The STATUS word after a step's outcome. -/
def statusAfter : Host.Outcome State Fault Refusal → Option Word
  | .next t => some t.status.word
  | .fault _ => none
  | .refused _ => none

/-- The example of R280. -/
theorem test_nop_example :
    statusAfter (exec .nop (withStatus { calibrated with err := .frameIncomplete, lastOp := 3#4 })) =
      some 0x00000002#32 := by decide
/-- The example of R281. -/
theorem test_clearFlags_example :
    statusAfter (exec .clearFlags
      (withStatus { calibrated with badOverflow := true, writeWhileBusy := true, lastOp := 1#4 })) =
      some 0x00004022#32 := by decide
/-- The example of R282. -/
theorem test_softReset_example :
    statusAfter (exec .softReset
      (withStatus { calibrated with busy := true, lastOp := 3#4 })) = some 0x0000F000#32 := by decide
/-- 95, 3.1.5 and 3.4.2. -/
theorem test_decode_refused : statusAfter (exec .decode State.reset) = some 0x00001200#32 := by
  decide +kernel
theorem test_decode_accepted :
    statusAfter (exec .decode (withMem (filled 0x0400 832))) = some 0x00001001#32 := by
  have h : decodeCheck (withMem (filled 0x0400 832)) = none :=
    (decodeCheck_eq_none _).mpr fun k hk => filled_listed _ _ k hk
  unfold exec execDecode
  rw [h]
  decide
theorem test_merge_refused : statusAfter (exec (.merge 0) State.reset) = some 0x00002300#32 := by decide
theorem test_merge_accepted :
    statusAfter (exec (.merge 1) (withMem (filled 0x0800 768))) = some 0x00002001#32 := by
  have h : mergeCheck 1 (withMem (filled 0x0800 768)) = none :=
    (mergeCheck_eq_none _ _).mpr fun i hi _ => filled_listed _ _ i hi
  unfold exec
  dsimp only
  unfold execMerge
  rw [h]
  decide
theorem test_evaluate_refused : statusAfter (exec .evaluate State.reset) = some 0x00003400#32 := by decide
theorem test_evaluate_accepted :
    statusAfter (exec .evaluate { withStatus merged with auxValid := auxAll }) = some 0x0000301B#32 := by
  decide
/-- The example of R200: `MERGE 0` copies `PIX[0]` and leaves `RAW[1]` alone. -/
theorem test_merge_copies :
    let t := completeMerge 0 { busyWith 2#32 0 with mem := [(0x0800, 8#16), (0x0801, 0x23#16)] }
    t.mem.lookup 0x0C00 = some 8#16 ∧ t.mem.lookup 0x0C01 = none ∧ t.status.word = 0x00000008#32 := by
  refine ⟨?_, ?_, by decide⟩
  · unfold completeMerge State.finish
    rw [Memory.lookup_copies _ fun _ => lt_of_mem_subIndices,
      if_pos ⟨by decide, (mem_subIndices _ _).mpr (by decide)⟩]
    decide
  · unfold completeMerge State.finish
    rw [Memory.lookup_copies _ fun _ => lt_of_mem_subIndices,
      if_neg fun h => absurd ((mem_subIndices _ _).mp h.2) (by decide)]
    decide

/-- R33, R301: an illegal word written to CMD. -/
theorem test_illegal_word : statusAfter (writePort 1#16 0x22#32 State.reset) = some 0x00002100#32 := by
  decide
/-- R82: a write while BUSY is 1. -/
theorem test_write_while_busy :
    statusAfter (writePort 0x10#16 5#32 (busyWith 1#32 3)) = some 0x00000081#32 := by decide
theorem test_reset_runs_fetched_word :
    statusAfter (step (State.reset.withFetchWord 32 4)) = some 0x00004000#32 := by decide

/-! ### The start-up procedure (R334) -/

/-- The stage and STATUS of a start-up. -/
def stageAfter : Host.Outcome (StartupStage × State) Fault Refusal → Option (StartupStage × Word)
  | .next q => some (q.1, q.2.status.word)
  | .fault _ => none
  | .refused _ => none

/-- Steps 1, 2 and 4, with either reset, from a block that is calibrated: after the reset and the read of ID,
a host whose block read failed stops. -/
theorem test_startup_stops_without_dump :
    stageAfter (startupRun ⟨.input, none, true⟩ 3 .start (withStatus calibrated)) =
        some (.stopped, 0x00000000#32) ∧
      stageAfter (startupRun ⟨.command, none, true⟩ 3 .start (withStatus calibrated)) =
        some (.stopped, 0x0000F000#32) := by decide
/-- Step 2: another ID stops the host. -/
theorem test_startup_requires_id :
    (startupNext ⟨.input, some [], true⟩ { HostSide.start with bindings := [("id", 0x54430002#32)] }
      .identify).2 = .stopped := by decide
/-- Step 7: of the STATUS words, the one 95 gives after DECODE of its image lets the host go on; the one it
gives for EE_INCOMPLETE, an error code beside CAL_VALID, and CAL_VALID 0 stop it. -/
theorem test_startup_requires_calibration :
    [0x00001002#32, 0x00001200#32, 0x00001202#32, 0x00001000#32].map calibrationTaken =
      [true, false, false, false] := by decide
/-- Step 3: a block read that gave another number of bytes than that of 832 words counts as failed. -/
theorem test_startup_short_image :
    stageAfter (startupRun ⟨.input, some [1#8, 2#8], true⟩ 3 .start State.reset) =
      some (.stopped, 0x00000000#32) := by decide

/-! ### The frame procedure (R203) -/

/-- What a sensor gives whose reads all succeed, and the same with one failed read in the second
measurement. -/
def allRead : Measurement := ⟨.newData, Table.fill nPix (some 8#16)⟩
def auxRead : AuxReads :=
  ⟨some 1#16, some 2#16, some 3#16, some 4#16, some 5#16, some 6#16, some 7#16⟩
def wholeFrame : FrameReads := ⟨some 0x0009#16, allRead, allRead, auxRead⟩
def brokenFrame : FrameReads :=
  { wholeFrame with second := { allRead with pixels := allRead.pixels.set 2 none } }

/-- The subpage id is the low bit, here 1: the frame starts with `SUB(1)` and MERGE 1, and goes on to
MERGE 0, the AUX words and EVALUATE. -/
theorem test_frame_order :
    (frameScript wholeFrame)[0]? = some (.wr 0x0801#16 8#32) ∧
      (frameScript wholeFrame)[384]? = some (.run (.merge 1)) ∧
      (frameScript wholeFrame)[385]? = some (.wr 0x0800#16 8#32) ∧
      (frameScript wholeFrame)[769]? = some (.run (.merge 0)) ∧
      (frameScript wholeFrame)[777]? = some (.run .evaluate) ∧
      (frameScript wholeFrame).length = 777 + 1 + 770 := by decide +kernel
/-- A read of the second measurement fails: one word is left written, and the frame ends there; the next
frame starts anew. -/
theorem test_frame_abandoned :
    (framePrefix brokenFrame).done = false ∧ (frameScript brokenFrame).length = 386 ∧
      (framesScript [brokenFrame, wholeFrame])[386]? = some (.wr 0x0801#16 8#32) := by decide +kernel
/-- R282: a host whose bound on the first wait runs out resets the block, and no frame follows. -/
theorem test_frame_bound_reached :
    framesScript [{ wholeFrame with first := { allRead with wait := .boundReached } }, wholeFrame] =
      [.cmd .softReset] := by decide +kernel

/-! ### The address map at its boundaries (R71) -/

theorem test_map_registers :
    [0x0000#16, 0x0001#16, 0x0002#16, 0x0003#16, 0x000F#16, 0x0010#16, 0x0016#16, 0x0017#16, 0x0020#16,
      0x0021#16, 0x0022#16, 0x0023#16, 0x0027#16, 0x0028#16, 0x002F#16, 0x0030#16, 0x0036#16, 0x0037#16,
      0x0040#16, 0x0059#16, 0x005A#16].map locate =
    [.id, .cmd, .status, .reserved, .reserved, .aux .vbe, .aux .ctrl, .reserved, .minTemp, .maxTemp,
      .badCount, .reserved, .reserved, .badIdx 0, .badIdx 7, .ev .resCorr, .ev .taR, .reserved,
      .cal .kVdd, .cal (.alphaCorr 3), .reserved] := by decide
theorem test_map_windows :
    [0x03FF#16, 0x0400#16, 0x073F#16, 0x0740#16, 0x07FF#16, 0x0800#16, 0x0AFF#16, 0x0B00#16, 0x0C00#16,
      0x0EFF#16, 0x0F00#16, 0x1000#16, 0x12FF#16, 0x1300#16, 0x1400#16, 0x16FF#16, 0x1700#16].map locate =
    [.reserved, .ee 0, .ee 831, .reserved, .reserved, .pix 0, .pix 767, .reserved, .raw 0, .raw 767,
      .reserved, .temp 0, .temp 767, .reserved, .pixOsRef 0, .pixOsRef 767, .reserved] := by decide
theorem test_map_windows_high :
    [0x1800#16, 0x1AFF#16, 0x1B00#16, 0x1C00#16, 0x1EFF#16, 0x1F00#16, 0x2000#16, 0x22FF#16, 0x2300#16,
      0x2400#16, 0x26FF#16, 0x2700#16, 0xFFFF#16].map locate =
    [.a 0, .a 767, .reserved, .kV 0, .kV 767, .reserved, .kTa 0, .kTa 767, .reserved, .pattern 0,
      .pattern 767, .reserved, .reserved] := by decide

/-! ### Witnesses: the hypotheses of the statements can be met -/

theorem witness_LegalCommandWords : legalWord 0x12#32 ∧ ¬ legalWord 0x22#32 ∧ ¬ legalWord 0x5#32 := by
  unfold legalWord
  decide
theorem witness_DecodeEncodeAgree :
    (Instr.merge 1).wellFormed = true ∧ decodeWord 0x12#32 = .ok (.merge 1) := by decide
theorem witness_StepRunsDecodedCommand :
    let s := State.reset.setInputs [.wr 0x0001#16 0x12#32]
    decodeWord 0x12#32 = .ok (.merge 1) ∧ s.engineDue = false ∧
      s.host.inputs = .wr 0x0001#16 0x12#32 :: [] := by decide
/-- A write to another address than CMD's, and an illegal word to CMD. -/
theorem witness_StepRunsDecodedCommand_otherWrites :
    let s := State.reset.setInputs [.wr 0x0800#16 5#32]
    let u := State.reset.setInputs [.wr 0x0001#16 0x22#32]
    (s.engineDue = false ∧ s.host.inputs = .wr 0x0800#16 5#32 :: []) ∧
      (u.engineDue = false ∧ u.host.inputs = .wr 0x0001#16 0x22#32 :: []) ∧
      statusAfter (step u) = some 0x00002100#32 := by decide
theorem witness_EngineCompletesPending :
    [0x1#32, 0x2#32, 0x12#32, 0x3#32].all
      (fun v => (busyWith v 0).status.busy && decide ((busyWith v 0).busyLeft = 0) &&
        ((busyWith v 0).pending == v)) = true ∧
      statusAfter (step (busyWith 0x3#32 0)) ≠ none := by decide +kernel
theorem witness_short_commands :
    State.reset.status.busy = false ∧ (busyWith 1#32 3).status.busy = true ∧
      (withStatus { calibrated with badOverflow := true, writeWhileBusy := true, lastOp := 1#4 }).status.word
        = 0x000010A2#32 ∧
      (withStatus { calibrated with err := .frameIncomplete, lastOp := 3#4 }).status.word =
        0x00003502#32 := by decide
theorem witness_SoftResetClearsBlock :
    (0x1F#32 : Word).toNat % 16 = 0xF ∧ (0x1F#32 : Word) ≠ 0x0000000F#32 := by decide
theorem witness_IllegalWordRecorded : State.reset.status.busy = false ∧ ¬ legalWord 0x80000003#32 := by
  unfold legalWord
  decide
theorem witness_BusyPortRules :
    (busyWith 1#32 3).status.busy = true ∧ ¬((0x0010#16 : Addr) = 0x0001#16 ∧ (5#32 : Word) = 0xF#32) ∧
      ¬((0x0001#16 : Addr) = 0x0001#16 ∧ (0x1F#32 : Word) = 0xF#32) ∧
      (0x0001#16 : Addr) ≠ 0x0000#16 ∧ (0x0001#16 : Addr) ≠ 0x0002#16 := by decide
theorem witness_RefusedOnMissingWords :
    State.reset.status.busy = false ∧ State.reset.eeValid 831 = false ∧
      (767 / 32 + 767 % 32) % 2 = 0 % 2 ∧ State.reset.pixValid 767 = false ∧
      (766 / 32 + 766 % 32) % 2 = 1 % 2 ∧ State.reset.pixValid 766 = false := by decide
theorem witness_EvaluateRefusedInOrder :
    State.reset.status.calValid = false ∧
      ((withStatus calibrated).status.calValid = true ∧ (withStatus calibrated).status.merged0 = false) ∧
      ((withStatus merged).status.merged0 = true ∧ (withStatus merged).status.merged1 = true ∧
        (withStatus merged).auxValid.get .vbe = false) ∧
      (withStatus merged).status.busy = false := by decide
theorem witness_DecodeAcceptedAndCompletes :
    (withMem (filled 0x0400 832)).status.busy = false ∧
      ∀ k, k < 832 → (withMem (filled 0x0400 832)).eeValid k = true :=
  ⟨rfl, fun k hk => filled_listed _ _ k hk⟩
theorem witness_MergeAcceptedAndCompletes :
    (withMem (filled 0x0800 768)).status.busy = false ∧ 1 < 2 ∧
      ∀ idx, idx < 768 → (idx / 32 + idx % 32) % 2 = 1 →
        (withMem (filled 0x0800 768)).pixValid idx = true :=
  ⟨rfl, by decide, fun i hi _ => filled_listed _ _ i hi⟩
theorem witness_EvaluateAcceptedAndCompletes :
    let s := { withStatus merged with auxValid := auxAll }
    s.status.busy = false ∧ s.status.calValid = true ∧ s.status.merged0 = true ∧
      s.status.merged1 = true ∧ ∀ r, s.auxValid.get r = true := by
  refine ⟨rfl, rfl, rfl, rfl, fun r => ?_⟩
  cases r <;> rfl
/-- A pre-repair grid that meets the last clause. -/
theorem witness_EvaluateAcceptedAndCompletes_grid (s : State) (i : Pixel) :
    (rawTemps s.store (frameScalars s.store s.aux) s.raw).get i =
      pixelTemp s.store (frameScalars s.store s.aux) (s.raw i.val) i := rawTemps_get _ _ _ i
theorem witness_SignCorrectionIsTwosComplement :
    sext 6 31 = 31 ∧ sext 6 32 = -32 ∧ sext 4 7 = 7 ∧ sext 4 8 = -8 ∧ sext 1 1 = -1 := by decide
theorem witness_CornerTemperaturesDecoded :
    (((0 : Half).extractLsb' 12 2).toNat * 10 : Int) = 0 := by decide
theorem witness_BadPixelListBuilt :
    let ee : Image := fun _ => 1#16
    (decodeStore 4 ee).badPixels = [0, 1, 2, 3] ∧ (ee (64 + 10)).getLsbD 0 = true ∧
      decOverflow 4 ee = true ∧ (decodeStore 4 ee).badPixels.length ≤ 4 := by decide +kernel
theorem witness_UnusedImageBitsHaveNoEffect :
    let ee : Image := fun _ => 0#16
    let ee' : Image := fun k => if k = 53 then 7#16 else if k = 63 then 0xC000#16 else 0#16
    (∀ k, k < 832 → 16 ≤ k → k ≠ 53 → k ≠ 56 → k ≠ 63 → ee k = ee' k) ∧
      (ee 56).extractLsb' 0 14 = (ee' 56).extractLsb' 0 14 ∧
      (ee 63).extractLsb' 0 14 = (ee' 63).extractLsb' 0 14 ∧ ee 63 ≠ ee' 63 := by decide +kernel
theorem witness_ResolutionCorrectionExact :
    storeA.resolution ≤ 3 ∧
      (0xF3FF#16 : Half).extractLsb' 10 2 = (0x0000#16 : Half).extractLsb' 10 2 := by decide
theorem witness_VoltageAndGainScalars :
    CalStore.powerOn.kVdd = 0 ∧ AuxBank.powerOn.gain = 0#16 ∧ CalStore.powerOn.gain = 0 ∧
      0 < storeA.gain ∧ storeA.gain ≤ 32767 ∧
      F32.mag (F32.sub (F32.mul F32.c1 (F32.ofInt 0)) (F32.ofInt 0)) = 0 := by decide +kernel
theorem witness_values :
    F32.isFinite 0x3F800000#32 = true ∧ F32.mag 0x3F800000#32 ≠ 0 ∧ F32.isFinite 0x7F800000#32 = false ∧
      F32.isNaN 0x7FC00000#32 = true ∧ F32.isNaN 0xFFC00001#32 = true ∧ F32.isInf 0xFF800000#32 = true ∧
      F32.isNaN 0x80000000#32 = false ∧ F32.isFinite 0x80000000#32 = true ∧
      F32.lt 0xBF800000#32 F32.c0 = true := by decide +kernel
theorem witness_ArithmeticCorrectlyRounded :
    F32.isFinite F32.c1 = true ∧ F32.isFinite F32.c3_3 = true ∧ F32.toRat F32.c3_3 ≠ 0 := by
  decide +kernel
/-- Infinite operands of both signs, and a zero divisor of a nonzero and of a zero dividend. -/
theorem witness_ArithmeticCorrectlyRounded_corners :
    F32.isInf 0x7F800000#32 = true ∧ F32.isInf 0xFF800000#32 = true ∧
      F32.sign 0x7F800000#32 ≠ F32.sign 0xFF800000#32 ∧ F32.isFinite 0x80000000#32 = true ∧
      F32.toRat 0x80000000#32 = 0 ∧ F32.toRat F32.c1 ≠ 0 ∧
      F32.toRat F32.c1 + F32.toRat 0xBF800000#32 = 0 := by decide +kernel
theorem witness_SquareRootCorrectlyRounded : 0 ≤ F32.toRat F32.c3_3 := by decide +kernel
theorem witness_RangeSelectionHalfOpen :
    0 ≤ storeA.ct3 ∧ storeA.ct3 ≤ storeA.ct4 ∧ storeA.ct4 ≤ 900 := by decide
theorem witness_RepairInListOrder :
    ([0] ++ (33 : Pixel) :: [65]).Nodup ∧ (1 : Pixel) ∉ [0] ++ (33 : Pixel) :: [65] := by decide
theorem witness_MinMaxScan :
    F32.isNaN ((Table.fill nPix F32.nan : Grid F32).get 0) = true ∧
      F32.isNaN ((Table.fill nPix F32.c1 : Grid F32).get 0) = false := by
  rw [Table.get_fill, Table.get_fill]
  decide
theorem witness_ReservedAndReadOnlyAddresses :
    State.reset.status.busy = false ∧ locate 0x0003#16 = .reserved ∧ locate 0x1000#16 = .temp 0 := by decide
theorem witness_InputLocationsHoldLowHalf :
    State.reset.status.busy = false ∧ locate 0x0010#16 = .aux .vbe ∧
      (0x0400 ≤ (0x073F#16 : Addr).toNat ∧ (0x073F#16 : Addr).toNat ≤ 0x073F) ∧
      (0x0800 ≤ (0x0AFF#16 : Addr).toNat ∧ (0x0AFF#16 : Addr).toNat ≤ 0x0AFF) := by decide
theorem witness_ReadbackShowsState :
    (withStatus merged).status.busy = false ∧ (withStatus merged).status.calValid = true ∧
      (withStatus { merged with outValid := true }).status.outValid = true ∧
      (withStatus merged).status.outValid = false ∧ State.reset.status.calValid = false ∧
      auxAll.ctrl = true ∧ locate 0x0016#16 = .aux .ctrl ∧ State.reset.auxValid.get .ctrl = false ∧
      (0x26FF#16 : Addr).toNat < 0x2700 ∧ (0x26FF#16 : Addr).toNat % 0x0400 < 768 ∧
      (0x2700#16 : Addr).toNat % 0x0400 = 768 := by decide
/-- EE and PIX words written and not, a RAW word copied and not. -/
theorem witness_ReadbackShowsState_buffers :
    let s := withMem [(0x073F, 1#16), (0x0800, 2#16), (0x0EFF, 3#16)]
    s.eeValid 831 = true ∧ s.eeValid 0 = false ∧ s.pixValid 0 = true ∧ s.pixValid 767 = false ∧
      s.rawMerged 767 = true ∧ s.rawMerged 0 = false := by decide
theorem witness_ReadsChangeNoBlockState :
    let s := fun e => State.reset.setInputs [e]
    let reads : List HostEvent :=
      [.rd 0x0000#16, .rdTo 0x0400#16 "x", .expect 0x0000#16 0x54430001#32, .poll]
    (∀ e ∈ reads, (s e).engineDue = false ∧ (s e).host.inputs = e :: []) ∧
      (s .poll).peek 0x0000#16 = some 0x54430001#32 ∧ (s .poll).peek 0x0400#16 = none ∧
      ((busyWith 2#32 3).setInputs [.poll]).engineDue = false := by decide
theorem witness_HardResetAtAnyTime :
    let s := (busyWith 1#32 3).setInputs [.hardReset]
    s.engineDue = false ∧ s.host.inputs = .hardReset :: [] := by decide

/-- A state, other than the one after reset, that meets the invariant; it takes a step. -/
def oneDrawMade : State := { State.reset with draws := 1 }

theorem witness_StepKeepsInvariant : oneDrawMade.Inv ∧ step oneDrawMade = .next oneDrawMade := by
  refine ⟨⟨Memory.wf_nil, ?_, by decide, ?_, ?_, ?_, ?_⟩, rfl⟩
  · intro c hc
    cases hc
  · intro h
    cases h
  · intro h
    cases h
  · intro o h
    unfold Status.merged at h
    split at h <;> cases h
  · intro h
    cases h

/-- A block about to complete a DECODE of an image with `K_Vdd ≠ 0`, and one about to complete an
EVALUATE. -/
def decodeDue : State := { busyWith 1#32 0 with mem := [(0x0433, 0x9D68#16)] }
def evaluateDue : State := busyWith 3#32 0

theorem witness_StoreAndOutputHaveOneWriter :
    (step decodeDue = .next (completeDecode decodeDue) ∧
        (completeDecode decodeDue).store.kVdd ≠ decodeDue.store.kVdd) ∧
      step evaluateDue = .next (completeEvaluate evaluateDue) ∧
        (completeEvaluate evaluateDue).out.evResCorr ≠ evaluateDue.out.evResCorr := by
  refine ⟨⟨rfl, ?_⟩, rfl, ?_⟩ <;> decide +kernel
theorem witness_ValidFlagsFallOnlyByReset :
    (withStatus calibrated).status.calValid = true ∧
      statusAfter (step ((withStatus calibrated).withFetchWord 32 0xF)) = some 0x0000F000#32 ∧
      (withStatus { calibrated with outValid := true }).status.outValid = true ∧
      statusAfter (step ((withStatus { calibrated with outValid := true }).setInputs [.hardReset])) =
        some 0x00000000#32 := by decide
theorem witness_PendingCommandSeesFrozenInputs :
    (busyWith 1#32 3).status.busy = true ∧
      statusAfter (step (busyWith 1#32 3)) = some 0x00000001#32 := by decide
theorem witness_PollTerminates :
    ((busyWith 2#32 3).setInputs [.poll]).host.inputs = .poll :: [] := by decide
theorem witness_EveryStepAnswers : State.reset.status.busy = false ∧ State.reset.host.inputs = [] := by
  decide
/-- A pending command with a discarded write and a POLL among the events of its duration; the reset input
behind them is no bar. -/
theorem witness_EveryStepAnswers_pending :
    let s := (busyWith 2#32 2).setInputs [.wr 0x0001#16 0x1F#32, .poll, .hardReset]
    s.status.busy = true ∧ ∀ e ∈ s.host.inputs.take s.busyLeft, ¬ resets e := by
  unfold resets
  decide

end Sys2Proof.Tests
end

section
/-! PROOFS. Sign correction (R9), NaN operands and comparisons (R15), and exact conversions (R12, R14). -/

namespace Sys2Proof

/-! ### Sign correction -/

theorem Machine.sext_of_lt {n v : Nat} (h : v < 2 ^ (n - 1)) : Machine.sext n v = v := by
  unfold Machine.sext
  rw [if_neg (by omega)]

theorem Machine.sext_of_le {n v : Nat} (h : 2 ^ (n - 1) ≤ v) : Machine.sext n v = (v : Int) - 2 ^ n := by
  have := Nat.two_pow_pos (n - 1)
  unfold Machine.sext
  rw [if_pos (by omega)]

/-- The two's-complement reading of a field is its value, less `2^n` when the top bit is 1. -/
theorem Machine.sext_eq_toInt {n v : Nat} (hn : 1 ≤ n) (hv : v < 2 ^ n) :
    Machine.sext n v = (BitVec.ofNat n v).toInt := by
  have half : 2 ^ n = 2 * 2 ^ (n - 1) := by rw [← pow_succ', Nat.sub_add_cancel hn]
  rw [BitVec.toInt_eq_toNat_cond, BitVec.toNat_ofNat, Nat.mod_eq_of_lt hv]
  rcases Nat.lt_or_ge v (2 ^ (n - 1)) with h | h
  · rw [Machine.sext_of_lt h, if_pos (by omega)]
  · rw [Machine.sext_of_le h, if_neg (by omega)]
    norm_cast

/-- Settles O16: below half the range the value stands for itself, from half the range on it is lowered by
the whole range. -/
theorem signCorrectionIsTwosComplement : Obligations.SignCorrectionIsTwosComplement := by
  intro n v hn hv
  have half : (2 : Int) ^ n = 2 * 2 ^ (n - 1) := by rw [← pow_succ', Nat.sub_add_cancel hn]
  have hv' : (v : Int) < 2 ^ n := by exact_mod_cast hv
  refine ⟨Machine.sext_eq_toInt hn hv, Machine.sext_of_lt, Machine.sext_of_le, ?_⟩
  rcases Nat.lt_or_ge v (2 ^ (n - 1)) with h | h
  · have h' : (v : Int) < 2 ^ (n - 1) := by exact_mod_cast h
    rw [Machine.sext_of_lt h]
    omega
  · have h' : (2 : Int) ^ (n - 1) ≤ v := by exact_mod_cast h
    rw [Machine.sext_of_le h]
    omega

/-! ### NaN operands -/

theorem F32.isNaN_nan : F32.isNaN F32.nan = true := by decide

theorem F32.isNaN_neg (x : F32) : F32.isNaN (F32.neg x) = F32.isNaN x := by
  unfold F32.isNaN
  rw [F32.code_neg]

section
variable {x : F32} (hx : F32.isNaN x = true) (y : F32)
include hx

theorem F32.add_nan_left : F32.add x y = F32.nan := by
  simp only [F32.add, hx, Bool.true_or, if_true]

theorem F32.add_nan_right : F32.add y x = F32.nan := by
  simp only [F32.add, hx, Bool.or_true, if_true]

theorem F32.sub_nan_left : F32.sub x y = F32.nan := F32.add_nan_left hx _

theorem F32.sub_nan_right : F32.sub y x = F32.nan :=
  F32.add_nan_right ((F32.isNaN_neg x).trans hx) y

theorem F32.mul_nan_left : F32.mul x y = F32.nan := by
  simp only [F32.mul, hx, Bool.true_or, if_true]

theorem F32.mul_nan_right : F32.mul y x = F32.nan := by
  simp only [F32.mul, hx, Bool.or_true, if_true]

theorem F32.div_nan_left : F32.div x y = F32.nan := by
  simp only [F32.div, hx, Bool.true_or, if_true]

theorem F32.div_nan_right : F32.div y x = F32.nan := by
  simp only [F32.div, hx, Bool.or_true, if_true]

theorem F32.lt_nan_left : F32.lt x y = false := by
  simp only [F32.lt, hx, Bool.not_true, Bool.false_and]

theorem F32.lt_nan_right : F32.lt y x = false := by
  simp only [F32.lt, hx, Bool.not_true, Bool.and_false, Bool.false_and]

theorem F32.feq_nan_left : F32.feq x y = false := by
  simp only [F32.feq, hx, Bool.not_true, Bool.false_and]

theorem F32.feq_nan_right : F32.feq y x = false := by
  simp only [F32.feq, hx, Bool.not_true, Bool.and_false, Bool.false_and]

end

theorem F32.sqrt_nan {x : F32} (hx : F32.isNaN x = true) : F32.sqrt x = F32.nan := by
  simp only [F32.sqrt, hx, if_true]

/-- Settles O45: every operation answers a NaN operand with the one NaN of the model, and every comparison
with `false`. -/
theorem nanPayloadNeverRead : Obligations.NanPayloadNeverRead := by
  intro x x' y hx hx'
  simp only [F32.add_nan_left hx, F32.add_nan_right hx, F32.sub_nan_left hx, F32.sub_nan_right hx,
    F32.mul_nan_left hx, F32.mul_nan_right hx, F32.div_nan_left hx, F32.div_nan_right hx,
    F32.sqrt_nan hx, F32.lt_nan_left hx, F32.lt_nan_right hx,
    F32.add_nan_left hx', F32.add_nan_right hx', F32.sub_nan_left hx', F32.sub_nan_right hx',
    F32.mul_nan_left hx', F32.mul_nan_right hx', F32.div_nan_left hx', F32.div_nan_right hx',
    F32.sqrt_nan hx', F32.lt_nan_left hx', F32.lt_nan_right hx', F32.isNaN_nan, and_self]

/-! ### Comparisons -/

theorem F32.toRat_lt_iff_units {x y : F32} : F32.toRat x < F32.toRat y ↔ F32.units x < F32.units y := by
  unfold F32.toRat
  rw [div_lt_div_iff_of_pos_right (by positivity), Int.cast_lt]

theorem F32.toRat_eq_iff_units {x y : F32} : F32.toRat x = F32.toRat y ↔ F32.units x = F32.units y := by
  unfold F32.toRat
  rw [div_left_inj' (by positivity), Int.cast_inj]

theorem F32.mag_lt_iff_code {x y : F32} : F32.mag x < F32.mag y ↔ F32.code x < F32.code y :=
  F32.magOfCode_strictMono.lt_iff_lt

theorem F32.mag_eq_zero_iff_code {x : F32} : F32.mag x = 0 ↔ F32.code x = 0 :=
  F32.magOfCode_strictMono.injective.eq_iff' rfl

/-- The key orders the words as their exact values do. -/
theorem F32.key_lt_iff_units {x y : F32} : F32.key x < F32.key y ↔ F32.units x < F32.units y := by
  have hxy : F32.mag x < F32.mag y ↔ F32.code x < F32.code y := F32.mag_lt_iff_code
  have hyx : F32.mag y < F32.mag x ↔ F32.code y < F32.code x := F32.mag_lt_iff_code
  have hx0 : F32.mag x = 0 ↔ F32.code x = 0 := F32.mag_eq_zero_iff_code
  have hy0 : F32.mag y = 0 ↔ F32.code y = 0 := F32.mag_eq_zero_iff_code
  unfold F32.key F32.units
  cases F32.sign x <;> cases F32.sign y <;> simp only [Bool.false_eq_true, if_false, if_true] <;> omega

theorem F32.key_eq_iff_units {x y : F32} : F32.key x = F32.key y ↔ F32.units x = F32.units y := by
  have hxy : F32.key x < F32.key y ↔ F32.units x < F32.units y := F32.key_lt_iff_units
  have hyx : F32.key y < F32.key x ↔ F32.units y < F32.units x := F32.key_lt_iff_units
  omega

section
variable {x y : F32} (hx : F32.isNaN x = false) (hy : F32.isNaN y = false)
include hx hy

theorem F32.lt_eq_key : F32.lt x y = decide (F32.key x < F32.key y) := by
  simp only [F32.lt, hx, hy, Bool.not_false, Bool.true_and]

theorem F32.feq_eq_key : F32.feq x y = decide (F32.key x = F32.key y) := by
  simp only [F32.feq, hx, hy, Bool.not_false, Bool.true_and]

theorem F32.lt_iff_toRat : F32.lt x y = true ↔ F32.toRat x < F32.toRat y := by
  rw [F32.lt_eq_key hx hy, decide_eq_true_eq, F32.key_lt_iff_units, F32.toRat_lt_iff_units]

theorem F32.feq_iff_toRat : F32.feq x y = true ↔ F32.toRat x = F32.toRat y := by
  rw [F32.feq_eq_key hx hy, decide_eq_true_eq, F32.key_eq_iff_units, F32.toRat_eq_iff_units]

end

theorem F32.isNaN_inf (b : Bool) : F32.isNaN (F32.inf b) = false := F32.isNaN_of_isInf (F32.inf_parts b).1

theorem F32.key_inf (b : Bool) : F32.key (F32.inf b) = if b then -(F32.infCode : Int) else F32.infCode := by
  cases b <;> decide

theorem F32.key_bounds {x : F32} (hx : F32.isFinite x = true) :
    -(F32.infCode : Int) < F32.key x ∧ F32.key x < F32.infCode := by
  have hc : F32.code x < F32.infCode := of_decide_eq_true hx
  unfold F32.key
  split <;> omega

theorem F32.eq_inf_of_isInf {x : F32} (hx : F32.isInf x = true) : x = F32.inf (F32.sign x) := by
  have hc : F32.code x = F32.infCode := of_decide_eq_true hx
  rw [F32.inf, ← hc, F32.pack_sign_code]

/-- A finite value lies strictly between the two infinities. -/
theorem F32.lt_inf_of_isFinite {x : F32} (hx : F32.isFinite x = true) (b : Bool) :
    F32.lt x (F32.inf b) = !b ∧ F32.lt (F32.inf b) x = b ∧
      F32.feq x (F32.inf b) = false ∧ F32.feq (F32.inf b) x = false := by
  have hn := F32.isNaN_of_isFinite hx
  have hb := F32.isNaN_inf b
  obtain ⟨lower, upper⟩ := F32.key_bounds hx
  rw [F32.lt_eq_key hn hb, F32.lt_eq_key hb hn, F32.feq_eq_key hn hb, F32.feq_eq_key hb hn, F32.key_inf]
  cases b <;> simp only [Bool.false_eq_true, if_false, if_true, Bool.not_true, Bool.not_false,
    decide_eq_true_eq, decide_eq_false_iff_not] <;> omega

/-- Settles O44: on values that are not NaN the key decides, and it orders the finite words as their values
with the infinities outside them. -/
theorem comparisonsAreIeee : Obligations.ComparisonsAreIeee := by
  refine ⟨?nan, ?finite, ?finiteInf, by decide, fun x => F32.eq_inf_of_isInf, by decide⟩
  case nan =>
    rintro x y (hx | hy)
    · exact ⟨F32.lt_nan_left hx y, F32.feq_nan_left hx y⟩
    · exact ⟨F32.lt_nan_right hy x, F32.feq_nan_right hy x⟩
  case finite =>
    intro x y hx hy
    have hnx := F32.isNaN_of_isFinite hx
    have hny := F32.isNaN_of_isFinite hy
    exact ⟨F32.lt_iff_toRat hnx hny, F32.feq_iff_toRat hnx hny⟩
  case finiteInf =>
    intro x hx
    obtain ⟨ltPos, posLt, -⟩ := F32.lt_inf_of_isFinite hx false
    obtain ⟨ltNeg, negLt, -⟩ := F32.lt_inf_of_isFinite hx true
    exact ⟨ltPos, negLt, posLt, ltNeg, fun b => (F32.lt_inf_of_isFinite hx b).2.2⟩

/-! ### Conversions -/

/-- An integer of at most 24 bits' magnitude, `2^24` included, converts exactly. -/
theorem F32.ofInt_exact {n : Int} (hn : n.natAbs ≤ 2 ^ 24) :
    F32.isFinite (F32.ofInt n) = true ∧ F32.sign (F32.ofInt n) = decide (n < 0) ∧
      F32.mag (F32.ofInt n) = n.natAbs * 2 ^ 149 := by
  rcases Nat.lt_or_eq_of_le hn with h | h
  · exact F32.ofInt_parts h
  · have e : n.natAbs * 2 ^ 149 = 1 * 2 ^ 173 := by rw [h]; norm_num
    rw [F32.ofInt, e]
    exact F32.round_parts (a := 1) (e := 173) (by decide) (by decide) (by decide) (Nat.mul_one _).symm _

theorem F32.toRat_ofInt {n : Int} (hn : n.natAbs ≤ 2 ^ 24) : F32.toRat (F32.ofInt n) = n := by
  obtain ⟨-, hs, hm⟩ := F32.ofInt_exact hn
  have hu : F32.units (F32.ofInt n) = n * 2 ^ 149 := by
    unfold F32.units
    rw [hs, hm]
    by_cases h : n < 0 <;> simp only [h, decide_true, decide_false, Bool.false_eq_true, if_true, if_false] <;>
      omega
  rw [F32.toRat, hu, Int.cast_mul, Int.cast_pow]
  exact mul_div_cancel_right₀ _ (by positivity)

theorem F32.toRat_pow2 {n : Nat} (hn : n ≤ 127) : F32.toRat (F32.pow2 n) = 2 ^ n := by
  obtain ⟨-, hs, hm⟩ := F32.pow2_parts hn
  rw [F32.toRat_eq, hs, hm, if_neg Bool.false_ne_true, one_mul, Nat.cast_pow, pow_add]
  exact mul_div_cancel_right₀ _ (by positivity)

/-- Settles O43: an integer up to `2^24` and a power of two have a code of their own, so they are not
rounded; the constants are evaluated. -/
theorem conversionsExact : Obligations.ConversionsExact := by
  refine ⟨fun n lower upper => ?_, fun n hn => ⟨(F32.pow2_parts hn).1, F32.toRat_pow2 hn⟩, ?_⟩
  · have hn : n.natAbs ≤ 2 ^ 24 := by omega
    exact ⟨(F32.ofInt_exact hn).1, F32.toRat_ofInt hn⟩
  · decide +kernel

end Sys2Proof
end

section
/-! PROOFS. One rounding is correct (R10): the rounded code is the nearest one, then the rounded word is the
nearest word, and so each operation on finite values is. -/

namespace Sys2Proof

/-! ### One rounding -/

theorem F32.roundCode_zero {d : Nat} (hd : 0 < d) : F32.roundCode 0 d = 0 :=
  Nat.le_zero.mp (F32.roundCode_le_code hd (Nat.zero_le _))

/-- The rounded code is finite exactly for magnitudes below the middle between the last two codes; the
middle itself goes to infinity, since the last finite code is odd. -/
theorem F32.roundCode_lt_infCode {n d : Nat} (hd : 0 < d) :
    F32.roundCode n d < F32.infCode ↔
      2 * n < F32.magOfCode (F32.infCode - 1) * d + F32.magOfCode F32.infCode * d := by
  obtain ⟨c, lo, hi, e⟩ := F32.roundCode_spec n d hd
  have mono {a b : Nat} (h : a ≤ b) : F32.magOfCode a * d ≤ F32.magOfCode b * d :=
    Nat.mul_le_mul_right d (F32.magOfCode_strictMono.monotone h)
  obtain ⟨last, hlast, hodd⟩ : ∃ last, F32.infCode = last + 1 ∧ last % 2 = 1 := ⟨0x7F7FFFFF, rfl, by decide⟩
  rw [e, hlast, Nat.add_sub_cancel]
  rcases Nat.lt_trichotomy c last with h | rfl | h
  · have h1 : F32.magOfCode (c + 1) * d ≤ F32.magOfCode last * d := mono h
    have h2 : F32.magOfCode (c + 1) * d ≤ F32.magOfCode (last + 1) * d := mono (by omega)
    split <;> omega
  · split <;> omega
  · have h1 : F32.magOfCode last * d ≤ F32.magOfCode c * d := mono (by omega)
    have h2 : F32.magOfCode (last + 1) * d ≤ F32.magOfCode c * d := mono h
    split <;> omega

/-- The distance of the magnitude `n / d` from code `c`'s, in units of `1 / d`. -/
def F32.codeDist (n d c : Nat) : Nat := ((n : Int) - (F32.magOfCode c * d : Nat)).natAbs

/-- A finite rounded code is at least as near as every other code. -/
theorem F32.roundCode_nearest {n d : Nat} (hd : 0 < d) (h : F32.roundCode n d < F32.infCode) (v : Nat) :
    F32.codeDist n d (F32.roundCode n d) ≤ F32.codeDist n d v ∧
      (F32.codeDist n d (F32.roundCode n d) = F32.codeDist n d v →
        v ≠ F32.roundCode n d → F32.roundCode n d % 2 = 0) := by
  obtain ⟨c, lo, hi, e⟩ := F32.roundCode_spec n d hd
  have strict {a b : Nat} (h : a < b) : F32.magOfCode a * d < F32.magOfCode b * d :=
    Nat.mul_lt_mul_of_pos_right (F32.magOfCode_strictMono h) hd
  have hside : (v = c ∨ v = c + 1) ∨ F32.magOfCode v * d < F32.magOfCode c * d ∨
      F32.magOfCode (c + 1) * d < F32.magOfCode v * d := by
    rcases Nat.lt_or_ge v c with hv | hv
    · exact .inr (.inl (strict hv))
    · rcases Nat.lt_or_ge (c + 1) v with hv' | hv'
      · exact .inr (.inr (strict hv'))
      · exact .inl (by omega)
  unfold F32.codeDist
  split at e
  · have hr : F32.roundCode n d = c + 1 := by omega
    rw [hr]
    rcases hside with (rfl | rfl) | hv | hv <;> omega
  · have hr : F32.roundCode n d = c := by omega
    rw [hr]
    rcases hside with (rfl | rfl) | hv | hv <;> omega

/-- The number whose rounding is `F32.round neg n d`. -/
def F32.ratio (neg : Bool) (n d : Nat) : Rat := (if neg then -1 else 1) * ((n : Rat) / d / 2 ^ 149)

/-- The distance of `F32.ratio neg n d` from a word's value, in units of `2^-149 / d`. -/
def F32.wordDist (neg : Bool) (n d : Nat) (v : F32) : Nat :=
  if F32.sign v = neg then F32.codeDist n d (F32.code v) else n + F32.mag v * d

theorem F32.abs_ratio (neg : Bool) (n d : Nat) : |F32.ratio neg n d| = (n : Rat) / d / 2 ^ 149 := by
  have h : |(n : Rat) / d / 2 ^ 149| = (n : Rat) / d / 2 ^ 149 := abs_of_nonneg (by positivity)
  cases neg <;> simpa [F32.ratio] using h

theorem F32.abs_ratio_sub_toRat {d : Nat} (hd : 0 < d) (neg : Bool) (n : Nat) (v : F32) :
    |F32.ratio neg n d - F32.toRat v| = (F32.wordDist neg n d v : Rat) / (d * 2 ^ 149) := by
  have hd' : (0 : Rat) < d := by exact_mod_cast hd
  have hpos : (0 : Rat) < d * 2 ^ 149 := by positivity
  set q : Rat := (n : Rat) / d / 2 ^ 149 with hq
  set m : Rat := (F32.mag v : Rat) / 2 ^ 149 with hm
  have same : |q - m| = (F32.codeDist n d (F32.code v) : Rat) / (d * 2 ^ 149) := by
    have e : q - m = ((n : Rat) - F32.mag v * d) / (d * 2 ^ 149) := by rw [hq, hm]; field_simp
    rw [e, abs_div, abs_of_pos hpos, F32.codeDist, Nat.cast_natAbs]
    push_cast
    rfl
  have opposite : |q + m| = ((n + F32.mag v * d : Nat) : Rat) / (d * 2 ^ 149) := by
    have e : q + m = ((n + F32.mag v * d : Nat) : Rat) / (d * 2 ^ 149) := by
      rw [hq, hm]; push_cast; field_simp
    rw [e, abs_of_nonneg (by positivity)]
  unfold F32.ratio F32.wordDist
  rw [F32.toRat_eq, ← hq, ← hm]
  cases neg <;> cases F32.sign v
  · simpa using same
  · simpa using opposite
  · rw [← abs_neg]
    simpa [add_comm] using opposite
  · rw [← abs_neg]
    simpa [neg_add_eq_sub] using same

theorem F32.isFinite_round (neg : Bool) (n : Nat) {d : Nat} :
    F32.isFinite (F32.round neg n d) = true ↔ F32.roundCode n d < F32.infCode := by
  unfold F32.isFinite
  rw [F32.code_round, decide_eq_true_eq]

/-- A rounding is finite exactly when the number lies below the least one that rounds to an infinity. -/
theorem F32.isFinite_round_iff {d : Nat} (hd : 0 < d) (neg : Bool) (n : Nat) :
    F32.isFinite (F32.round neg n d) = true ↔ |F32.ratio neg n d| < F32.overflowBound := by
  have hd' : (0 : Rat) < d := by exact_mod_cast hd
  have hbound : ((F32.magOfCode (F32.infCode - 1) + F32.magOfCode F32.infCode : Nat) : Rat) =
      2 * (F32.overflowBound * 2 ^ 149) := by decide +kernel
  rw [F32.isFinite_round, F32.roundCode_lt_infCode hd, F32.abs_ratio, div_lt_iff₀ (by positivity),
    div_lt_iff₀ hd', ← Nat.add_mul, ← Nat.cast_lt (α := Rat), Nat.cast_mul, Nat.cast_mul, hbound, mul_assoc,
    Nat.cast_two, mul_lt_mul_iff_right₀ two_pos]

section
variable {n d : Nat} {neg : Bool} (hd : 0 < d) (hfin : F32.isFinite (F32.round neg n d) = true)

theorem F32.wordDist_round :
    F32.wordDist neg n d (F32.round neg n d) = F32.codeDist n d (F32.roundCode n d) := by
  rw [F32.wordDist, F32.sign_round, if_pos rfl, F32.code_round]

/-- A word of the other sign is no nearer than the word of the same code. -/
theorem F32.codeDist_le_wordDist (v : F32) : F32.codeDist n d (F32.code v) ≤ F32.wordDist neg n d v := by
  unfold F32.wordDist F32.codeDist F32.mag
  split <;> omega

include hd hfin

theorem F32.wordDist_round_le (v : F32) :
    F32.wordDist neg n d (F32.round neg n d) ≤ F32.wordDist neg n d v := by
  have hlt := (F32.isFinite_round neg n).mp hfin
  rw [F32.wordDist_round]
  exact Nat.le_trans (F32.roundCode_nearest hd hlt (F32.code v)).1 (F32.codeDist_le_wordDist v)

/-- Where another word is as near, either its code is another one, and the rounding went to the even of the
two, or it is the other zero. -/
theorem F32.roundCode_even_of_tie {v : F32} (hne : v ≠ F32.round neg n d)
    (htie : F32.wordDist neg n d (F32.round neg n d) = F32.wordDist neg n d v) :
    F32.roundCode n d % 2 = 0 := by
  have hlt := (F32.isFinite_round neg n).mp hfin
  obtain ⟨nearest, even⟩ := F32.roundCode_nearest hd hlt (F32.code v)
  rw [F32.wordDist_round] at htie
  by_cases hc : F32.code v = F32.roundCode n d
  · have hs : F32.sign v ≠ neg := by
      rintro rfl
      exact hne (by rw [F32.round, ← hc, F32.pack_sign_code])
    have hzero : n = 0 ∨ F32.mag v * d = 0 := by
      rw [F32.wordDist, if_neg hs, ← hc, F32.codeDist, ← F32.mag] at htie
      omega
    have hcode : F32.roundCode n d = 0 := by
      rcases hzero with rfl | h
      · exact F32.roundCode_zero hd
      · rw [← hc, ← F32.mag_eq_zero_iff_code]
        exact (Nat.mul_eq_zero.mp h).resolve_right hd.ne'
    omega
  · have := F32.codeDist_le_wordDist (n := n) (d := d) (neg := neg) v
    exact even (by omega) hc

end

theorem F32.getLsbD_zero_eq (w : F32) : w.getLsbD 0 = decide (F32.code w % 2 = 1) := by
  rw [← BitVec.testBit_toNat, Nat.testBit_zero, F32.code]
  congr 1
  exact propext (by omega)

theorem F32.ratio_neg_iff {n d : Nat} (hn : 0 < n) (hd : 0 < d) (neg : Bool) :
    F32.ratio neg n d < 0 ↔ neg = true := by
  have h : 0 < (n : Rat) / d / 2 ^ 149 := by positivity
  cases neg <;> simp only [F32.ratio, Bool.false_eq_true, if_true, if_false, iff_true, iff_false] <;> linarith

/-- `F32.round` rounds its ratio correctly. -/
theorem F32.rounds_round {d : Nat} (hd : 0 < d) (neg : Bool) (n : Nat) :
    F32.Rounds (F32.ratio neg n d) (F32.round neg n d) where
  number := F32.isNaN_round neg n d
  inRange := F32.isFinite_round_iff hd neg n
  nearest hfin v _ := by
    rw [F32.abs_ratio_sub_toRat hd, F32.abs_ratio_sub_toRat hd]
    gcongr
    exact F32.wordDist_round_le hd hfin v
  tieEven hfin v _ hne htie := by
    have hd' : (0 : Rat) < d := by exact_mod_cast hd
    rw [F32.abs_ratio_sub_toRat hd, F32.abs_ratio_sub_toRat hd, div_left_inj' (by positivity),
      Nat.cast_inj] at htie
    rw [F32.getLsbD_zero_eq, F32.code_round,
      F32.roundCode_even_of_tie hd hfin (fun h => hne (congrArg F32.toRat h)) htie]
    rfl
  direction hinf := by
    have hc : F32.roundCode n d = F32.infCode := by
      rw [← F32.code_round neg n d]
      exact of_decide_eq_true hinf
    have hn : 0 < n := by
      refine Nat.pos_of_ne_zero fun h => ?_
      rw [h, F32.roundCode_zero hd] at hc
      exact absurd hc (by decide)
    rw [F32.sign_round, F32.ratio_neg_iff hn hd]

/-! ### The four operations on finite operands -/

theorem F32.isFinite_neg (x : F32) : F32.isFinite (F32.neg x) = F32.isFinite x := by
  unfold F32.isFinite
  rw [F32.code_neg]

theorem F32.isInf_neg (x : F32) : F32.isInf (F32.neg x) = F32.isInf x := by
  unfold F32.isInf
  rw [F32.code_neg]

theorem F32.mag_neg (x : F32) : F32.mag (F32.neg x) = F32.mag x := by
  unfold F32.mag
  rw [F32.code_neg]

theorem F32.units_neg (x : F32) : F32.units (F32.neg x) = -F32.units x := by
  unfold F32.units
  rw [F32.sign_neg, F32.mag_neg]
  cases F32.sign x <;> simp

theorem F32.toRat_neg (x : F32) : F32.toRat (F32.neg x) = -F32.toRat x := by
  unfold F32.toRat
  rw [F32.units_neg, Int.cast_neg, neg_div]

theorem F32.round_zero {d : Nat} (hd : 0 < d) (neg : Bool) : F32.round neg 0 d = F32.zero neg := by
  rw [F32.round, F32.roundCode_zero hd, F32.zero]

theorem F32.rounds_zero (neg : Bool) : F32.Rounds 0 (F32.zero neg) := by
  have h := F32.rounds_round Nat.one_pos neg 0
  rwa [F32.round_zero Nat.one_pos, F32.ratio, Nat.cast_zero, zero_div, zero_div, mul_zero] at h

theorem F32.toRat_add_eq (x y : F32) :
    F32.toRat x + F32.toRat y = ((F32.units x + F32.units y : Int) : Rat) / 2 ^ 149 := by
  rw [F32.toRat, F32.toRat, ← add_div, Int.cast_add]

theorem F32.toRat_add_eq_zero {x y : F32} :
    F32.toRat x + F32.toRat y = 0 ↔ F32.units x + F32.units y = 0 := by
  rw [F32.toRat_add_eq, div_eq_zero_iff, Int.cast_eq_zero, or_iff_left (by positivity)]

theorem F32.ratio_natAbs (u : Int) : F32.ratio (decide (u < 0)) u.natAbs 1 = (u : Rat) / 2 ^ 149 := by
  rw [F32.ratio, Nat.cast_natAbs]
  by_cases h : u < 0
  · simp [h, abs_of_neg h, neg_div]
  · simp [h, abs_of_nonneg (not_lt.mp h)]

/-- The product of two signs is the sign of exactly one of them. -/
theorem F32.sign_factor_bne (a b : Bool) :
    (if (a != b) = true then (-1 : Rat) else 1) = (if a = true then -1 else 1) * (if b = true then -1 else 1) := by
  cases a <;> cases b <;> norm_num

section
variable {x y : F32} (hx : F32.isFinite x = true) (hy : F32.isFinite y = true)
include hx hy

theorem F32.add_eq_zero (h : F32.toRat x + F32.toRat y = 0) :
    F32.add x y = F32.zero (F32.sign x && F32.sign y) := by
  rw [F32.add_finite hx hy, if_pos (F32.toRat_add_eq_zero.mp h)]

theorem F32.rounds_add : F32.Rounds (F32.toRat x + F32.toRat y) (F32.add x y) := by
  by_cases h : F32.toRat x + F32.toRat y = 0
  · rw [F32.add_eq_zero hx hy h, h]
    exact F32.rounds_zero _
  · rw [F32.add_finite hx hy, if_neg (mt F32.toRat_add_eq_zero.mpr h), F32.toRat_add_eq, ← F32.ratio_natAbs]
    exact F32.rounds_round Nat.one_pos _ _

theorem F32.rounds_sub : F32.Rounds (F32.toRat x - F32.toRat y) (F32.sub x y) := by
  rw [sub_eq_add_neg, ← F32.toRat_neg]
  exact F32.rounds_add hx ((F32.isFinite_neg y).trans hy)

theorem F32.rounds_mul : F32.Rounds (F32.toRat x * F32.toRat y) (F32.mul x y) := by
  have e : F32.toRat x * F32.toRat y =
      F32.ratio (F32.sign x != F32.sign y) (F32.mag x * F32.mag y) (2 ^ 149) := by
    rw [F32.toRat_eq, F32.toRat_eq, F32.ratio, F32.sign_factor_bne]
    push_cast
    ring
  rw [F32.mul_finite hx hy, e]
  exact F32.rounds_round (Nat.two_pow_pos _) _ _

theorem F32.sign_mul : F32.sign (F32.mul x y) = (F32.sign x != F32.sign y) := by
  rw [F32.mul_finite hx hy, F32.sign_round]

theorem F32.rounds_div (h0 : F32.toRat y ≠ 0) : F32.Rounds (F32.toRat x / F32.toRat y) (F32.div x y) := by
  have hm : F32.mag y ≠ 0 := mt (F32.toRat_eq_zero y).mpr h0
  have hm' : (F32.mag y : Rat) ≠ 0 := Nat.cast_ne_zero.mpr hm
  have e : F32.toRat x / F32.toRat y =
      F32.ratio (F32.sign x != F32.sign y) (F32.mag x * 2 ^ 149) (F32.mag y) := by
    rw [F32.toRat_eq, F32.toRat_eq, F32.ratio, F32.sign_factor_bne, Nat.cast_mul, Nat.cast_pow, Nat.cast_ofNat]
    cases F32.sign y <;> simp only [Bool.false_eq_true, if_false, if_true] <;> field_simp
  rw [F32.div_finite hx hy hm, e]
  exact F32.rounds_round (Nat.pos_of_ne_zero hm) _ _

theorem F32.sign_div (h0 : F32.toRat y ≠ 0) : F32.sign (F32.div x y) = (F32.sign x != F32.sign y) := by
  rw [F32.div_finite hx hy (mt (F32.toRat_eq_zero y).mpr h0), F32.sign_round]

/-- Division by a zero. -/
theorem F32.div_zero (h0 : F32.toRat y = 0) :
    F32.div x y = if F32.toRat x = 0 then F32.nan else F32.inf (F32.sign x != F32.sign y) := by
  simp only [F32.div, F32.isNaN_of_isFinite hx, F32.isNaN_of_isFinite hy, F32.isInf_of_isFinite hx,
    F32.isInf_of_isFinite hy, Bool.or_self, Bool.false_eq_true, if_false, (F32.toRat_eq_zero y).mp h0, if_true,
    F32.toRat_eq_zero x]

end

/-! ### Infinite operands -/

section
variable {x y : F32} (hx : F32.isInf x = true)
include hx

section
variable (hy : F32.isFinite y = true)
include hy

theorem F32.add_inf_left : F32.add x y = x := by
  simp only [F32.add, F32.isNaN_of_isInf hx, F32.isNaN_of_isFinite hy, hx, F32.isInf_of_isFinite hy,
    Bool.or_self, Bool.false_and, Bool.false_eq_true, if_false, if_true]

theorem F32.add_inf_right : F32.add y x = x := by
  simp only [F32.add, F32.isNaN_of_isInf hx, F32.isNaN_of_isFinite hy, hx, F32.isInf_of_isFinite hy,
    Bool.or_self, Bool.false_eq_true, if_false, if_true]

theorem F32.sub_inf_left : F32.sub x y = x := F32.add_inf_left hx ((F32.isFinite_neg y).trans hy)

theorem F32.sub_inf_right : F32.sub y x = F32.neg x := F32.add_inf_right ((F32.isInf_neg x).trans hx) hy

theorem F32.mul_inf_left :
    F32.mul x y = if F32.toRat y = 0 then F32.nan else F32.inf (F32.sign x != F32.sign y) := by
  simp only [F32.mul, F32.isNaN_of_isInf hx, F32.isNaN_of_isFinite hy, hx, Bool.or_self, Bool.false_eq_true,
    if_false, if_true, F32.toRat_eq_zero]

theorem F32.mul_inf_right :
    F32.mul y x = if F32.toRat y = 0 then F32.nan else F32.inf (F32.sign x != F32.sign y) := by
  simp only [F32.mul, F32.isNaN_of_isInf hx, F32.isNaN_of_isFinite hy, hx, F32.isInf_of_isFinite hy,
    Bool.or_self, Bool.false_eq_true, if_false, if_true, F32.toRat_eq_zero, bne_comm (a := F32.sign y)]

theorem F32.div_inf_left : F32.div x y = F32.inf (F32.sign x != F32.sign y) := by
  simp only [F32.div, F32.isNaN_of_isInf hx, F32.isNaN_of_isFinite hy, hx, F32.isInf_of_isFinite hy,
    Bool.or_self, Bool.false_eq_true, if_false, if_true]

theorem F32.div_inf_right : F32.div y x = F32.zero (F32.sign x != F32.sign y) := by
  simp only [F32.div, F32.isNaN_of_isInf hx, F32.isNaN_of_isFinite hy, hx, F32.isInf_of_isFinite hy,
    Bool.or_self, Bool.false_eq_true, if_false, if_true, bne_comm (a := F32.sign y)]

end

section
variable (hy : F32.isInf y = true)
include hy

theorem F32.add_inf_inf : F32.add x y = if F32.sign x != F32.sign y then F32.nan else x := by
  simp only [F32.add, F32.isNaN_of_isInf hx, F32.isNaN_of_isInf hy, hx, hy, Bool.or_self, Bool.true_and,
    Bool.false_eq_true, if_false, if_true]

theorem F32.sub_inf_inf : F32.sub x y = if F32.sign x != F32.sign y then x else F32.nan := by
  rw [F32.sub, F32.add_inf_inf hx ((F32.isInf_neg y).trans hy), F32.sign_neg]
  cases F32.sign x <;> cases F32.sign y <;> rfl

theorem F32.mul_inf_inf : F32.mul x y = F32.inf (F32.sign x != F32.sign y) := by
  simp only [F32.mul, F32.isNaN_of_isInf hx, F32.isNaN_of_isInf hy, hx, F32.mag_of_isInf hy, Bool.or_self,
    Bool.false_eq_true, if_false, if_true]

theorem F32.div_inf_inf : F32.div x y = F32.nan := by
  simp only [F32.div, F32.isNaN_of_isInf hx, F32.isNaN_of_isInf hy, hx, hy, Bool.or_self,
    Bool.false_eq_true, if_false, if_true]

end
end

/-- Settles O41: each operation on finite values is one `F32.round` of the exact result, and
`F32.rounds_round` says that this rounds correctly; the corners are the branches of the operations. -/
theorem arithmeticCorrectlyRounded : Obligations.ArithmeticCorrectlyRounded := by
  intro x y
  refine ⟨fun hx hy => ?finite, fun hx hy => ?infFinite, fun hx hy => ?infInf⟩
  case finite =>
    refine ⟨F32.rounds_add hx hy, F32.rounds_sub hx hy, F32.rounds_mul hx hy, F32.rounds_div hx hy,
      F32.add_eq_zero hx hy, F32.sign_mul hx hy, F32.sign_div hx hy, fun hy0 hx0 => ?_, fun hy0 hx0 => ?_⟩
    · rw [F32.div_zero hx hy hy0, if_neg hx0]
    · rw [F32.div_zero hx hy hy0, if_pos hx0, F32.isNaN_nan]
  case infFinite =>
    refine ⟨F32.add_inf_left hx hy, F32.add_inf_right hx hy, F32.sub_inf_left hx hy, F32.sub_inf_right hx hy,
      fun hy0 => ?_, fun hy0 => ?_, F32.div_inf_left hx hy, F32.div_inf_right hx hy⟩
    · rw [F32.mul_inf_left hx hy, F32.mul_inf_right hx hy, if_neg hy0]
      exact ⟨rfl, rfl⟩
    · rw [F32.mul_inf_left hx hy, F32.mul_inf_right hx hy, if_pos hy0]
      exact ⟨F32.isNaN_nan, F32.isNaN_nan⟩
  case infInf =>
    refine ⟨fun same => ?_, fun opposite => ?_, F32.mul_inf_inf hx hy, ?_⟩
    · rw [F32.add_inf_inf hx hy, F32.sub_inf_inf hx hy, same]
      exact ⟨rfl, F32.isNaN_nan⟩
    · rw [F32.add_inf_inf hx hy, F32.sub_inf_inf hx hy, opposite]
      exact ⟨F32.isNaN_nan, rfl⟩
    · rw [F32.div_inf_inf hx hy, F32.isNaN_nan]

end Sys2Proof
end

section
/-! PROOFS. The square root is correctly rounded (R13). -/

namespace Sys2Proof

/-! ### The square root -/

theorem F32.sign_of_neg {x : F32} (h : F32.toRat x < 0) : F32.sign x = true := by
  by_contra hs
  have hm : (0 : Rat) ≤ (F32.mag x : Rat) / 2 ^ 149 := by positivity
  rw [F32.toRat_eq, if_neg hs, one_mul] at h
  exact absurd hm h.not_ge

theorem F32.sign_of_pos {x : F32} (h : 0 < F32.toRat x) : F32.sign x = false := by
  by_contra hs
  have hm : (0 : Rat) ≤ (F32.mag x : Rat) / 2 ^ 149 := by positivity
  rw [F32.toRat_eq, if_pos (by simpa using hs)] at h
  linarith

theorem F32.toRat_of_nonneg {x : F32} (h : 0 ≤ F32.toRat x) : F32.toRat x = (F32.mag x : Rat) / 2 ^ 149 := by
  rcases h.eq_or_lt with h0 | hpos
  · rw [← h0, (F32.toRat_eq_zero x).mp h0.symm, Nat.cast_zero, zero_div]
  · rw [F32.toRat_eq, F32.sign_of_pos hpos, if_neg Bool.false_ne_true, one_mul]

/-- Twice the root of `n` as `F32.sqrt` rounds it: an inexact root is replaced by the middle between the two
whole numbers around it. -/
def F32.doubledRoot (n : Nat) : Nat := 2 * isqrt n + if isqrt n * isqrt n = n then 0 else 1

/-- An even number lies above the doubled root as it lies above twice the exact root. -/
theorem F32.doubledRoot_le {n s : Nat} (hs : s % 2 = 0) (h : F32.doubledRoot n ≤ s) : 4 * n ≤ s ^ 2 := by
  obtain ⟨t, rfl⟩ := Nat.dvd_of_mod_eq_zero hs
  obtain ⟨lo, hi⟩ := isqrt_spec n
  unfold F32.doubledRoot at h
  split at h
  · have : isqrt n * isqrt n ≤ t * t := Nat.mul_self_le_mul_self (by omega)
    nlinarith
  · have : (isqrt n + 1) * (isqrt n + 1) ≤ t * t := Nat.mul_self_le_mul_self (by omega)
    nlinarith

theorem F32.le_doubledRoot {n s : Nat} (hs : s % 2 = 0) (h : s ≤ F32.doubledRoot n) : s ^ 2 ≤ 4 * n := by
  obtain ⟨t, rfl⟩ := Nat.dvd_of_mod_eq_zero hs
  obtain ⟨lo, -⟩ := isqrt_spec n
  have ht : t ≤ isqrt n := by
    unfold F32.doubledRoot at h
    split at h <;> omega
  have : t * t ≤ isqrt n * isqrt n := Nat.mul_self_le_mul_self ht
  nlinarith

/-- Past the first two binades every magnitude is even. -/
theorem F32.magOfCode_even {c : Nat} (h : 2 ^ 24 ≤ c) : F32.magOfCode c % 2 = 0 := by
  have e : c / 2 ^ 23 - 1 = c / 2 ^ 23 - 2 + 1 := by omega
  unfold F32.magOfCode
  rw [if_neg (by omega), e, pow_succ 2 (c / 2 ^ 23 - 2), ← Nat.mul_assoc]
  exact Nat.mul_mod_left _ _

theorem F32.le_roundCode {n d c : Nat} (hd : 0 < d) (hc : c ≤ F32.infCode) (h : F32.magOfCode c * d ≤ n) :
    c ≤ F32.roundCode n d := by
  obtain ⟨b, -, hi, e⟩ := F32.roundCode_spec n d hd
  have hb : c < b + 1 :=
    F32.magOfCode_strictMono.lt_iff_lt.mp (Nat.lt_of_mul_lt_mul_right (Nat.lt_of_le_of_lt h hi))
  rw [e]
  split <;> omega

/-- What `F32.sqrt` rounds for a positive finite operand. -/
theorem F32.sqrt_pos {x : F32} (hx : F32.isFinite x = true) (h : 0 < F32.toRat x) :
    F32.sqrt x = F32.round false (F32.doubledRoot (F32.mag x * 2 ^ 149)) 2 := by
  have hm : F32.mag x ≠ 0 := mt (F32.toRat_eq_zero x).mpr h.ne'
  simp only [F32.sqrt, F32.isNaN_of_isFinite hx, F32.isInf_of_isFinite hx, hm, F32.sign_of_pos h,
    Bool.false_eq_true, if_false, F32.doubledRoot]

theorem F32.sqrt_of_mag_zero {x : F32} (hx : F32.isNaN x = false) (h : F32.mag x = 0) : F32.sqrt x = x := by
  simp only [F32.sqrt, hx, h, Bool.false_eq_true, if_false, if_true]

theorem F32.sqrt_of_sign {x : F32} (hm : F32.mag x ≠ 0) (hs : F32.sign x = true) : F32.sqrt x = F32.nan := by
  simp only [F32.sqrt, hm, hs, if_false, if_true, ite_self]

theorem F32.mag_lt {x : F32} (hx : F32.isFinite x = true) : F32.mag x < 2 ^ 277 := by
  have hinf : F32.magOfCode F32.infCode = 2 ^ 277 := by decide +kernel
  rw [← hinf]
  exact F32.magOfCode_strictMono (of_decide_eq_true hx)

/-- The root of a positive finite magnitude lies far above the subnormal range. -/
theorem F32.doubledRoot_lower {m : Nat} (hm : 0 < m) : 2 ^ 75 ≤ F32.doubledRoot (m * 2 ^ 149) := by
  obtain ⟨-, hi⟩ := isqrt_spec (m * 2 ^ 149)
  have hroot : 2 ^ 74 ≤ isqrt (m * 2 ^ 149) := by
    by_contra h
    have hsq : (isqrt (m * 2 ^ 149) + 1) * (isqrt (m * 2 ^ 149) + 1) ≤ 2 ^ 74 * 2 ^ 74 :=
      Nat.mul_self_le_mul_self (by omega)
    omega
  unfold F32.doubledRoot
  omega

/-- The root of a finite magnitude lies far below the overflow bound. -/
theorem F32.doubledRoot_upper {m : Nat} (hm : m < 2 ^ 277) : F32.doubledRoot (m * 2 ^ 149) ≤ 2 ^ 213 * 2 := by
  obtain ⟨lo, -⟩ := isqrt_spec (m * 2 ^ 149)
  have hroot : isqrt (m * 2 ^ 149) < 2 ^ 213 := by
    by_contra h
    have hsq := Nat.mul_self_le_mul_self (Nat.le_of_not_lt h)
    omega
  unfold F32.doubledRoot
  split <;> omega

/-- A number lies on the rounded code's side of the middle between it and a greater code. -/
theorem F32.le_middle_of_roundCode_lt {n v : Nat} (hfin : F32.roundCode n 2 < F32.infCode)
    (hv : F32.roundCode n 2 < v) : n ≤ F32.magOfCode (F32.roundCode n 2) + F32.magOfCode v := by
  have near := (F32.roundCode_nearest two_pos hfin v).1
  have grows := F32.magOfCode_strictMono hv
  unfold F32.codeDist at near
  omega

theorem F32.middle_le_of_lt_roundCode {n v : Nat} (hfin : F32.roundCode n 2 < F32.infCode)
    (hv : v < F32.roundCode n 2) : F32.magOfCode (F32.roundCode n 2) + F32.magOfCode v ≤ n := by
  have near := (F32.roundCode_nearest two_pos hfin v).1
  have grows := F32.magOfCode_strictMono hv
  unfold F32.codeDist at near
  omega

/-- The code of the root of `m` units. -/
def F32.rootCode (m : Nat) : Nat := F32.roundCode (F32.doubledRoot (m * 2 ^ 149)) 2

section
variable {m v : Nat} (hpos : 0 < m) (hlt : m < 2 ^ 277)

include hpos in
theorem F32.lt_rootCode : 2 ^ 24 < F32.rootCode m := by
  have hmag : F32.magOfCode (2 ^ 24 + 1) = 2 ^ 24 + 2 := by decide +kernel
  have := F32.doubledRoot_lower hpos
  exact F32.le_roundCode two_pos (by decide) (by rw [hmag]; omega)

include hlt in
theorem F32.rootCode_lt : F32.rootCode m < F32.infCode :=
  (F32.isFinite_round false _).mp
    (F32.round_le_pow2 two_pos (by decide) (F32.doubledRoot_upper hlt) false).1

include hpos hlt

theorem F32.root_le_middle (hv : F32.rootCode m < v) :
    4 * (m * 2 ^ 149) ≤ (F32.magOfCode (F32.rootCode m) + F32.magOfCode v) ^ 2 := by
  have hbig := F32.lt_rootCode hpos
  have even := F32.magOfCode_even (Nat.le_of_lt hbig)
  have even' := F32.magOfCode_even (c := v) (by omega)
  exact F32.doubledRoot_le (by omega) (F32.le_middle_of_roundCode_lt (F32.rootCode_lt hlt) hv)

/-- Among smaller codes it is enough to look at the greatest, whose magnitude is still even. -/
theorem F32.middle_le_root (hv : v < F32.rootCode m) :
    (F32.magOfCode (F32.rootCode m) + F32.magOfCode v) ^ 2 ≤ 4 * (m * 2 ^ 149) := by
  have hbig := F32.lt_rootCode hpos
  have even := F32.magOfCode_even (Nat.le_of_lt hbig)
  have even' := F32.magOfCode_even (c := F32.rootCode m - 1) (by omega)
  have hmid : F32.magOfCode (F32.rootCode m) + F32.magOfCode (F32.rootCode m - 1) ≤
      F32.doubledRoot (m * 2 ^ 149) :=
    F32.middle_le_of_lt_roundCode (F32.rootCode_lt hlt) (Nat.sub_lt (by omega) Nat.one_pos)
  have hmono : F32.magOfCode v ≤ F32.magOfCode (F32.rootCode m - 1) :=
    F32.magOfCode_strictMono.monotone (Nat.le_sub_one_of_lt hv)
  calc (F32.magOfCode (F32.rootCode m) + F32.magOfCode v) ^ 2
      ≤ (F32.magOfCode (F32.rootCode m) + F32.magOfCode (F32.rootCode m - 1)) ^ 2 :=
        Nat.pow_le_pow_left (by omega) 2
    _ ≤ 4 * (m * 2 ^ 149) := F32.le_doubledRoot (by omega) hmid

end

/-- The middle between two values of `a` and `b` units, squared, and a value of `m` units, over a common
denominator. -/
theorem F32.sq_middle (a b : Nat) :
    (((a : Rat) / 2 ^ 149 + (b : Rat) / 2 ^ 149) / 2) ^ 2 = (((a + b) ^ 2 : Nat) : Rat) / (4 * (2 ^ 149) ^ 2) := by
  rw [Nat.cast_pow, Nat.cast_add, ← add_div, div_div, div_pow, mul_pow, mul_comm]
  norm_num

theorem F32.value_over_four (m : Nat) :
    (m : Rat) / 2 ^ 149 = ((4 * (m * 2 ^ 149) : Nat) : Rat) / (4 * (2 ^ 149) ^ 2) := by
  rw [Nat.cast_mul, Nat.cast_mul, Nat.cast_pow, Nat.cast_ofNat, Nat.cast_ofNat]
  field_simp

/-- The root of a positive finite value. -/
theorem F32.sqrt_parts {x : F32} (hx : F32.isFinite x = true) (h : 0 < F32.toRat x) :
    F32.isFinite (F32.sqrt x) = true ∧ 0 ≤ F32.toRat (F32.sqrt x) ∧
      F32.code (F32.sqrt x) = F32.rootCode (F32.mag x) := by
  rw [F32.sqrt_pos hx h]
  refine ⟨(F32.isFinite_round false _).mpr (F32.rootCode_lt (F32.mag_lt hx)), ?_, F32.code_round ..⟩
  rw [F32.toRat_eq, F32.sign_round, if_neg Bool.false_ne_true, one_mul]
  positivity

theorem F32.toRat_lt_iff_code {x y : F32} (hx : 0 ≤ F32.toRat x) (hy : 0 ≤ F32.toRat y) :
    F32.toRat x < F32.toRat y ↔ F32.code x < F32.code y := by
  rw [F32.toRat_of_nonneg hx, F32.toRat_of_nonneg hy, div_lt_div_iff_of_pos_right (by positivity), Nat.cast_lt,
    F32.mag_lt_iff_code]

theorem F32.rootRounds_of_zero {x : F32} (hx : F32.isFinite x = true) (h : F32.toRat x = 0) :
    F32.RootRounds 0 x where
  finite := hx
  nonneg := h.ge
  below v _ _ := by positivity
  above v _ hv hlt := absurd hlt (by rw [h]; exact hv.not_gt)

theorem F32.rootRounds_of_pos {x : F32} (hx : F32.isFinite x = true) (h : 0 < F32.toRat x) :
    F32.RootRounds (F32.toRat x) (F32.sqrt x) := by
  have hm : 0 < F32.mag x := Nat.pos_of_ne_zero (mt (F32.toRat_eq_zero x).mpr h.ne')
  have hlt := F32.mag_lt hx
  obtain ⟨hfin, hw, hcode⟩ := F32.sqrt_parts hx h
  have middle {v : F32} (hv : 0 ≤ F32.toRat v) : ((F32.toRat (F32.sqrt x) + F32.toRat v) / 2) ^ 2 =
      (((F32.magOfCode (F32.rootCode (F32.mag x)) + F32.magOfCode (F32.code v)) ^ 2 : Nat) : Rat) /
        (4 * (2 ^ 149) ^ 2) := by
    rw [F32.toRat_of_nonneg hw, F32.toRat_of_nonneg hv, F32.mag, F32.mag, hcode, F32.sq_middle]
  refine ⟨hfin, hw, fun v _ hwv => ?_, fun v _ hv hvw => ?_⟩
  · have hv : 0 ≤ F32.toRat v := hw.trans hwv.le
    rw [F32.toRat_lt_iff_code hw hv, hcode] at hwv
    rw [middle hv, F32.toRat_of_nonneg h.le, F32.value_over_four]
    gcongr
    exact F32.root_le_middle hm hlt hwv
  · rw [F32.toRat_lt_iff_code hv hw, hcode] at hvw
    rw [middle hv, F32.toRat_of_nonneg h.le, F32.value_over_four]
    gcongr
    exact F32.middle_le_root hm hlt hvw

theorem F32.rootRounds_sqrt {x : F32} (hx : F32.isFinite x = true) (h : 0 ≤ F32.toRat x) :
    F32.RootRounds (F32.toRat x) (F32.sqrt x) := by
  rcases h.eq_or_lt with h0 | hpos
  · rw [F32.sqrt_of_mag_zero (F32.isNaN_of_isFinite hx) ((F32.toRat_eq_zero x).mp h0.symm), ← h0]
    exact F32.rootRounds_of_zero hx h0.symm
  · exact F32.rootRounds_of_pos hx hpos

/-- The root of a number below zero is a NaN. -/
theorem F32.sqrt_of_neg {x : F32} (h : F32.toRat x < 0) : F32.sqrt x = F32.nan :=
  F32.sqrt_of_sign (mt (F32.toRat_eq_zero x).mpr h.ne) (F32.sign_of_neg h)

/-- Settles O42: the doubled root lies on the exact root's side of every middle between two codes near it,
since such a middle is an even number of units; so rounding it rounds the root. -/
theorem squareRootCorrectlyRounded : Obligations.SquareRootCorrectlyRounded := by
  refine ⟨fun x => F32.rootRounds_sqrt, F32.sqrt_of_mag_zero (by decide) (by decide), by decide +kernel,
    fun x hx => ?_, fun x hx => ?_, fun _ => rfl⟩
  · rw [F32.sqrt_nan hx, F32.isNaN_nan]
  · have hn : F32.isNaN x = false := Bool.eq_false_iff.mpr fun h => by simp [F32.lt_nan_left h] at hx
    have hneg : F32.toRat x < F32.toRat F32.c0 := (F32.lt_iff_toRat hn (by decide)).mp hx
    rw [(F32.toRat_eq_zero F32.c0).mpr (by decide)] at hneg
    rw [F32.sqrt_of_neg hneg, F32.isNaN_nan]

end Sys2Proof
end

section
/-! PROOFS. The decoder and the encoder undo each other (R100 to R104), the STATUS word (R34), and a step
by its kind: the engine's completion of PENDING, or the host's write (R31, R33, R55, R83). -/

namespace Sys2Proof

/-! ### The decoder -/

theorem decodePlain_eq_ok {v : Word} {i j : Instr} :
    decodePlain v i = .ok j ↔ v.extractLsb' 4 28 = 0#28 ∧ i = j := by
  unfold decodePlain
  split <;> simp_all

/-- A word with zeros in bits 31:4 is its opcode. -/
theorem eq_opField_of_plain {v : Word} (h : v.extractLsb' 4 28 = 0#28) : v = (opField v).setWidth 32 := by
  have hn := congrArg BitVec.toNat h
  apply BitVec.eq_of_toNat_eq
  simp only [opField, BitVec.extractLsb'_toNat, BitVec.toNat_setWidth, BitVec.toNat_ofNat,
    Nat.shiftRight_eq_div_pow] at hn ⊢
  omega

/-- A word with zeros in bits 31:5 is its offset bit and its opcode. -/
theorem toNat_eq_of_offset {v : Word} (h : v.extractLsb' 5 27 = 0#27) :
    v.toNat = 16 * offsetField v + (opField v).toNat ∧ offsetField v < 2 := by
  have hn := congrArg BitVec.toNat h
  simp only [opField, offsetField, BitVec.extractLsb'_toNat, BitVec.toNat_ofNat,
    Nat.shiftRight_eq_div_pow] at hn ⊢
  omega

/-- A word that decodes is the encoding of the well-formed command it decodes to. -/
theorem eq_encode_of_decodeWord {v : Word} {i : Instr} (h : decodeWord v = .ok i) :
    i.wellFormed = true ∧ v = encode i := by
  unfold decodeWord at h
  have plain : ∀ {j : Instr} {n : Nat}, (opField v).toNat = n → decodePlain v j = .ok i →
      v = BitVec.ofNat 32 n ∧ j = i := by
    intro j n hop hd
    obtain ⟨hz, rfl⟩ := decodePlain_eq_ok.mp hd
    refine ⟨(eq_opField_of_plain hz).trans (BitVec.eq_of_toNat_eq ?_), rfl⟩
    simp [hop]
  split at h
  case h_3 hop =>
    split at h
    next hz =>
      obtain ⟨hv, ho⟩ := toNat_eq_of_offset hz
      cases h
      refine ⟨decide_eq_true ho, BitVec.eq_of_toNat_eq ?_⟩
      rw [hv, hop]
      generalize offsetField v = o at ho
      interval_cases o <;> rfl
    next => cases h
  case h_7 => cases h
  all_goals
    obtain ⟨hv, rfl⟩ := plain ‹_› h
    exact ⟨rfl, hv⟩

/-- The encoding of a well-formed command decodes to it. -/
theorem decodeWord_encode {i : Instr} (h : i.wellFormed = true) : decodeWord (encode i) = .ok i := by
  cases i with
  | merge o =>
    have ho : o < 2 := of_decide_eq_true h
    interval_cases o <;> rfl
  | nop | decode | evaluate | clearFlags | softReset => rfl

theorem tableWord_toNat (v : Word) : tableWord 32 v.toNat = v := by
  rw [tableWord, Nat.min_self, Nat.mod_eq_of_lt v.isLt, BitVec.ofNat_toNat, BitVec.setWidth_eq]

namespace Machine

/-! ### The STATUS word -/

theorem Err.code_le (e : Err) : e.code.toNat ≤ 6 := by cases e <;> decide

/-- The low byte of STATUS holds the eight flags, bit 0 first (R34). -/
theorem Status.getLsbD_word (t : Status) {n : Nat} (h : n < 8) :
    t.word.getLsbD n =
      [t.busy, t.calValid, t.outValid, t.merged0, t.merged1, t.badOverflow, t.nonfinite,
        t.writeWhileBusy][n] := by
  rw [Status.word, BitVec.getLsbD_append, if_pos h]
  interval_cases n <;> simp only [BitVec.getLsbD_append, BitVec.getLsbD_ofBool] <;> simp

/-- Settles O46: the flags are the low byte, and each wider field is one part of the concatenation. -/
theorem statusWordLayout : Obligations.StatusWordLayout := by
  intro t
  refine ⟨t.getLsbD_word (by decide), t.getLsbD_word (by decide), t.getLsbD_word (by decide),
    t.getLsbD_word (by decide), t.getLsbD_word (by decide), t.getLsbD_word (by decide),
    t.getLsbD_word (by decide), t.getLsbD_word (by decide), ?_, ?_, ?_, t.err.code_le⟩
  all_goals rw [Status.word, BitVec.extractLsb'_append_eq_of_le (by decide)]
  · rw [BitVec.extractLsb'_append_eq_of_add_le (by decide), BitVec.extractLsb'_eq_self]
  · rw [BitVec.extractLsb'_append_eq_of_le (by decide),
      BitVec.extractLsb'_append_eq_of_add_le (by decide), BitVec.extractLsb'_eq_self]
  · rw [BitVec.extractLsb'_append_eq_of_le (by decide), BitVec.extractLsb'_append_eq_of_le (by decide),
      BitVec.extractLsb'_eq_self]

/-! ### One step by its kind -/

theorem writePort_cmd {v : Word} {i : Instr} (h : decodeWord v = .ok i) (s : State) :
    writePort cmdAddr v s = exec i s := by
  have hl : locate cmdAddr = .cmd := by decide
  simp only [writePort, hl, writeCmd, h]

/-- A step whose event is a write is that write. -/
theorem step_write {s : State} {a : Addr} {v : Word} {es : List HostEvent} (hd : s.engineDue = false)
    (hi : s.host.inputs = .wr a v :: es) : step s = writePort a v (s.tick.setInputs es) := by
  have ht : s.tick.host.inputs = .wr a v :: es := hi
  simp only [step_host hd, hostTurn, ht]

theorem State.engineDue_iff (s : State) :
    s.engineDue = true ↔ s.status.busy = true ∧ s.busyLeft = 0 := by
  simp [State.engineDue]

/-- A completion that would be due waits for the fetched word (log 1). -/
theorem State.engineDue_withFetchWord (s : State) (n w : Nat) :
    (s.withFetchWord n w).engineDue = false := by
  have e : (s.withFetchWord n w).engineDue =
      (s.status.busy && decide ((if s.engineDue then 1 else s.busyLeft) = 0)) := rfl
  rw [e]
  cases hd : s.engineDue
  · exact hd
  · simp

/-- Settles O4: the completion is not due, so the step is the host's turn, and that is the write. -/
theorem stepRunsDecodedCommand : Obligations.StepRunsDecodedCommand := by
  intro s es
  refine ⟨fun a v hd hi => step_write hd hi, fun v i hv => ⟨fun hd hi => ?_, ?_⟩⟩
  · exact (step_write hd hi).trans (writePort_cmd hv _)
  · have hd := s.engineDue_withFetchWord 32 v.toNat
    have hi : (s.withFetchWord 32 v.toNat).host.inputs = .wr cmdAddr v :: s.host.inputs := by
      rw [State.withFetchWord, tableWord_toNat]
    exact ⟨hd, hi, (s.withFetchWord 32 v.toNat).tick.busyLeft,
      (step_write hd hi).trans (writePort_cmd hv _)⟩

/-- A completion step that is due performs the command in PENDING. -/
theorem step_completes {s : State} (hb : s.status.busy = true) (h0 : s.busyLeft = 0) :
    step s = .next (completePending s) := step_due (s.engineDue_iff.mpr ⟨hb, h0⟩)

/-- Settles O5: the word in PENDING decodes to the command whose completion step is taken. -/
theorem engineCompletesPending : Obligations.EngineCompletesPending := by
  intro s hb h0
  rw [step_completes hb h0]
  refine ⟨fun hp => ?_, fun hp => ?_, fun hp => ?_, fun hp => ?_, fun t ht => ?_⟩
  case refine_5 => exact Host.Outcome.next.inj ht ▸ completePending_busy s
  all_goals rw [completePending, hp]; rfl

end Machine
end Sys2Proof
end

section
/-! PROOFS. What one step can do to the block, and what follows for all steps: who writes the store and the
output set (R45, R51, R266), when the valid flags fall (R36, R37), and the invariant. -/

namespace Sys2Proof.Machine

/-! ### What one event of the host can do to the block -/

/-- Two values of STATUS that say the same of the store, the output set and RAW (R36 to R40). -/
structure Status.SameData (a b : Status) : Prop where
  calValid : b.calValid = a.calValid
  outValid : b.outValid = a.outValid
  merged0 : b.merged0 = a.merged0
  merged1 : b.merged1 = a.merged1
  badOverflow : b.badOverflow = a.badOverflow
  nonfinite : b.nonfinite = a.nonfinite

theorem Status.SameData.refl (a : Status) : a.SameData a := ⟨rfl, rfl, rfl, rfl, rfl, rfl⟩

theorem Status.SameData.merged {a b : Status} (h : a.SameData b) (o : Nat) : b.merged o = a.merged o := by
  unfold Status.merged
  rw [h.merged0, h.merged1]

/-- What an event of the host, `e`, can make of the block (R70 to R83, R331), whatever it does to the
host's own record. -/
inductive HostEffect (e : Option HostEvent) (s t : State) : Prop where
  /-- nothing but the record of a command or of a discarded write in STATUS -/
  | record (block : s.SameBlock t) (data : s.status.SameData t.status)
      (busy : t.status.busy = s.status.busy)
  /-- a word stored in AUX, EE or PIX -/
  | input (idle : t.status.busy = false) (status : t.status = s.status) (store : t.store = s.store)
      (out : t.out = s.out) (badCap : t.badCap = s.badCap)
      (mem : t.mem = s.mem ∨ ∃ a w, bufferAddr a ∧ t.mem = s.mem.write a w)
  /-- a long command accepted -/
  | accepted (i : Instr) (wf : i.wellFormed = true) (check : longCheck i s = some none)
      (pending : t.pending = encode i) (data : s.status.SameData t.status) (mem : t.mem = s.mem)
      (auxValid : t.auxValid = s.auxValid) (store : t.store = s.store) (out : t.out = s.out)
      (badCap : t.badCap = s.badCap)
  /-- the reset operation, by the reset input or by SOFT_RESET -/
  | reset (event : (e = some .hardReset ∧ t.status = Status.cleared) ∨
        (e = some (.wr 0x0001#16 0x0000000F#32) ∧ t.status = { Status.cleared with lastOp := 0xF#4 }))
      (mem : t.mem = []) (store : t.store = s.store) (out : t.out = s.out) (badCap : t.badCap = s.badCap)

/-- A check looks at the buffers, the AUX valid bits and the data flags of STATUS only. -/
theorem longCheck_congr {s t : State} (mem : t.mem = s.mem) (auxValid : t.auxValid = s.auxValid)
    (data : s.status.SameData t.status) (i : Instr) : longCheck i t = longCheck i s := by
  cases i with
  | decode =>
    have complete : t.eeComplete = s.eeComplete := by
      unfold State.eeComplete State.eeValid
      rw [mem]
    simp only [longCheck, decodeCheck, complete]
  | merge o =>
    have pix : t.pixValid = s.pixValid := by
      unfold State.pixValid
      rw [mem]
    simp only [longCheck, mergeCheck, pix]
  | evaluate =>
    simp only [longCheck, evaluateCheck, data.calValid, data.merged0, data.merged1, auxValid]
  | nop | clearFlags | softReset => rfl

/-- An effect on a state in which only the host's side and the counters were moved before. -/
theorem HostEffect.of_sameBlock {e : Option HostEvent} {r s t : State} (h : HostEffect e s t)
    (block : r.SameBlock s) (status : s.status = r.status) : HostEffect e r t := by
  cases h with
  | record b d busy => exact .record (block.trans b) (status ▸ d) (busy.trans (congrArg _ status))
  | input idle st store out cap mem =>
    exact .input idle (st.trans status) (store.trans block.store) (out.trans block.out)
      (cap.trans block.badCap) (block.mem ▸ mem)
  | accepted i wf check p d mem av store out cap =>
    refine .accepted i wf ?_ p (status ▸ d) (mem.trans block.mem) (av.trans block.auxValid)
      (store.trans block.store) (out.trans block.out) (cap.trans block.badCap)
    rw [← check]
    exact (longCheck_congr block.mem block.auxValid (status ▸ .refl _) i).symm
  | reset ev mem store out cap =>
    exact .reset ev mem (store.trans block.store) (out.trans block.out) (cap.trans block.badCap)

theorem hostEffect_discardWrite (e : Option HostEvent) (s : State) : HostEffect e s s.discardWrite :=
  .record s.sameBlock_discardWrite ⟨rfl, rfl, rfl, rfl, rfl, rfl⟩ rfl

theorem hostEffect_raiseError (e : Option HostEvent) (s : State) (op : BitVec 4) (x : Err) :
    HostEffect e s (s.raiseError op x) :=
  .record ⟨rfl, rfl, rfl, rfl, rfl, rfl, rfl⟩ ⟨rfl, rfl, rfl, rfl, rfl, rfl⟩ rfl

/-- The effect of a command word written to CMD. -/
theorem hostEffect_exec {s t : State} {v : Word} {i : Instr} (hv : decodeWord v = .ok i)
    (h : exec i s = .next t) : HostEffect (some (.wr cmdAddr v)) s t := by
  obtain ⟨wf, hi⟩ := eq_encode_of_decodeWord hv
  rcases exec_cases h with ⟨-, -, rfl⟩ | ⟨-, x, rfl⟩ | ⟨-, -, rfl⟩ | ⟨-, -, rfl⟩ | ⟨rfl, rfl⟩ |
    ⟨-, check, rfl⟩
  · exact hostEffect_discardWrite _ s
  · exact hostEffect_raiseError _ s _ x
  · exact .record ⟨rfl, rfl, rfl, rfl, rfl, rfl, rfl⟩ ⟨rfl, rfl, rfl, rfl, rfl, rfl⟩ rfl
  · exact .record ⟨rfl, rfl, rfl, rfl, rfl, rfl, rfl⟩ ⟨rfl, rfl, rfl, rfl, rfl, rfl⟩ rfl
  · exact .reset (.inr ⟨hi ▸ rfl, rfl⟩) rfl rfl rfl rfl
  · exact .accepted i wf check rfl ⟨rfl, rfl, rfl, rfl, rfl, rfl⟩ rfl rfl rfl rfl rfl

/-- The effect of a word stored in a location. -/
theorem hostEffect_storeLoc (e : Option HostEvent) {s : State} (hb : s.status.busy = false) (a : Addr)
    (v : Word) : HostEffect e s (s.storeLoc v (locate a)) := by
  rcases s.storeLoc_cases v (locate a) with h | ⟨r, -, h⟩ | ⟨k, hl, h⟩ | ⟨i, -, h⟩ <;> rw [h]
  · exact .record (.refl s) (.refl _) rfl
  · exact .input hb rfl rfl rfl rfl (.inl rfl)
  · have hk := (locate_eq_ee.mp hl).2
    exact .input hb rfl rfl rfl rfl (.inr ⟨_, _, .inl (by unfold eeBase; omega), rfl⟩)
  · have hi : i.val < 768 := i.isLt
    exact .input hb rfl rfl rfl rfl (.inr ⟨_, _, .inr (.inl (by unfold pixBase; omega)), rfl⟩)

/-- The effect of a write transaction. -/
theorem hostEffect_writePort {s t : State} {a : Addr} {v : Word} (h : writePort a v s = .next t) :
    HostEffect (some (.wr a v)) s t := by
  rcases writePort_cases h with ⟨hl, hc⟩ | ⟨-, rfl⟩ | ⟨hb, rfl⟩
  · rcases writeCmd_cases hc with ⟨i, hv, hx⟩ | ⟨-, rfl⟩ | ⟨-, rfl⟩
    · rw [locate_eq_cmd.mp hl]
      exact hostEffect_exec hv hx
    · exact hostEffect_discardWrite _ s
    · exact hostEffect_raiseError _ s _ _
  · exact hostEffect_discardWrite _ s
  · exact hostEffect_storeLoc _ hb a v

/-- The effect of the host's next event. -/
theorem hostEffect_hostTurn {s t : State} (h : hostTurn s = .next t) :
    HostEffect s.host.inputs.head? s t := by
  have read {r : State} (b : s.SameBlock r) (st : r.status = s.status) :
      HostEffect s.host.inputs.head? s r := .record b (st ▸ .refl _) (congrArg _ st)
  have pop (es a) : s.SameBlock ((s.setInputs es).observe a) :=
    (s.sameBlock_setInputs es).trans (State.sameBlock_observe _ a)
  rcases hostTurn_cases h with ⟨-, rfl⟩ | ⟨a, v, es, hi, hw⟩ | ⟨a, es, -, rfl⟩ | ⟨a, name, es, -, rfl⟩ |
    ⟨a, v, es, -, rfl⟩ | ⟨es, -, rfl⟩ | ⟨es, hi, rfl⟩
  · exact read (.refl _) rfl
  · rw [hi]
    exact (hostEffect_writePort hw).of_sameBlock (s.sameBlock_setInputs es) rfl
  · exact read (pop es a) rfl
  · exact read ((pop es a).trans (State.sameBlock_bindName _ name _)) rfl
  · exact read ((pop es a).trans (State.sameBlock_judge _ _)) rfl
  · exact read (pop _ _) rfl
  · rw [hi]
    exact .reset (.inl ⟨rfl, rfl⟩) rfl rfl rfl rfl

/-- What one step can do: complete PENDING when that is due, or take the effect of the host's next event. -/
theorem step_cases {s t : State} (h : step s = .next t) :
    (s.engineDue = true ∧ t = completePending s) ∨
    (s.engineDue = false ∧ HostEffect s.host.inputs.head? s t) := by
  cases hd : s.engineDue
  · rw [step_host hd] at h
    exact .inr ⟨rfl, (hostEffect_hostTurn h).of_sameBlock s.sameBlock_tick rfl⟩
  · rw [step_due hd] at h
    exact .inl ⟨rfl, (Host.Outcome.next.inj h).symm⟩

/-! ### The store, the output set and the valid flags -/

/-- No event of the host changes the store or the output set. -/
theorem HostEffect.keeps {e : Option HostEvent} {s t : State} (h : HostEffect e s t) :
    t.store = s.store ∧ t.out = s.out ∧ t.badCap = s.badCap := by
  cases h with
  | record b => exact ⟨b.store, b.out, b.badCap⟩
  | input _ _ store out cap => exact ⟨store, out, cap⟩
  | accepted _ _ _ _ _ _ _ store out cap => exact ⟨store, out, cap⟩
  | reset _ _ store out cap => exact ⟨store, out, cap⟩

/-- Settles O57: a completion writes one of the two, and which one tells the command in PENDING. -/
theorem storeAndOutputHaveOneWriter : Obligations.StoreAndOutputHaveOneWriter := by
  intro s t h
  rcases step_cases h with ⟨hd, rfl⟩ | ⟨-, he⟩
  · obtain ⟨hb, h0⟩ := s.engineDue_iff.mp hd
    rcases completePending_cases s with ⟨hp, e⟩ | ⟨o, -, e⟩ | ⟨hp, e⟩ | e <;> rw [e]
    · have hw := (eq_encode_of_decodeWord hp).2
      exact ⟨fun _ => ⟨hb, h0, hw, rfl, rfl⟩, fun n => absurd rfl n⟩
    · exact ⟨fun n => absurd rfl n, fun n => absurd rfl n⟩
    · have hw := (eq_encode_of_decodeWord hp).2
      exact ⟨fun n => absurd rfl n, fun _ => ⟨hb, h0, hw, rfl, rfl, rfl⟩⟩
    · exact ⟨fun n => absurd rfl n, fun n => absurd rfl n⟩
  · obtain ⟨store, out, -⟩ := he.keeps
    exact ⟨fun n => absurd store n, fun n => absurd out n⟩

/-- A completion step clears neither CAL_VALID nor OUT_VALID. -/
theorem completePending_keeps_valid (s : State) :
    (s.status.calValid = true → (completePending s).status.calValid = true) ∧
    (s.status.outValid = true → (completePending s).status.outValid = true) := by
  rcases completePending_cases s with ⟨-, e⟩ | ⟨o, -, e⟩ | ⟨-, e⟩ | e <;> rw [e]
  · exact ⟨fun _ => rfl, fun h => h⟩
  · rw [completeMerge_status]
    unfold Status.setMerged
    split <;> exact ⟨fun h => h, fun h => h⟩
  · exact ⟨fun h => h, fun _ => rfl⟩
  · exact ⟨fun h => h, fun h => h⟩

/-- Settles O58: of what a step can do, only a reset clears a valid flag. -/
theorem validFlagsFallOnlyByReset : Obligations.ValidFlagsFallOnlyByReset := by
  intro s t h hf
  have notKept : ¬((s.status.calValid = true → t.status.calValid = true) ∧
      (s.status.outValid = true → t.status.outValid = true)) := by
    rintro ⟨hc, ho⟩
    rcases hf with ⟨h1, h2⟩ | ⟨h1, h2⟩
    · exact absurd (hc h1) (by simp [h2])
    · exact absurd (ho h1) (by simp [h2])
  rcases step_cases h with ⟨-, rfl⟩ | ⟨hd, he⟩
  · exact absurd (completePending_keeps_valid s) notKept
  cases he with
  | record _ d => exact absurd ⟨fun h => d.calValid.trans h, fun h => d.outValid.trans h⟩ notKept
  | input _ st => exact absurd ⟨fun h => st ▸ h, fun h => st ▸ h⟩ notKept
  | accepted _ _ _ _ d => exact absurd ⟨fun h => d.calValid.trans h, fun h => d.outValid.trans h⟩ notKept
  | reset ev mem =>
    refine ⟨hd, ?_, mem, ?_⟩
    · rcases ev with ⟨he, st⟩ | ⟨he, st⟩ <;> rw [st]
      · exact .inl ⟨he, by decide⟩
      · exact .inr ⟨he, by decide⟩
    · rcases ev with ⟨-, st⟩ | ⟨-, st⟩ <;> rw [st] <;> rfl

end Sys2Proof.Machine
end

section
/-! PROOFS. Every step keeps the invariant of the machine. -/

namespace Sys2Proof

/-- The entries of a table are its values at the indices. -/
theorem Table.mem_vals {n : Nat} {α : Type} (t : Table n α) (x : α) : x ∈ t.vals ↔ ∃ i, t.get i = x := by
  rw [List.mem_iff_getElem]
  exact ⟨fun ⟨k, hk, e⟩ => ⟨⟨k, t.len ▸ hk⟩, e⟩, fun ⟨i, e⟩ => ⟨i.val, t.len.symm ▸ i.isLt, e⟩⟩

namespace Machine

/-- NONFINITE says that some entry of the grid is not finite (R265). -/
theorem anyNonfinite_iff (g : Grid F32) :
    anyNonfinite g = true ↔ ∃ i, F32.isFinite (g.get i) = false := by
  simp only [anyNonfinite, List.any_eq_true, Table.mem_vals, Bool.not_eq_true']
  exact ⟨fun ⟨_, ⟨i, rfl⟩, h⟩ => ⟨i, h⟩, fun ⟨i, h⟩ => ⟨_, ⟨i, rfl⟩, h⟩⟩

/-- The draws for the NaNs of a grid change nothing about NONFINITE. -/
theorem anyNonfinite_outputsOf (d : Nat) (fs : FrameScalars) (g : Grid F32) :
    anyNonfinite (outputsOf d fs g).temp = anyNonfinite g := by
  rw [Bool.eq_iff_iff, anyNonfinite_iff, anyNonfinite_iff]
  simp only [outputsOf_temp, F32.isFinite_settle]

/-! ### Merged halves -/

theorem Status.merged_setMerged (t : Status) (o o' : Nat) :
    (t.setMerged o).merged o' = (decide (o' % 2 = o % 2) || t.merged o') := by
  unfold Status.merged Status.setMerged
  rcases Nat.mod_two_eq_zero_or_one o with h | h <;>
    rcases Nat.mod_two_eq_zero_or_one o' with h' | h' <;> simp [h, h']

/-- A MERGE lists the RAW words of its half and unlists none. -/
theorem Memory.listed_copies (m : Memory) (o b : Nat) :
    ((subIndices o).foldl copyPixel m).listed b =
      (decide (rawBase ≤ b ∧ b - rawBase ∈ subIndices o) || m.listed b) := by
  unfold Memory.listed
  rw [Memory.lookup_copies _ fun _ => lt_of_mem_subIndices]
  split <;> simp_all

/-! ### The invariant -/

/-- The invariant passes to a state whose STATUS says the same of the same store and output set, and whose
buffers are sound and hold no fewer RAW words. -/
theorem State.Inv.carried {s t : State} (h : s.Inv) (data : s.status.SameData t.status)
    (store : t.store = s.store) (out : t.out = s.out) (badCap : t.badCap = s.badCap)
    (memWf : t.mem.wf) (memInBuffers : ∀ c ∈ t.mem, bufferAddr c.1)
    (raw : ∀ idx, s.rawMerged idx = true → t.rawMerged idx = true)
    (pendingLong : t.status.busy = true →
      ∃ i, i.wellFormed = true ∧ t.pending = encode i ∧ longCheck i t = some none) : t.Inv where
  memWf := memWf
  memInBuffers := memInBuffers
  capLegal := badCap ▸ h.capLegal
  pendingLong := pendingLong
  storeDecoded := by
    rw [data.calValid, data.badOverflow, store, badCap]
    exact h.storeDecoded
  mergedHalf := fun o ho idx hi => raw idx (h.mergedHalf o (data.merged o ▸ ho) idx hi)
  outputMatches := by
    rw [data.outValid, data.nonfinite, out]
    exact h.outputMatches

/-- A state with the buffers of one that meets the invariant keeps what the invariant says of them. -/
theorem State.Inv.carried_sameMem {s t : State} (h : s.Inv) (data : s.status.SameData t.status)
    (mem : t.mem = s.mem) (store : t.store = s.store) (out : t.out = s.out) (badCap : t.badCap = s.badCap)
    (pendingLong : t.status.busy = true →
      ∃ i, i.wellFormed = true ∧ t.pending = encode i ∧ longCheck i t = some none) : t.Inv := by
  refine h.carried data store out badCap (mem ▸ h.memWf) (mem ▸ h.memInBuffers) ?_ pendingLong
  unfold State.rawMerged
  rw [mem]
  exact fun _ hi => hi

/-- A word stored in a buffer keeps what the invariant says of the buffers. -/
theorem State.Inv.carried_write {s t : State} (h : s.Inv) (idle : t.status.busy = false)
    (status : t.status = s.status) (store : t.store = s.store) (out : t.out = s.out)
    (badCap : t.badCap = s.badCap) {a : Nat} {w : Half} (ha : bufferAddr a)
    (mem : t.mem = s.mem.write a w) : t.Inv := by
  refine h.carried (status ▸ .refl _) store out badCap (mem ▸ Memory.wf_write h.memWf a w) ?_ ?_
    (by simp [idle])
  · intro c hc
    rw [mem] at hc
    rcases Memory.mem_write hc with rfl | hc
    · exact ha
    · exact h.memInBuffers c hc
  · intro idx hi
    unfold State.rawMerged at hi ⊢
    rw [mem, Memory.listed_write, hi, Bool.or_true]

/-- The reset operation leaves nothing the invariant speaks of but the capacity. -/
theorem State.Inv.after_reset {s t : State} (h : s.Inv) (mem : t.mem = [])
    (badCap : t.badCap = s.badCap) (data : Status.cleared.SameData t.status)
    (busy : t.status.busy = false) : t.Inv where
  memWf := mem ▸ Memory.wf_nil
  memInBuffers := by simp [mem]
  capLegal := badCap ▸ h.capLegal
  pendingLong := by simp [busy]
  storeDecoded := by simp [data.calValid, Status.cleared]
  mergedHalf := fun o ho => by
    rw [data.merged] at ho
    simp [Status.merged, Status.cleared] at ho
  outputMatches := by simp [data.outValid, Status.cleared]

/-- Every event of the host keeps the invariant. -/
theorem HostEffect.keeps_inv {e : Option HostEvent} {s t : State} (he : HostEffect e s t) (h : s.Inv) :
    t.Inv := by
  cases he with
  | record b d busy =>
    refine h.carried_sameMem d b.mem b.store b.out b.badCap fun hb => ?_
    obtain ⟨i, wf, hp, hc⟩ := h.pendingLong (busy ▸ hb)
    exact ⟨i, wf, b.pending.trans hp, (longCheck_congr b.mem b.auxValid d i).trans hc⟩
  | input idle st store out cap mem =>
    rcases mem with mem | ⟨a, w, ha, mem⟩
    · exact h.carried_sameMem (st ▸ .refl _) mem store out cap (by simp [idle])
    · exact h.carried_write idle st store out cap ha mem
  | accepted i wf check p d mem av store out cap =>
    exact h.carried_sameMem d mem store out cap fun _ =>
      ⟨i, wf, p, (longCheck_congr mem av d i).trans check⟩
  | reset ev mem _ _ cap =>
    rcases ev with ⟨-, st⟩ | ⟨-, st⟩ <;>
      exact h.after_reset mem cap (st ▸ ⟨rfl, rfl, rfl, rfl, rfl, rfl⟩) (by rw [st]; rfl)

/-- DECODE's completion writes a whole store with its flags (R36, R39, R51). -/
theorem State.Inv.completeDecode {s : State} (h : s.Inv) : (completeDecode s).Inv where
  memWf := h.memWf
  memInBuffers := h.memInBuffers
  capLegal := h.capLegal
  pendingLong := by simp
  storeDecoded := fun _ => ⟨s.ee, by simp only [completeDecode_store, completeDecode_badCap],
    by simp only [completeDecode_status, completeDecode_badCap]⟩
  mergedHalf := by simpa [Status.merged, State.rawMerged] using h.mergedHalf
  outputMatches := by simpa using h.outputMatches

/-- MERGE's completion fills the whole half it marks (R38, R200, R202). -/
theorem State.Inv.completeMerge {s : State} (h : s.Inv) (o : Nat) : (completeMerge o s).Inv where
  memWf := by
    rw [completeMerge_mem]
    exact Memory.wf_copies _ h.memWf
  memInBuffers := fun c hc => by
    rw [completeMerge_mem] at hc
    rcases Memory.mem_copies _ hc with hc | ⟨x, hx, e⟩
    · exact h.memInBuffers c hc
    · have hx' : x < 768 := lt_of_mem_subIndices hx
      exact .inr (.inr (by rw [e]; unfold rawBase; omega))
  capLegal := h.capLegal
  pendingLong := by simp
  storeDecoded := by
    have kept : (s.status.setMerged o).calValid = s.status.calValid ∧
        (s.status.setMerged o).badOverflow = s.status.badOverflow := by
      unfold Status.setMerged
      split <;> exact ⟨rfl, rfl⟩
    simpa [kept] using h.storeDecoded
  mergedHalf := fun o' ho idx hi => by
    have hm : (s.status.setMerged o).merged o' = true := by rwa [completeMerge_status] at ho
    rw [Status.merged_setMerged, Bool.or_eq_true, decide_eq_true_eq] at hm
    rw [State.rawMerged, completeMerge_mem, Memory.listed_copies, Bool.or_eq_true, decide_eq_true_eq]
    rcases hm with same | before
    · refine .inl ⟨Nat.le_add_right _ _, ?_⟩
      rw [mem_subIndices] at hi
      rw [Nat.add_sub_cancel_left, mem_subIndices]
      omega
    · exact .inr (h.mergedHalf o' before idx hi)
  outputMatches := by
    have kept : (s.status.setMerged o).outValid = s.status.outValid ∧
        (s.status.setMerged o).nonfinite = s.status.nonfinite := by
      unfold Status.setMerged
      split <;> exact ⟨rfl, rfl⟩
    simpa [kept] using h.outputMatches

/-- EVALUATE's completion writes an output set with its flags and takes both halves (R40, R264, R265). -/
theorem State.Inv.completeEvaluate {s : State} (h : s.Inv) : (completeEvaluate s).Inv where
  memWf := h.memWf
  memInBuffers := h.memInBuffers
  capLegal := h.capLegal
  pendingLong := by simp
  storeDecoded := h.storeDecoded
  mergedHalf := fun o ho => by
    unfold Status.merged at ho
    split at ho <;> cases ho
  outputMatches := fun _ => by
    simp only [completeEvaluate_out, completeEvaluate_status, outputsOf_minTemp, outputsOf_maxTemp,
      anyNonfinite_outputsOf, and_self]

/-- The completion of PENDING keeps the invariant, whatever PENDING holds. -/
theorem State.Inv.completePending {s : State} (h : s.Inv) : (completePending s).Inv := by
  rcases completePending_cases s with ⟨-, e⟩ | ⟨o, -, e⟩ | ⟨-, e⟩ | e <;> rw [e]
  · exact h.completeDecode
  · exact h.completeMerge o
  · exact h.completeEvaluate
  · exact h.carried_sameMem ⟨rfl, rfl, rfl, rfl, rfl, rfl⟩ rfl rfl rfl rfl (by simp)

/-- Settles O55: a step completes PENDING or takes an event of the host, and both keep the invariant. -/
theorem stepKeepsInvariant : Obligations.StepKeepsInvariant := by
  intro s t h hs
  rcases step_cases hs with ⟨-, rfl⟩ | ⟨-, he⟩
  · exact h.completePending
  · exact he.keeps_inv h

end Machine

end Sys2Proof
end

section
/-! PROOFS. What every readable address shows while BUSY is 0 (R44 to R50, R71, R75, R77). -/

namespace Sys2Proof.Machine

/-! ### The address map read forwards -/

theorem pixelIn_add (base : Nat) (i : Pixel) : pixelIn base (base + i.val) = some i :=
  pixelIn_eq_some.mpr rfl

theorem pixelIn_none {base n : Nat} (h : n < base ∨ base + 768 ≤ n) : pixelIn base n = none :=
  pixelIn_eq_none.mpr h

/-- The first addresses of the windows of 768 words, and what the words of a window are (R71). -/
def pixelWindows : List (Nat × (Pixel → Loc)) :=
  [(0x0800, .pix), (0x0C00, .raw), (0x1000, .temp), (0x1400, .pixOsRef), (0x1800, .a), (0x1C00, .kV),
    (0x2000, .kTa), (0x2400, .pattern)]

theorem pixelWindow_add (base : Nat) (loc : Pixel → Loc) (i : Pixel)
    (h : (base, loc) ∈ pixelWindows := by simp [pixelWindows]) : pixelWindow (base + i.val) = loc i := by
  have hi : i.val < 768 := i.isLt
  simp only [pixelWindows, List.mem_cons, Prod.mk.injEq, List.not_mem_nil, or_false] at h
  rcases h with ⟨rfl, rfl⟩ | ⟨rfl, rfl⟩ | ⟨rfl, rfl⟩ | ⟨rfl, rfl⟩ | ⟨rfl, rfl⟩ | ⟨rfl, rfl⟩ |
    ⟨rfl, rfl⟩ | ⟨rfl, rfl⟩ <;>
  simp (disch := omega) only [pixelWindow, pixBase, rawBase, pixelIn_none, pixelIn_add]

theorem locate_high {a : Addr} (h : 0x0740 ≤ a.toNat) : locate a = pixelWindow a.toNat := by
  unfold locate eeBase eeWords
  rw [if_neg (by omega), if_neg (by omega)]

/-- A word of a window is named by the window's base plus the pixel's index. -/
theorem locate_window (base : Nat) (loc : Pixel → Loc) (i : Pixel)
    (h : (base, loc) ∈ pixelWindows := by simp [pixelWindows]) :
    locate (BitVec.ofNat 16 (base + i.val)) = loc i := by
  have hi : i.val < 768 := i.isLt
  have hb : 0x0800 ≤ base ∧ base ≤ 0x2400 := by
    revert h
    simp only [pixelWindows, List.mem_cons, Prod.mk.injEq, List.not_mem_nil, or_false]
    omega
  have hn : (BitVec.ofNat 16 (base + i.val)).toNat = base + i.val := by
    rw [BitVec.toNat_ofNat, Nat.mod_eq_of_lt (by omega)]
  rw [locate_high (by omega), hn, pixelWindow_add base loc i h]

theorem locate_ee {k : Nat} (hk : k < 832) : locate (BitVec.ofNat 16 (0x0400 + k)) = .ee k := by
  rw [locate_eq_ee, BitVec.toNat_ofNat, Nat.mod_eq_of_lt (by omega)]
  exact ⟨rfl, hk⟩

/-- The addresses of the calibration scalars. -/
theorem registerLoc_cal {n : Nat} (h1 : 0x40 ≤ n) (h2 : n ≤ 0x59) : ∃ f, registerLoc n = .cal f := by
  interval_cases n <;> exact ⟨_, rfl⟩

theorem registerLoc_badIdx {n : Nat} (h1 : 0x28 ≤ n) (h2 : n ≤ 0x2F) : ∃ k, registerLoc n = .badIdx k := by
  interval_cases n <;> exact ⟨_, rfl⟩

theorem registerLoc_ev {n : Nat} (h1 : 0x30 ≤ n) (h2 : n ≤ 0x36) : ∃ e, registerLoc n = .ev e := by
  interval_cases n <;> exact ⟨_, rfl⟩

theorem locate_register {a : Addr} (h : a.toNat < 0x0400) : locate a = registerLoc a.toNat := by
  unfold locate eeBase
  rw [if_pos h]

/-! ### Reads while BUSY is 0 -/

theorem ofHalf_eq_append (w : Half) : ofHalf w = 0#16 ++ w := BitVec.setWidth_eq_append (by decide)

theorem ofNat_eq_ofInt (n : Nat) : BitVec.ofNat 32 n = BitVec.ofInt 32 (n : Int) :=
  (BitVec.ofInt_natCast 32 n).symm

section
variable {s : State} (hb : s.status.busy = false) {a : Addr}
include hb

theorem State.peek_idle {l : Loc} (hl : locate a = l) : s.peek a = s.contents l := by
  simp only [State.peek, hb, hl, Bool.false_and, Bool.false_eq_true, if_false]

section
variable {valid : Bool} {w : Word} {l : Loc} (hl : locate a = l) (hw : s.contents l = whenValid valid w)
include hl hw

/-- A location shows its value once its valid bit is 1, and a draw before (R75). -/
theorem State.peek_valid (hv : valid = true) : s.peek a = some w := by
  rw [State.peek_idle hb hl, hw, hv]
  rfl

theorem State.peek_invalid (hv : valid = false) : s.peek a = none := by
  rw [State.peek_idle hb hl, hw, hv]
  rfl

end

theorem State.peek_cal (hc : s.status.calValid = true) {f : CalField} (hl : locate a = .cal f) :
    s.peek a = some (s.store.readback f) := State.peek_valid hb hl rfl hc

theorem State.peek_badCount (hc : s.status.calValid = true) (hl : locate a = .badCount) :
    s.peek a = some (BitVec.ofInt 32 s.store.badPixels.length) := by
  rw [State.peek_valid hb hl rfl hc, CalStore.badCount, ofNat_eq_ofInt]

theorem State.peek_pattern (hc : s.status.calValid = true) {i : Pixel} (hl : locate a = .pattern i) :
    s.peek a = some (BitVec.ofInt 32 (s.store.pattern.get i).val) := by
  rw [State.peek_valid hb hl rfl hc, ofNat_eq_ofInt]

theorem State.peek_ev (ho : s.status.outValid = true) {e : EvName} (hl : locate a = .ev e) :
    s.peek a = some (s.out.readback e) := State.peek_valid hb hl rfl ho

theorem State.peek_aux {r : AuxName} (hv : s.auxValid.get r = true) (hl : locate a = .aux r) :
    s.peek a = some (0#16 ++ s.aux.get r) := by
  rw [State.peek_valid hb hl rfl hv, ofHalf_eq_append]

/-- A word of EE, PIX or RAW, at its block address `n`, shows zero-extended when it is listed. -/
theorem State.peek_buffer {l : Loc} {n : Nat} (hl : locate a = l)
    (hc : s.contents l = (s.mem.lookup n).map ofHalf) :
    s.peek a = (s.mem.lookup n).map fun w => 0#16 ++ w := by
  rw [State.peek_idle hb hl, hc]
  exact congrArg (fun f => (s.mem.lookup n).map f) (funext ofHalf_eq_append)

theorem State.peek_listed {l : Loc} {n : Nat} (hl : locate a = l)
    (hc : s.contents l = (s.mem.lookup n).map ofHalf) :
    (s.mem.listed n = true → s.peek a = some (0#16 ++ s.mem.read n)) ∧
    (s.mem.listed n = false → s.peek a = none) := by
  rw [State.peek_buffer hb hl hc, Memory.listed, Memory.read]
  cases s.mem.lookup n <;> simp

/-- What belongs to the calibration store is a draw while CAL_VALID is 0 (R75). -/
theorem State.peek_uncalibrated (hc : s.status.calValid = false)
    (h : a = 0x0022#16 ∨ (0x0028 ≤ a.toNat ∧ a.toNat ≤ 0x002F) ∨ (0x0040 ≤ a.toNat ∧ a.toNat ≤ 0x0059) ∨
      (0x1400 ≤ a.toNat ∧ a.toNat < 0x2700 ∧ a.toNat % 0x0400 < 768)) : s.peek a = none := by
  rcases h with rfl | ⟨h1, h2⟩ | ⟨h1, h2⟩ | ⟨h1, h2, h3⟩
  · exact State.peek_invalid hb (l := .badCount) rfl rfl hc
  · obtain ⟨k, hk⟩ := registerLoc_badIdx h1 h2
    exact State.peek_invalid hb ((locate_register (by omega)).trans hk) rfl hc
  · obtain ⟨f, hf⟩ := registerLoc_cal h1 h2
    exact State.peek_invalid hb ((locate_register (by omega)).trans hf) rfl hc
  · have hl := locate_high (a := a) (by omega)
    rcases pixelWindow_spec a.toNat with ⟨i, hi, e⟩ | ⟨i, hi, e⟩ | ⟨i, hi, e⟩ | ⟨i, hi, e⟩ | ⟨i, hi, e⟩ |
      ⟨i, hi, e⟩ | ⟨i, hi, e⟩ | ⟨i, hi, e⟩ | ⟨-, outside⟩
    case inl | inr.inl | inr.inr.inl =>
      have := i.isLt
      unfold nPix at this
      omega
    case inr.inr.inr.inr.inr.inr.inr.inr =>
      simp only [List.mem_cons, List.not_mem_nil, or_false, forall_eq_or_imp, forall_eq] at outside
      omega
    all_goals exact State.peek_invalid hb (hl.trans e) rfl hc

/-- What belongs to the output set is a draw while OUT_VALID is 0 (R75). -/
theorem State.peek_withoutOutput (ho : s.status.outValid = false)
    (h : a = 0x0020#16 ∨ a = 0x0021#16 ∨ (0x0030 ≤ a.toNat ∧ a.toNat ≤ 0x0036) ∨
      (0x1000 ≤ a.toNat ∧ a.toNat ≤ 0x12FF)) : s.peek a = none := by
  rcases h with rfl | rfl | ⟨h1, h2⟩ | ⟨h1, h2⟩
  · exact State.peek_invalid hb (l := .minTemp) rfl rfl ho
  · exact State.peek_invalid hb (l := .maxTemp) rfl rfl ho
  · obtain ⟨e, he⟩ := registerLoc_ev h1 h2
    exact State.peek_invalid hb ((locate_register (by omega)).trans he) rfl ho
  · have e : pixelWindow a.toNat = .temp ⟨a.toNat - 0x1000, by unfold nPix; omega⟩ := by
      rw [← pixelWindow_add 0x1000 .temp]
      exact congrArg pixelWindow (by simp only; omega)
    exact State.peek_invalid hb ((locate_high (by omega)).trans e) rfl ho

end

theorem locate_ksTo (r : Fin 4) : locate (BitVec.ofNat 16 (0x0052 + r.val)) = .cal (.ksTo r) := by
  revert r
  decide

theorem locate_alphaCorr (r : Fin 4) :
    locate (BitVec.ofNat 16 (0x0056 + r.val)) = .cal (.alphaCorr r) := by
  revert r
  decide

theorem locate_badIdx {k : Nat} (hk : k < 8) : locate (BitVec.ofNat 16 (0x0028 + k)) = .badIdx k := by
  interval_cases k <;> rfl

/-- Settles O51: the map says what an address names, and what a location names shows once its valid bit
is 1. -/
theorem readbackShowsState : Obligations.ReadbackShowsState := by
  intro s hb
  refine ⟨fun hc => ?_, fun ho => ?_, ?_, ?_, fun k hk => ?_, fun i => ?_, fun i => ?_, fun hc a => ?_,
    fun ho a => ?_, fun r a hl => ?_⟩
  · have cal (f : CalField) (a : Addr) (hl : locate a = .cal f) := State.peek_cal hb hc hl
    refine ⟨cal .kVdd _ rfl, cal .vdd25 _ rfl, cal .kVPtat _ rfl, cal .kTPtat _ rfl, cal .vPtat25 _ rfl,
      cal .alphaPtat _ rfl, cal .gain _ rfl, cal .ksTa _ rfl, cal .ct3 _ rfl, cal .ct4 _ rfl,
      cal .tgc _ rfl, ?_, cal .aCP0 _ rfl, cal .aCP1 _ rfl, cal .offCP0 _ rfl, cal .offCP1 _ rfl,
      cal .kVCP _ rfl, cal .kTaCP _ rfl, fun r => cal (.ksTo r) _ (locate_ksTo r),
      fun r => cal (.alphaCorr r) _ (locate_alphaCorr r), State.peek_badCount hb hc rfl,
      fun k hk => State.peek_valid hb (locate_badIdx hk) rfl hc, fun i => ⟨?_, ?_, ?_, ?_, ?_⟩⟩
    · exact (cal .resolution _ rfl).trans (congrArg some (ofNat_eq_ofInt _))
    · exact State.peek_valid hb (locate_window 0x1400 .pixOsRef i) rfl hc
    · exact State.peek_valid hb (locate_window 0x1800 .a i) rfl hc
    · exact State.peek_valid hb (locate_window 0x1C00 .kV i) rfl hc
    · exact State.peek_valid hb (locate_window 0x2000 .kTa i) rfl hc
    · exact State.peek_pattern hb hc (locate_window 0x2400 .pattern i)
  · have ev (e : EvName) (a : Addr) (hl : locate a = .ev e) := State.peek_ev hb ho hl
    exact ⟨State.peek_valid hb (l := .minTemp) rfl rfl ho, State.peek_valid hb (l := .maxTemp) rfl rfl ho,
      ev .resCorr _ rfl, ev .vdd _ rfl, ev .ta _ rfl, ev .kGain _ rfl, ev .cp0 _ rfl, ev .cp1 _ rfl,
      ev .taR _ rfl,
      fun i => State.peek_valid hb (locate_window 0x1000 .temp i) rfl ho⟩
  · have aux (r : AuxName) (a : Addr) (hl : locate a = .aux r) (hv : s.auxValid.get r = true) :=
      State.peek_aux hb hv hl
    exact ⟨aux .vbe _ rfl, aux .cpSp0 _ rfl, aux .gain _ rfl, aux .ptat _ rfl, aux .cpSp1 _ rfl,
      aux .vdd _ rfl, aux .ctrl _ rfl⟩
  · exact ⟨State.peek_idle hb (l := .id) rfl, State.peek_idle hb (l := .status) rfl⟩
  · exact State.peek_listed hb (locate_ee hk) rfl
  · obtain ⟨pix, noPix⟩ :=
      State.peek_listed hb (locate_window 0x0800 .pix i) rfl
    obtain ⟨raw, noRaw⟩ :=
      State.peek_listed hb (locate_window 0x0C00 .raw i) rfl
    exact ⟨pix, noPix, raw, noRaw⟩
  · exact State.peek_buffer hb (locate_window 0x0C00 .raw i) rfl
  · exact State.peek_uncalibrated hb hc
  · exact State.peek_withoutOutput hb ho
  · exact State.peek_invalid hb hl rfl

end Sys2Proof.Machine
end

section
/-! PROOFS. The address map (R71), the reserved and the read-only addresses (R72, R73), and the input
locations (R74, R81, R52 to R54). -/

namespace Sys2Proof.Machine

/-! ### The whole map (R71) -/

/-- An address in a window of 768 words names the word at its offset. -/
theorem locate_inWindow {a : Addr} (base : Nat) (loc : Pixel → Loc) (lo : base ≤ a.toNat)
    (hi : a.toNat < base + 768) (h : (base, loc) ∈ pixelWindows := by simp [pixelWindows]) :
    ∃ i : Pixel, locate a = loc i ∧ a.toNat = base + i.val := by
  have hn : a.toNat = base + (a.toNat - base) := by omega
  refine ⟨⟨a.toNat - base, by unfold nPix; omega⟩, ?_, hn⟩
  rw [← locate_window base loc _ h, ← hn, BitVec.ofNat_toNat, BitVec.setWidth_eq]

/-- The addresses of the first page that name nothing. -/
theorem registerLoc_reserved {n : Nat}
    (h : (0x03 ≤ n ∧ n ≤ 0x0F) ∨ (0x17 ≤ n ∧ n ≤ 0x1F) ∨ (0x23 ≤ n ∧ n ≤ 0x27) ∨ (0x37 ≤ n ∧ n ≤ 0x3F) ∨
      0x5A ≤ n) : registerLoc n = .reserved := by
  unfold registerLoc
  split
  case h_55 => rfl
  all_goals omega

/-- The addresses above EE that lie in no window name nothing. -/
theorem pixelWindow_reserved {n : Nat} (h : ∀ w ∈ pixelWindows, n < w.1 ∨ w.1 + 768 ≤ n) :
    pixelWindow n = .reserved := by
  simp only [pixelWindows, List.mem_cons, List.not_mem_nil, or_false, forall_eq_or_imp, forall_eq] at h
  obtain ⟨pix, raw, temp, pixOsRef, a, kV, kTa, pattern⟩ := h
  simp only [pixelWindow, pixBase, rawBase, pixelIn_none pix, pixelIn_none raw, pixelIn_none temp,
    pixelIn_none pixOsRef, pixelIn_none a, pixelIn_none kV, pixelIn_none kTa, pixelIn_none pattern]

/-- Settles O47: a row of one address is an evaluation of the map, and every other row lies in the first
page, in EE, in a window or in a gap between them. -/
theorem addressMap : Obligations.AddressMap := by
  intro a n
  have row {m : Nat} (hn : n = m) : locate a = locate (BitVec.ofNat 16 m) := by
    rw [← hn, BitVec.ofNat_toNat, BitVec.setWidth_eq]
  refine ⟨row, row, row, row, row, row, fun p hp hn => (row hn).trans ?_, fun h => ?_, fun h => ?_,
    fun h => locate_inWindow 0x0800 .pix h.1 (by omega),
    fun h => locate_inWindow 0x0C00 .raw h.1 (by omega),
    fun h => locate_inWindow 0x1000 .temp h.1 (by omega),
    fun h => locate_inWindow 0x1400 .pixOsRef h.1 (by omega),
    fun h => locate_inWindow 0x1800 .a h.1 (by omega),
    fun h => locate_inWindow 0x1C00 .kV h.1 (by omega),
    fun h => locate_inWindow 0x2000 .kTa h.1 (by omega),
    fun h => locate_inWindow 0x2400 .pattern h.1 (by omega), fun h => ?_⟩
  · clear hn
    revert p
    decide
  · have hn : n = 0x0028 + (n - 0x0028) := by omega
    exact (row hn).trans (locate_badIdx (by omega))
  · exact locate_eq_ee.mpr ⟨by omega, by omega⟩
  · by_cases low : n < 0x0400
    · exact (locate_register low).trans (registerLoc_reserved (by omega))
    · refine (locate_high (by omega)).trans (pixelWindow_reserved ?_)
      simp only [pixelWindows, List.mem_cons, List.not_mem_nil, or_false, forall_eq_or_imp, forall_eq]
      omega

/-! ### Writes while BUSY is 0 -/

/-- While BUSY is 0 a write to another location than CMD is that of the location. -/
theorem writePort_idle {s : State} (hb : s.status.busy = false) {a : Addr} (v : Word)
    (hl : locate a ≠ .cmd) : writePort a v s = .next (s.storeLoc v (locate a)) := by
  unfold writePort
  split
  · contradiction
  · rw [hb]
    rfl

/-- A location the host may not write ignores the write (R72, R73). -/
theorem State.storeLoc_notInput (s : State) (v : Word) {l : Loc} (aux : ∀ r, l ≠ .aux r)
    (ee : ∀ k, l ≠ .ee k) (pix : ∀ i, l ≠ .pix i) : s.storeLoc v l = s := by
  rcases s.storeLoc_cases v l with h | ⟨r, h, -⟩ | ⟨k, h, -⟩ | ⟨i, h, -⟩
  · exact h
  · exact absurd h (aux r)
  · exact absurd h (ee k)
  · exact absurd h (pix i)

/-- Settles O48: these locations hold 0, and none but the input locations takes a write. -/
theorem reservedAndReadOnlyAddresses : Obligations.ReservedAndReadOnlyAddresses := by
  intro s a v hb
  refine ⟨State.peek_idle hb, State.peek_idle hb (l := .cmd) rfl, fun aux ee pix cmd => ?_⟩
  rw [writePort_idle hb v cmd, s.storeLoc_notInput v aux ee pix]

/-! ### The input locations -/

theorem AuxBank.set_set (b : AuxBank) (r : AuxName) (w : Half) : (b.set r w).set r w = b.set r w := by
  cases r <;> rfl

theorem AuxValid.mark_mark (b : AuxValid) (r : AuxName) : (b.mark r).mark r = b.mark r := by
  cases r <;> rfl

/-- A store of the same word again changes nothing. -/
theorem State.storeAux_storeAux (s : State) (r : AuxName) (v : Word) :
    (s.storeAux r v).storeAux r v = s.storeAux r v := by
  simp only [State.storeAux, AuxBank.set_set, AuxValid.mark_mark]

theorem State.storeMem_storeMem (s : State) (n : Nat) (v : Word) :
    (s.storeMem n v).storeMem n v = s.storeMem n v := by
  simp only [State.storeMem, Memory.write_write_self]

theorem State.storeLoc_storeLoc (s : State) (v : Word) (l : Loc) :
    (s.storeLoc v l).storeLoc v l = s.storeLoc v l := by
  rcases s.storeLoc_cases v l with h | ⟨r, rfl, -⟩ | ⟨k, rfl, -⟩ | ⟨i, rfl, -⟩
  · rw [h, h]
  · exact s.storeAux_storeAux r v
  · exact s.storeMem_storeMem _ v
  · exact s.storeMem_storeMem _ v

/-- The locations the host may write besides CMD (R71). -/
def Loc.isInput (l : Loc) : Prop := (∃ r, l = .aux r) ∨ (∃ k, l = .ee k) ∨ ∃ i, l = .pix i

/-- An input location holds the low half of the word stored in it. -/
theorem State.contents_storeLoc_self (s : State) (v : Word) {l : Loc} (h : l.isInput) :
    (s.storeLoc v l).contents l = some (ofHalf (v.setWidth 16)) := by
  rcases h with ⟨r, rfl⟩ | ⟨k, rfl⟩ | ⟨i, rfl⟩
  · simp [State.storeLoc, State.contents, whenValid, AuxValid.get_mark, AuxBank.get_set]
  · simp [State.storeLoc, State.contents, Memory.lookup_write]
  · simp [State.storeLoc, State.contents, Memory.lookup_write]

theorem State.contents_storeAux_other (s : State) (v : Word) {r : AuxName} {l : Loc} (h : l ≠ .aux r) :
    (s.storeAux r v).contents l = s.contents l := by
  cases l
  case aux r' =>
    have hr : r' ≠ r := fun e => h (congrArg _ e)
    simp [State.contents, AuxValid.get_mark, AuxBank.get_set, hr]
  all_goals rfl

/-- A word stored in EE or PIX is not seen at the locations of other block addresses. -/
theorem State.contents_storeMem_other (s : State) (v : Word) {n : Nat} {l : Loc}
    (ee : ∀ k, l = .ee k → eeBase + k ≠ n) (pix : ∀ i : Pixel, l = .pix i → pixBase + i.val ≠ n)
    (raw : n < rawBase) : (s.storeMem n v).contents l = s.contents l := by
  cases l
  case ee k => simp [State.contents, Memory.lookup_write, ee k rfl]
  case pix i => simp [State.contents, Memory.lookup_write, pix i rfl]
  case raw i =>
    have hn : rawBase + i.val ≠ n := by omega
    simp [State.contents, Memory.lookup_write, hn]
  all_goals rfl

/-- A store in the location of one address is not seen at another. -/
theorem State.contents_storeLoc_other (s : State) (v : Word) {a b : Addr} (h : b ≠ a) :
    (s.storeLoc v (locate a)).contents (locate b) = s.contents (locate b) := by
  have hn : b.toNat ≠ a.toNat := fun e => h (BitVec.eq_of_toNat_eq e)
  have mem (ha : a.toNat < rawBase) :
      (s.storeMem a.toNat v).contents (locate b) = s.contents (locate b) :=
    s.contents_storeMem_other v (fun k hk e => hn ((locate_eq_ee.mp hk).1.trans e))
      (fun i hi e => hn ((locate_eq_pix.mp hi).trans e)) ha
  rcases s.storeLoc_cases v (locate a) with e | ⟨r, ha, e⟩ | ⟨k, ha, e⟩ | ⟨i, ha, e⟩ <;> rw [e]
  · exact s.contents_storeAux_other v fun hb => hn ((locate_eq_aux.mp hb).trans (locate_eq_aux.mp ha).symm)
  · obtain ⟨hk, lt⟩ := locate_eq_ee.mp ha
    exact hk ▸ mem (by unfold rawBase; omega)
  · have hi := locate_eq_pix.mp ha
    have lt : i.val < 768 := i.isLt
    exact hi ▸ mem (by unfold rawBase; omega)

/-- What a store in a location leaves unchanged. -/
theorem State.storeLoc_frame (s : State) (v : Word) (l : Loc) :
    (s.storeLoc v l).status = s.status ∧ (s.storeLoc v l).store = s.store ∧
      (s.storeLoc v l).out = s.out ∧ (s.storeLoc v l).pending = s.pending := by
  rcases s.storeLoc_cases v l with e | ⟨r, -, e⟩ | ⟨k, -, e⟩ | ⟨i, -, e⟩ <;> rw [e] <;>
    exact ⟨rfl, rfl, rfl, rfl⟩

/-- The addresses of the input locations (R71). -/
theorem isInput_locate {a : Addr}
    (h : (∃ r, locate a = .aux r) ∨ (0x0400 ≤ a.toNat ∧ a.toNat ≤ 0x073F) ∨
      (0x0800 ≤ a.toNat ∧ a.toNat ≤ 0x0AFF)) : (locate a).isInput := by
  rcases h with h | ⟨lo, hi⟩ | ⟨lo, hi⟩
  · exact .inl h
  · exact .inr (.inl ⟨a.toNat - 0x0400, locate_eq_ee.mpr ⟨by omega, by omega⟩⟩)
  · obtain ⟨i, hl, -⟩ := locate_inWindow 0x0800 .pix lo (by omega)
    exact .inr (.inr ⟨i, hl⟩)

theorem Loc.isInput.ne_cmd {l : Loc} (h : l.isInput) : l ≠ .cmd := by
  rcases h with ⟨r, rfl⟩ | ⟨k, rfl⟩ | ⟨i, rfl⟩ <;> nofun

/-- Settles O49: the write is a store in the location, which is seen there alone. -/
theorem inputLocationsHoldLowHalf : Obligations.InputLocationsHoldLowHalf := by
  intro s a v hb ha
  have input := isInput_locate ha
  obtain ⟨status, store, out, pending⟩ := s.storeLoc_frame v (locate a)
  have hb' : (s.storeLoc v (locate a)).status.busy = false := status ▸ hb
  refine ⟨_, writePort_idle hb v input.ne_cmd, ?_, fun b h => ?_, status, store, out, pending, ?_⟩
  · rw [State.peek_idle hb' rfl, s.contents_storeLoc_self v input, ofHalf_eq_append,
      BitVec.setWidth_eq_extractLsb' (by decide)]
  · rw [State.peek_idle hb' rfl, State.peek_idle hb rfl, s.contents_storeLoc_other v h]
  · rw [writePort_idle hb' v input.ne_cmd, s.storeLoc_storeLoc v]

end Sys2Proof.Machine
end

section
/-! PROOFS. What a pending command lets pass: the port while BUSY is 1 (R82, R105), and the events before a
completion (R83, R345). -/

namespace Sys2Proof.Machine

/-! ### The port while BUSY is 1 -/

/-- ID and STATUS are the locations of two addresses (R71). -/
theorem eq_of_readableBusy {a : Addr} (h : (locate a).readableBusy = true) :
    a = 0x0000#16 ∨ a = 0x0002#16 := by
  by_cases low : a.toNat < 0x0400
  · rw [locate_register low] at h
    have hn : a.toNat = 0 ∨ a.toNat = 2 := by
      unfold registerLoc at h
      split at h
      case h_1 => exact .inl ‹_›
      case h_3 => exact .inr ‹_›
      all_goals cases h
    exact hn.imp (fun e => BitVec.eq_of_toNat_eq e) (fun e => BitVec.eq_of_toNat_eq e)
  · exfalso
    by_cases ee : a.toNat < 0x0740
    · have hl : locate a = .ee (a.toNat - 0x0400) := locate_eq_ee.mpr ⟨by omega, by omega⟩
      rw [hl] at h
      cases h
    · rw [locate_high (by omega)] at h
      rcases pixelWindow_spec a.toNat with ⟨_, _, e⟩ | ⟨_, _, e⟩ | ⟨_, _, e⟩ | ⟨_, _, e⟩ | ⟨_, _, e⟩ |
        ⟨_, _, e⟩ | ⟨_, _, e⟩ | ⟨_, _, e⟩ | ⟨e, _⟩ <;> rw [e] at h <;> cases h

section
variable {s : State} (hb : s.status.busy = true)
include hb

theorem State.peek_busy (a : Addr) :
    s.peek a = if (locate a).readableBusy then s.contents (locate a) else none := by
  unfold State.peek
  rw [hb]
  cases (locate a).readableBusy <;> rfl

/-- Every command but SOFT_RESET is discarded while BUSY is 1. -/
theorem exec_busy {i : Instr} (hi : i ≠ .softReset) : exec i s = .next s.discardWrite := by
  cases i with
  | softReset => exact absurd rfl hi
  | nop | clearFlags => exact congrArg _ (State.issueShort_busy hb _ _)
  | decode | merge o | evaluate => exact congrArg _ (State.issueLong_busy hb _ _)

/-- Every word but SOFT_RESET's is discarded at CMD while BUSY is 1. -/
theorem writeCmd_busy {v : Word} (hv : v ≠ 0x0000000F#32) : writeCmd v s = .next s.discardWrite := by
  unfold writeCmd
  split
  case h_1 i hd =>
    refine exec_busy hb fun e => hv ?_
    rw [(eq_encode_of_decodeWord hd).2, e]
    rfl
  case h_2 => rw [if_pos hb]

/-- Every write but that of SOFT_RESET is discarded while BUSY is 1. -/
theorem writePort_busy {a : Addr} {v : Word} (h : ¬(a = 0x0001#16 ∧ v = 0x0000000F#32)) :
    writePort a v s = .next s.discardWrite := by
  unfold writePort
  split
  case h_1 hl => exact writeCmd_busy hb fun hv => h ⟨locate_eq_cmd.mp hl, hv⟩
  case h_2 => rw [if_pos hb]

end

/-- Settles O10: one write gets through to CMD, and two locations can be read. -/
theorem busyPortRules : Obligations.BusyPortRules := by
  intro s hb
  refine ⟨fun a v h => writePort_busy hb h, writePort_cmd (i := .softReset) rfl s,
    State.peek_busy hb _, State.peek_busy hb _, fun a id status => ?_⟩
  rw [State.peek_busy hb, if_neg fun h => (eq_of_readableBusy h).elim id status]

/-! ### Every step answers (R70, R307) -/

theorem State.engineDue_idle {s : State} (hb : s.status.busy = false) : s.engineDue = false := by
  simp [State.engineDue, hb]

theorem exec_answers (i : Instr) (s : State) : ∃ t, exec i s = .next t := by
  cases i <;> exact ⟨_, rfl⟩

theorem writePort_answers (a : Addr) (v : Word) (s : State) : ∃ t, writePort a v s = .next t := by
  unfold writePort
  split
  · unfold writeCmd
    split
    · exact exec_answers _ s
    · exact ⟨_, rfl⟩
  · exact ⟨_, rfl⟩

theorem hostTurn_answers (s : State) : ∃ t, hostTurn s = .next t := by
  unfold hostTurn
  split
  case h_2 => exact writePort_answers _ _ _
  all_goals exact ⟨_, rfl⟩

theorem step_answers (s : State) : ∃ t, step s = .next t := by
  cases hd : s.engineDue
  · rw [step_host hd]
    exact hostTurn_answers _
  · exact ⟨_, step_due hd⟩

/-! ### The events before a completion -/

/-- What an event that resets nothing leaves of a block whose command stays pending (R82, R83): the block,
STATUS but for WRITE_WHILE_BUSY, and the events behind it, before which a POLL stays. -/
structure State.Waits (s t : State) : Prop where
  block : s.SameBlock t
  status : { t.status with writeWhileBusy := false } = { s.status with writeWhileBusy := false }
  busyLeft : t.busyLeft = s.busyLeft
  inputs : t.host.inputs = s.host.inputs ∨ t.host.inputs = s.host.inputs.tail

theorem State.Waits.busy {s t : State} (h : s.Waits t) : t.status.busy = s.status.busy :=
  (congrArg Status.busy h.status :)

/-- While BUSY is 1 an event of the host resets the block or leaves the command waiting. -/
theorem hostTurn_busy {s t : State} (hb : s.status.busy = true) (h : hostTurn s = .next t) :
    (t.status.busy = false ∧ ∃ e es, s.host.inputs = e :: es ∧ resets e) ∨ s.Waits t := by
  have pop (es : List HostEvent) (a : Addr) : s.SameBlock ((s.setInputs es).observe a) :=
    (s.sameBlock_setInputs es).trans (State.sameBlock_observe _ a)
  rcases hostTurn_cases h with ⟨-, rfl⟩ | ⟨a, v, es, hi, hw⟩ | ⟨a, es, hi, rfl⟩ | ⟨a, name, es, hi, rfl⟩ |
    ⟨a, v, es, hi, rfl⟩ | ⟨es, hi, rfl⟩ | ⟨es, hi, rfl⟩
  · exact .inr ⟨.refl _, rfl, rfl, .inl rfl⟩
  · by_cases reset : a = 0x0001#16 ∧ v = 0x0000000F#32
    · obtain ⟨rfl, rfl⟩ := reset
      cases hw
      exact .inl ⟨rfl, _, _, hi, .inr rfl⟩
    · rw [writePort_busy (s := s.setInputs es) hb reset] at hw
      cases hw
      exact .inr ⟨(s.sameBlock_setInputs es).trans (State.sameBlock_discardWrite _), rfl, rfl,
        .inr (by rw [hi]; rfl)⟩
  · exact .inr ⟨pop es a, rfl, rfl, .inr (by rw [hi]; rfl)⟩
  · exact .inr ⟨(pop es a).trans (State.sameBlock_bindName _ name _), rfl, rfl, .inr (by rw [hi]; rfl)⟩
  · exact .inr ⟨(pop es a).trans (State.sameBlock_judge _ _), rfl, rfl, .inr (by rw [hi]; rfl)⟩
  · refine .inr ⟨pop _ _, rfl, rfl, ?_⟩
    rw [hi]
    cases pollAgain (s.readValue statusAddr)
    · exact .inr rfl
    · exact .inl rfl
  · exact .inl ⟨rfl, _, es, hi, .inl rfl⟩

/-- A step from BUSY 1 completes PENDING, resets the block, or leaves the command waiting one event less. -/
theorem step_busy {s t : State} (hb : s.status.busy = true) (h : step s = .next t) :
    (s.busyLeft = 0 ∧ t = completePending s) ∨
    (t.status.busy = false ∧ ∃ e es, s.host.inputs = e :: es ∧ resets e) ∨
    (s.tick.Waits t ∧ t.busyLeft + 1 = s.busyLeft) := by
  cases hd : s.engineDue
  · rw [step_host hd] at h
    rcases hostTurn_busy (s := s.tick) hb h with reset | waits
    · exact .inr (.inl reset)
    · have due : s.busyLeft ≠ 0 := by simpa [State.engineDue, hb] using hd
      have left := waits.busyLeft
      rw [State.tick_busyLeft, if_pos hb] at left
      exact .inr (.inr ⟨waits, by omega⟩)
  · rw [step_due hd] at h
    exact .inl ⟨(s.engineDue_iff.mp hd).2, (Host.Outcome.next.inj h).symm⟩

theorem completePending_host (s : State) : (completePending s).host = s.host := by
  rcases completePending_cases s with ⟨-, e⟩ | ⟨o, -, e⟩ | ⟨-, e⟩ | e <;> rw [e] <;> rfl

theorem completePending_badCap (s : State) : (completePending s).badCap = s.badCap := by
  rcases completePending_cases s with ⟨-, e⟩ | ⟨o, -, e⟩ | ⟨-, e⟩ | e <;> rw [e] <;> rfl

/-- Settles O59: a step that leaves BUSY at 1 is neither a completion nor a reset. -/
theorem pendingCommandSeesFrozenInputs : Obligations.PendingCommandSeesFrozenInputs := by
  refine ⟨fun s t hb h ht => ?_, fun s t h => ?_⟩
  · rcases step_busy hb h with ⟨-, rfl⟩ | ⟨idle, -⟩ | ⟨waits, -⟩
    · rw [completePending_busy] at ht
      cases ht
    · rw [idle] at ht
      cases ht
    · exact ⟨s.sameBlock_tick.trans waits.block, waits.status⟩
  · rcases step_cases h with ⟨-, rfl⟩ | ⟨-, effect⟩
    · exact completePending_badCap s
    · exact effect.keeps.2.2

/-- A pending command that no event resets waits out its duration and completes. -/
theorem run_pending (n : Nat) (s : State) (hb : s.status.busy = true) (hn : s.busyLeft = n)
    (calm : ∀ e ∈ s.host.inputs.take n, ¬ resets e) :
    ∃ u : State, core.run n s = .next u ∧ u.engineDue = true ∧ s.SameBlock u ∧
      core.run (n + 1) s = .next (completePending u) := by
  induction n generalizing s with
  | zero =>
    have due := s.engineDue_iff.mpr ⟨hb, hn⟩
    exact ⟨s, rfl, due, .refl s, run_succ (step_due due) 0⟩
  | succ n ih =>
    obtain ⟨t, ht⟩ := step_answers s
    rcases step_busy hb ht with ⟨h0, -⟩ | ⟨-, e, es, hi, reset⟩ | ⟨waits, left⟩
    · omega
    · rw [hi] at calm
      exact absurd reset (calm e List.mem_cons_self)
    · have behind : ∀ e ∈ t.host.inputs.take n, e ∈ s.host.inputs.take (n + 1) := by
        intro e he
        rcases waits.inputs with hi | hi <;> rw [hi] at he
        · exact List.take_subset_take_left _ (Nat.le_succ n) he
        · cases hs : s.host.inputs with
          | nil => simp [hs] at he
          | cons x es => exact List.mem_cons_of_mem _ (by simpa [hs] using he)
      obtain ⟨u, run, due, block, runs⟩ :=
        ih t (waits.busy.trans hb) (by omega) fun e he => calm e (behind e he)
      exact ⟨u, (run_succ ht n).trans run, due, (s.sameBlock_tick.trans waits.block).trans block,
        (run_succ ht (n + 1)).trans runs⟩

/-- Settles O56: with nothing pending and no event to come a step is the host's empty turn; a pending command
waits out its duration. -/
theorem everyStepAnswers : Obligations.EveryStepAnswers := by
  refine ⟨step_answers, fun s hb hi => ?_, fun s hb calm => ?_⟩
  · have tick : s.tick = s := by simp [State.tick, hb]
    rw [step_host (State.engineDue_idle hb), tick, hostTurn, hi]
  · obtain ⟨u, run, due, block, runs⟩ := run_pending s.busyLeft s hb rfl calm
    exact ⟨u, run, due, block, runs, completePending_busy u⟩

end Sys2Proof.Machine
end

section
/-! PROOFS. The four kinds of read (R75, R81, R107, R108) and the end of a POLL (R84). -/

namespace Sys2Proof.Machine

/-! ### What a read moves -/

/-- What a read of `a` that returned `w` has done when it is over (R75, R81): `w` is the location's contents
or a draw, and nothing of the block moved. -/
def State.ReadBy (s : State) (a : Addr) (w : Word) (t : State) : Prop :=
  (∀ x, s.peek a = some x → w = x ∧ t.draws = s.draws) ∧
  (s.peek a = none → w = Config.readDraw s.draws ∧ t.draws = s.draws + 1) ∧
  t.host.trace = (a, w) :: s.host.trace ∧
  s.SameBlock t ∧ t.status = s.status ∧ t.delays = s.delays ∧
  t.busyLeft = if s.status.busy then s.busyLeft - 1 else s.busyLeft

/-- A read transaction, whatever the host does with its events, its names and its verdict. -/
theorem State.readBy_observe (s : State) (a : Addr) (es : List HostEvent) (host : HostSide)
    (trace : host.trace = (a, s.readValue a) :: s.host.trace) :
    s.ReadBy a (s.readValue a) { (s.tick.setInputs es).observe a with host := host } := by
  have draws : ((s.tick.setInputs es).observe a).draws =
      if (s.peek a).isSome then s.draws else s.draws + 1 := rfl
  refine ⟨fun x hx => ?_, fun hx => ?_, trace, ⟨rfl, rfl, rfl, rfl, rfl, rfl, rfl⟩, rfl, rfl, rfl⟩
  · rw [draws, State.readValue, hx]
    exact ⟨rfl, rfl⟩
  · rw [draws, State.readValue, hx]
    exact ⟨rfl, rfl⟩

/-- STATUS can be read at any time (R82). -/
theorem State.readValue_status (s : State) : s.readValue statusAddr = s.status.word := by
  have h : s.peek statusAddr = some s.status.word := by
    cases hb : s.status.busy
    · exact State.peek_idle hb (l := .status) rfl
    · exact State.peek_busy hb _
  rw [State.readValue, h]
  rfl

/-- The BUSY that a POLL reads (R34, R108). -/
theorem pollAgain_word (t : Status) : pollAgain t.word = t.busy := t.getLsbD_word (by decide)

/-- A round of POLL, which stays the next event while BUSY is 1. -/
theorem step_poll {s : State} {es : List HostEvent} (hd : s.engineDue = false)
    (hi : s.host.inputs = .poll :: es) :
    step s = .next ((s.tick.setInputs (if s.status.busy then .poll :: es else es)).observe statusAddr) := by
  have value : s.tick.readValue statusAddr = s.status.word := s.tick.readValue_status
  rw [step_host hd, hostTurn, State.tick_host, hi]
  simp only [value, pollAgain_word]

/-- Settles O50: each of the four is one read transaction, after which the host makes its own record. -/
theorem readsChangeNoBlockState : Obligations.ReadsChangeNoBlockState := by
  intro s es hd
  have turn {e : HostEvent} (hi : s.host.inputs = e :: es) : s.tick.host.inputs = e :: es := hi
  refine ⟨fun a hi => ?_, fun a name hi => ?_, fun a v hi => ?_, fun hi => ?_⟩
  · rw [step_host hd, hostTurn, turn hi]
    exact ⟨_, s.readValue a, rfl, s.readBy_observe a es _ rfl, rfl, rfl, rfl⟩
  · rw [step_host hd, hostTurn, turn hi]
    exact ⟨_, s.readValue a, rfl, s.readBy_observe a es _ rfl, rfl, rfl, rfl⟩
  · rw [step_host hd, hostTurn, turn hi]
    refine ⟨_, s.readValue a, rfl, s.readBy_observe a es _ rfl, rfl, rfl, ?_⟩
    rw [State.judge_host, Bool.and_eq_true, beq_iff_eq]
    exact Iff.rfl
  · rw [step_poll hd hi, ← s.readValue_status]
    exact ⟨_, rfl, s.readBy_observe statusAddr _ _ rfl, rfl, rfl, rfl⟩

/-! ### The end of a POLL (R84) -/

/-- With BUSY 0 one round ends a POLL. -/
theorem run_poll_idle {s : State} {es : List HostEvent} (hb : s.status.busy = false)
    (hi : s.host.inputs = .poll :: es) :
    ∃ t : State, core.run 1 s = .next t ∧ t.host.inputs = es ∧ t.status.busy = false := by
  refine ⟨_, run_succ (step_poll (State.engineDue_idle hb) hi) 0, ?_, hb⟩
  rw [hb]
  rfl

/-- With BUSY 1 a POLL waits out the duration, the completion, and one round more. -/
theorem run_poll_busy (n : Nat) (s : State) {es : List HostEvent} (hb : s.status.busy = true)
    (hn : s.busyLeft = n) (hi : s.host.inputs = .poll :: es) :
    ∃ t : State, core.run (n + 2) s = .next t ∧ t.host.inputs = es ∧ t.status.busy = false := by
  induction n generalizing s with
  | zero =>
    obtain ⟨t, run, done⟩ :=
      run_poll_idle (completePending_busy s) ((congrArg HostSide.inputs (completePending_host s)).trans hi)
    exact ⟨t, (run_succ (step_completes hb hn) 1).trans run, done⟩
  | succ n ih =>
    have hd : s.engineDue = false := by simp [State.engineDue, hn]
    have round := step_poll hd hi
    rw [if_pos hb] at round
    obtain ⟨t, run, done⟩ :=
      ih ((s.tick.setInputs (.poll :: es)).observe statusAddr) hb (by simp [hb, hn]) rfl
    exact ⟨t, (run_succ round (n + 2)).trans run, done⟩

/-- Settles O60: a POLL ends in the round after the completion, or at once when BUSY is 0. -/
theorem pollTerminates : Obligations.PollTerminates := by
  intro s es hi
  cases hb : s.status.busy
  · obtain ⟨t, run, done⟩ := run_poll_idle hb hi
    exact ⟨1, t, by omega, run, done⟩
  · obtain ⟨t, run, done⟩ := run_poll_busy s.busyLeft s hb rfl hi
    exact ⟨s.busyLeft + 2, t, le_rfl, run, done⟩

end Sys2Proof.Machine
end

section
/-! PROOFS. The legal command words and the decoder's answers to the spec's own words (R100 to R104). -/

namespace Sys2Proof

/-- The decoder accepts exactly the encodings of the well-formed commands. -/
theorem decodeWord_eq_ok_iff {v : Word} {i : Instr} :
    decodeWord v = .ok i ↔ i.wellFormed = true ∧ v = encode i :=
  ⟨eq_encode_of_decodeWord, fun ⟨wf, hv⟩ => hv ▸ decodeWord_encode wf⟩

/-- Settles O2: the two directions of `decodeWord_eq_ok_iff`. -/
theorem decodeEncodeAgree : Obligations.DecodeEncodeAgree :=
  ⟨fun _ wf => decodeWord_eq_ok_iff.mpr ⟨wf, rfl⟩,
    fun _ _ h => (decodeWord_eq_ok_iff.mp h).imp_right Eq.symm⟩

/-- The full encodings of R101's table, MERGE's both. -/
def commandWords : List Word :=
  [0x00000000#32, 0x00000001#32, 0x00000002#32, 0x00000012#32, 0x00000003#32, 0x00000004#32, 0x0000000F#32]

/-- A well-formed command has one of the seven encodings. -/
theorem encode_mem_commandWords {i : Instr} (h : i.wellFormed = true) : encode i ∈ commandWords := by
  cases i with
  | merge o =>
    have ho : o < 2 := of_decide_eq_true h
    interval_cases o <;> decide
  | nop | decode | evaluate | clearFlags | softReset => decide

/-- Each of the seven words decodes. -/
theorem exists_decodeWord_of_mem {v : Word} (h : v ∈ commandWords) : ∃ i, decodeWord v = .ok i := by
  fin_cases h
  exacts [⟨.nop, rfl⟩, ⟨.decode, rfl⟩, ⟨.merge 0, rfl⟩, ⟨.merge 1, rfl⟩, ⟨.evaluate, rfl⟩,
    ⟨.clearFlags, rfl⟩, ⟨.softReset, rfl⟩]

theorem exists_decodeWord_iff_mem {v : Word} : (∃ i, decodeWord v = .ok i) ↔ v ∈ commandWords := by
  refine ⟨fun ⟨i, h⟩ => ?_, exists_decodeWord_of_mem⟩
  obtain ⟨wf, rfl⟩ := decodeWord_eq_ok_iff.mp h
  exact encode_mem_commandWords wf

/-- R102's rule leaves the same seven words. -/
theorem legalWord_iff_mem {v : Word} : legalWord v ↔ v ∈ commandWords := by
  simp only [legalWord, commandWords, List.mem_cons, List.not_mem_nil, or_false, ← BitVec.toNat_inj,
    BitVec.toNat_ofNat]
  omega

/-- MERGE's row leaves bit 4 open. -/
theorem and_mergeMask_eq_iff {v : Word} :
    v &&& 0xFFFFFFEF#32 = 0x00000002#32 ↔ v = 0x00000002#32 ∨ v = 0x00000012#32 := by
  refine ⟨fun h => ?_, by rintro (rfl | rfl) <;> rfl⟩
  have split : v = v &&& 0xFFFFFFEF#32 ||| v &&& BitVec.twoPow 32 4 := by
    rw [← BitVec.and_or_distrib_left]
    exact BitVec.and_allOnes.symm
  rw [split, h, BitVec.and_twoPow]
  cases v.getLsbD 4
  · exact .inl rfl
  · exact .inr rfl

theorem and_plainMask (v : Word) : v &&& 0xFFFFFFFF#32 = v := BitVec.and_allOnes

/-- Each of the seven words matches one row. -/
theorem matchingRows_of_mem {v : Word} (h : v ∈ commandWords) :
    (commandRows.filter fun r => v &&& r.2 == r.1).length = 1 := by
  fin_cases h <;> decide

/-- A word that matches a row is one of the seven. -/
theorem mem_of_matchesRow {v : Word} {r : Word × Word} (hr : r ∈ commandRows) (h : v &&& r.2 = r.1) :
    v ∈ commandWords := by
  have plain : ∀ m ∈ commandWords, v &&& 0xFFFFFFFF#32 = m → v ∈ commandWords := by
    rintro m hm rfl
    rwa [and_plainMask] at hm
  have merge : v &&& 0xFFFFFFEF#32 = 0x00000002#32 → v ∈ commandWords := by
    rw [and_mergeMask_eq_iff]
    rintro (rfl | rfl) <;> decide
  fin_cases hr
  exacts [plain _ (by decide) h, plain _ (by decide) h, merge h, plain _ (by decide) h,
    plain _ (by decide) h, plain _ (by decide) h]

/-- A command without operand has the one word its row matches. -/
theorem decodeWord_eq_ok_iff_row {v : Word} {i : Instr} (wf : i.wellFormed = true) :
    decodeWord v = .ok i ↔ v &&& 0xFFFFFFFF#32 = encode i := by
  rw [and_plainMask, decodeWord_eq_ok_iff]
  exact and_iff_right wf

/-- MERGE has the two words its row matches. -/
theorem exists_decodeWord_merge_iff_row {v : Word} :
    (∃ o, decodeWord v = .ok (.merge o)) ↔ v &&& 0xFFFFFFEF#32 = 0x00000002#32 := by
  rw [and_mergeMask_eq_iff]
  constructor
  · rintro ⟨o, h⟩
    obtain ⟨wf, rfl⟩ := decodeWord_eq_ok_iff.mp h
    have ho : o < 2 := of_decide_eq_true wf
    interval_cases o
    exacts [.inl rfl, .inr rfl]
  · rintro (rfl | rfl)
    exacts [⟨0, rfl⟩, ⟨1, rfl⟩]

/-- Settles O1: legality, the decoder and the table's rows each pick out the same seven words. -/
theorem legalCommandWords : Obligations.LegalCommandWords := by
  intro v
  refine ⟨exists_decodeWord_iff_mem.trans legalWord_iff_mem.symm,
    fun h => matchingRows_of_mem (legalWord_iff_mem.mp h), fun h => ?_,
    decodeWord_eq_ok_iff_row rfl, decodeWord_eq_ok_iff_row rfl, exists_decodeWord_merge_iff_row,
    decodeWord_eq_ok_iff_row rfl, decodeWord_eq_ok_iff_row rfl, decodeWord_eq_ok_iff_row rfl⟩
  rw [List.length_eq_zero_iff, List.filter_eq_nil_iff]
  exact fun r hr hm => h (legalWord_iff_mem.mpr (mem_of_matchesRow hr (beq_iff_eq.mp hm)))

/-- Settles O3: each of the fixed words is decoded by running the decoder. -/
theorem specWordsDecode : Obligations.SpecWordsDecode :=
  ⟨rfl, rfl, rfl, rfl, rfl, rfl, rfl, rfl, rfl, rfl, rfl, rfl, rfl⟩

end Sys2Proof
end

section
/-! PROOFS. What DECODE reads of the image (R109): the image with every other word and bit cleared gives
the same store. -/

namespace Sys2Proof.Machine

/-- The image with the words and bits cleared that R109 says no rule reads. -/
def clearUnread (ee : Image) : Image := fun k =>
  if k < 16 ∨ k = 53 ∨ 832 ≤ k then 0
  else if k = 56 ∨ k = 63 then ((ee k).extractLsb' 0 14).setWidth 16
  else ee k

theorem clearUnread_word (ee : Image) {k : Nat} (lo : 16 ≤ k) (hi : k < 832) (h53 : k ≠ 53)
    (h56 : k ≠ 56) (h63 : k ≠ 63) : clearUnread ee k = ee k := by
  rw [clearUnread, if_neg (by omega), if_neg (by omega)]

/-- Bits 15:14 do not reach a field below them. -/
theorem bits_low14 (w : Half) {hi lo : Nat} (h : hi < 14) (hl : lo ≤ hi) :
    bits ((w.extractLsb' 0 14).setWidth 16) hi lo = bits w hi lo := by
  apply Nat.eq_of_testBit_eq
  intro j
  simp only [bits, BitVec.toNat_setWidth, BitVec.extractLsb'_toNat, Nat.shiftRight_zero,
    Nat.testBit_mod_two_pow, Nat.testBit_shiftRight]
  by_cases hj : j < hi - lo + 1
  · simp [hj, show lo + j < 14 by omega, show lo + j < 16 by omega]
  · simp [hj]

section
variable (ee : Image)

/-! The fields of words 56 and 63 lie below the cleared bits. -/

@[simp] theorem resolutionRaw_clearUnread : resolutionRaw (clearUnread ee) = resolutionRaw ee :=
  bits_low14 (ee 56) (by decide) (by decide)
@[simp] theorem kvScale_clearUnread : kvScale (clearUnread ee) = kvScale ee :=
  bits_low14 (ee 56) (by decide) (by decide)
@[simp] theorem ktaScale1Code_clearUnread : ktaScale1Code (clearUnread ee) = ktaScale1Code ee :=
  bits_low14 (ee 56) (by decide) (by decide)
@[simp] theorem ktaScale2_clearUnread : ktaScale2 (clearUnread ee) = ktaScale2 ee :=
  bits_low14 (ee 56) (by decide) (by decide)
@[simp] theorem ctStepCode_clearUnread : ctStepCode (clearUnread ee) = ctStepCode ee :=
  bits_low14 (ee 63) (by decide) (by decide)
@[simp] theorem ct4Code_clearUnread : ct4Code (clearUnread ee) = ct4Code ee :=
  bits_low14 (ee 63) (by decide) (by decide)
@[simp] theorem ct3Code_clearUnread : ct3Code (clearUnread ee) = ct3Code ee :=
  bits_low14 (ee 63) (by decide) (by decide)
@[simp] theorem kstoScaleCode_clearUnread : kstoScaleCode (clearUnread ee) = kstoScaleCode ee :=
  bits_low14 (ee 63) (by decide) (by decide)

/-! The packed tables and the pixel words are read whole. -/

/-- A packed table that ends before word 53. -/
theorem tableEntry_clearUnread {base n : Nat} (lo : 16 ≤ base) (hi : base + n / 4 < 53) :
    tableEntry (clearUnread ee) base n = tableEntry ee base n := by
  unfold tableEntry
  rw [clearUnread_word ee (by omega) (by omega) (by omega) (by omega) (by omega)]

@[simp] theorem pixelWord_clearUnread (i : Pixel) : pixelWord (clearUnread ee) i = pixelWord ee i := by
  have hi : i.val < 768 := i.isLt
  exact clearUnread_word ee (by omega) (by omega) (by omega) (by omega) (by omega)

theorem Pix.row_lt (i : Pixel) : Pix.row i < 24 := Nat.div_lt_of_lt_mul i.isLt
theorem Pix.col_lt (i : Pixel) : Pix.col i < 32 := Nat.mod_lt _ (by decide)

@[simp] theorem occRow_clearUnread (i : Pixel) :
    occRow (clearUnread ee) (Pix.row i) = occRow ee (Pix.row i) :=
  tableEntry_clearUnread ee (by decide) (by have := Pix.row_lt i; omega)
@[simp] theorem occCol_clearUnread (i : Pixel) :
    occCol (clearUnread ee) (Pix.col i) = occCol ee (Pix.col i) :=
  tableEntry_clearUnread ee (by decide) (by have := Pix.col_lt i; omega)
@[simp] theorem accRow_clearUnread (i : Pixel) :
    accRow (clearUnread ee) (Pix.row i) = accRow ee (Pix.row i) :=
  tableEntry_clearUnread ee (by decide) (by have := Pix.row_lt i; omega)
@[simp] theorem accCol_clearUnread (i : Pixel) :
    accCol (clearUnread ee) (Pix.col i) = accCol ee (Pix.col i) :=
  tableEntry_clearUnread ee (by decide) (by have := Pix.col_lt i; omega)

/-! The coefficients that a cleared word, a table or a pixel word enters. Every other coefficient reads
words that `clearUnread` leaves whole, and is the same by computation. -/

theorem decCt3_clearUnread : decCt3 (clearUnread ee) = decCt3 ee := by
  simp only [decCt3, ctStep, ct3Code_clearUnread, ctStepCode_clearUnread]

theorem decCt4_clearUnread : decCt4 (clearUnread ee) = decCt4 ee := by
  simp only [decCt4, ctStep, decCt3_clearUnread, ct4Code_clearUnread, ctStepCode_clearUnread]

theorem decKsTo_clearUnread : decKsTo (clearUnread ee) = decKsTo ee := by
  funext r
  rw [decKsTo, kstoScaleCode_clearUnread]
  rfl

theorem decAlphaCorr_clearUnread : decAlphaCorr (clearUnread ee) = decAlphaCorr ee := by
  funext r
  simp only [decAlphaCorr, decKsTo_clearUnread, decCt3_clearUnread, decCt4_clearUnread]

theorem decKVCP_clearUnread : decKVCP (clearUnread ee) = decKVCP ee := by
  rw [decKVCP, kvScale_clearUnread]
  rfl

theorem ktaScale1_clearUnread : ktaScale1 (clearUnread ee) = ktaScale1 ee := by
  simp only [ktaScale1, ktaScale1Code_clearUnread]

theorem decKTaCP_clearUnread : decKTaCP (clearUnread ee) = decKTaCP ee := by
  rw [decKTaCP, ktaScale1_clearUnread]
  rfl

theorem decPixOsRef_clearUnread : decPixOsRef (clearUnread ee) = decPixOsRef ee := by
  funext i
  simp only [decPixOsRef, offRem, occRow_clearUnread, occCol_clearUnread, pixelWord_clearUnread]
  rfl

theorem decA_clearUnread : decA (clearUnread ee) = decA ee := by
  funext i
  simp only [decA, decAInt, alphaRem, accRow_clearUnread, accCol_clearUnread, pixelWord_clearUnread]
  rfl

theorem decKV_clearUnread : decKV (clearUnread ee) = decKV ee := by
  funext i
  rw [decKV, kvScale_clearUnread]
  rfl

theorem decKTa_clearUnread : decKTa (clearUnread ee) = decKTa ee := by
  funext i
  simp only [decKTa, decKTaInt, ktaRem, ktaScale1_clearUnread, ktaScale2_clearUnread,
    pixelWord_clearUnread]
  rfl

theorem flagged_clearUnread : flagged (clearUnread ee) = flagged ee := by
  have same : outlier (clearUnread ee) = outlier ee := by
    funext i
    rw [outlier, pixelWord_clearUnread]
    rfl
  rw [flagged, same]
  rfl

theorem decodeStore_clearUnread (cap : Nat) : decodeStore cap (clearUnread ee) = decodeStore cap ee := by
  simp only [decodeStore, decResolution, resolutionRaw_clearUnread, decCt3_clearUnread,
    decCt4_clearUnread, decKsTo_clearUnread, decAlphaCorr_clearUnread, decKVCP_clearUnread,
    decKTaCP_clearUnread, decBadPixels, flagged_clearUnread, decPixOsRef_clearUnread, decA_clearUnread,
    decKV_clearUnread, decKTa_clearUnread]
  rfl

theorem decOverflow_clearUnread (cap : Nat) : decOverflow cap (clearUnread ee) = decOverflow cap ee := by
  rw [decOverflow, flagged_clearUnread]
  rfl

end

/-- Images that agree on what is read are the same once the rest is cleared. -/
theorem clearUnread_congr {ee ee' : Image}
    (words : ∀ k, 16 ≤ k → k < 832 → k ≠ 53 → k ≠ 56 → k ≠ 63 → ee k = ee' k)
    (h56 : (ee 56).extractLsb' 0 14 = (ee' 56).extractLsb' 0 14)
    (h63 : (ee 63).extractLsb' 0 14 = (ee' 63).extractLsb' 0 14) :
    clearUnread ee = clearUnread ee' := by
  funext k
  unfold clearUnread
  split_ifs with unread partly
  · rfl
  · rcases partly with rfl | rfl
    · rw [h56]
    · rw [h63]
  · exact words k (by omega) (by omega) (by omega) (by omega) (by omega)

/-- Settles O28: DECODE of an image is DECODE of the image with its unread words and bits cleared. -/
theorem unusedImageBitsHaveNoEffect : Obligations.UnusedImageBitsHaveNoEffect := by
  intro cap ee ee' words h56 h63
  have same : clearUnread ee = clearUnread ee' := clearUnread_congr words h56 h63
  constructor
  · rw [← decodeStore_clearUnread ee, same, decodeStore_clearUnread ee']
  · rw [← decOverflow_clearUnread ee, same, decOverflow_clearUnread ee']

end Sys2Proof.Machine
end

section
/-! PROOFS. The fields of the image as slices of its words (R7, R9, R111 to R121), and their ranges. -/

namespace Sys2Proof.Machine

/-! ### Bit fields and sign correction -/

/-- The slice `w[hi:lo]` is the `n` bits of `w` from bit `lo` on. -/
theorem bits_eq_toNat (w : Half) {n hi lo : Nat} (h : hi + 1 = lo + n) (hn : 1 ≤ n) :
    bits w hi lo = (w.extractLsb' lo n).toNat := by
  rw [bits, BitVec.extractLsb'_toNat, show hi - lo + 1 = n by omega]

/-- A sign-corrected slice is the two's-complement reading of its bits. -/
theorem sext_bits (w : Half) {n hi lo : Nat} (h : hi + 1 = lo + n) (hn : 1 ≤ n) :
    sext n (bits w hi lo) = (w.extractLsb' lo n).toInt := by
  rw [bits_eq_toNat w h hn, sext_eq_toInt hn (BitVec.isLt _), BitVec.ofNat_toNat, BitVec.setWidth_eq]

/-- A sign-corrected whole word is the word's two's-complement reading. -/
theorem sext_word (w : Half) : sext 16 (bits w 15 0) = w.toInt := by
  rw [sext_bits w (n := 16) rfl (by decide), BitVec.extractLsb'_eq_self]

/-- A sign-corrected table entry is a 4-bit slice of its word (R113, R167). -/
theorem tableEntry_eq (ee : Image) (base n : Nat) :
    tableEntry ee base n = ((ee (base + n / 4)).extractLsb' (4 * (n % 4)) 4).toInt :=
  sext_bits _ rfl (by decide)

theorem alphaRef_eq (ee : Image) : alphaRef ee = (ee 33).toNat := by
  rw [alphaRef, bits_eq_toNat (ee 33) (n := 16) rfl (by decide), BitVec.extractLsb'_eq_self]

theorem offRem_eq (ee : Image) (i : Pixel) : offRem ee i = ((ee (64 + i.val)).extractLsb' 10 6).toInt :=
  sext_bits _ rfl (by decide)

theorem alphaRem_eq (ee : Image) (i : Pixel) : alphaRem ee i = ((ee (64 + i.val)).extractLsb' 4 6).toInt :=
  sext_bits _ rfl (by decide)

theorem ktaRem_eq (ee : Image) (i : Pixel) : ktaRem ee i = ((ee (64 + i.val)).extractLsb' 1 3).toInt :=
  sext_bits _ rfl (by decide)

theorem kstoRaw_eq (ee : Image) (r : Fin 4) :
    kstoRaw ee r = ((ee (61 + r.val / 2)).extractLsb' (8 * (r.val % 2)) 8).toInt := by
  match r with
  | 0 | 1 | 2 | 3 => exact sext_bits _ rfl (by decide)

/-- Word 52 holds the `K_V` fields from bit 15 down in the order of phases 0, 2, 1, 3 (R117, R18). -/
theorem kvPhase_eq (ee : Image) (i : Pixel) :
    kvPhase ee (Pix.phase i) =
      ((ee 52).extractLsb' (12 - 8 * (i.val % 32 % 2) - 4 * (i.val / 32 % 2)) 4).toInt := by
  unfold Pix.phase Pix.row Pix.col
  rcases Nat.mod_two_eq_zero_or_one (i.val / 32) with hr | hr <;>
    rcases Nat.mod_two_eq_zero_or_one (i.val % 32) with hc | hc <;>
    rw [hr, hc] <;> exact sext_bits _ rfl (by decide)

/-- The column's parity picks word 54 or 55 of `KTA_RC`, the row's parity its upper or lower byte
(R117, R18). -/
theorem ktaPhase_eq (ee : Image) (i : Pixel) :
    ktaPhase ee (Pix.phase i) =
      ((ee (54 + i.val % 32 % 2)).extractLsb' (8 - 8 * (i.val / 32 % 2)) 8).toInt := by
  unfold Pix.phase Pix.row Pix.col
  rcases Nat.mod_two_eq_zero_or_one (i.val / 32) with hr | hr <;>
    rcases Nat.mod_two_eq_zero_or_one (i.val % 32) with hc | hc <;>
    rw [hr, hc] <;> exact sext_bits _ rfl (by decide)

/-- A signed field of `n` bits shifted by a 4-bit scale stays within `2^15` times its own range. -/
theorem shifted_bounds {n : Nat} (x : BitVec n) (scale : BitVec 4) :
    -2 ^ (n - 1) * 2 ^ 15 ≤ x.toInt * 2 ^ scale.toNat ∧
      x.toInt * 2 ^ scale.toNat ≤ (2 ^ (n - 1) - 1) * 2 ^ 15 := by
  have factor : (2 : Int) ^ scale.toNat ≤ 2 ^ 15 :=
    pow_le_pow_right₀ (by decide) (Nat.le_of_lt_succ scale.isLt)
  have half : (1 : Int) ≤ 2 ^ (n - 1) := one_le_pow₀ (by decide)
  have lower := BitVec.le_toInt x
  have upper : x.toInt ≤ 2 ^ (n - 1) - 1 := by have := BitVec.toInt_lt (x := x); omega
  have pos : (0 : Int) < 2 ^ scale.toNat := by positivity
  constructor <;> nlinarith

/-! ### Unsigned fields -/

theorem bits_lt (w : Half) (hi lo : Nat) : bits w hi lo < 2 ^ (hi - lo + 1) := Nat.mod_lt _ (Nat.two_pow_pos _)

theorem alphaPtatCode_le (ee : Image) : alphaPtatCode ee ≤ 15 := Nat.le_of_lt_succ (bits_lt _ _ _)
theorem alphaScaleCode_le (ee : Image) : alphaScaleCode ee ≤ 15 := Nat.le_of_lt_succ (bits_lt _ _ _)
theorem kvScale_le (ee : Image) : kvScale ee ≤ 15 := Nat.le_of_lt_succ (bits_lt _ _ _)
theorem ctStepCode_le (ee : Image) : ctStepCode ee ≤ 3 := Nat.le_of_lt_succ (bits_lt _ _ _)
theorem ct3Code_le (ee : Image) : ct3Code ee ≤ 15 := Nat.le_of_lt_succ (bits_lt _ _ _)
theorem ct4Code_le (ee : Image) : ct4Code ee ≤ 15 := Nat.le_of_lt_succ (bits_lt _ _ _)
theorem kstoScaleCode_le (ee : Image) : kstoScaleCode ee ≤ 15 := Nat.le_of_lt_succ (bits_lt _ _ _)
theorem ktaScale1_le (ee : Image) : ktaScale1 ee ≤ 23 :=
  Nat.add_le_add_right (Nat.le_of_lt_succ (bits_lt (ee 56) 7 4)) 8

end Sys2Proof.Machine
end

section
/-! PROOFS. The acceptance and completion of DECODE (R150), the integer coefficients of the store (R151 to
R168), the checkerboard pattern (R172) and the bad-pixel list (R171). -/

namespace Sys2Proof.Machine

/-! ### DECODE (R150) -/

theorem completePending_decode {s : State} (pending : s.pending = encode .decode) :
    completePending s = completeDecode s := by
  rw [completePending, pending, decodeWord_encode rfl]

/-- Settles O13: the check of a complete image passes, and PENDING then holds DECODE's word. -/
theorem decodeAcceptedAndCompletes : Obligations.DecodeAcceptedAndCompletes := by
  intro s idle complete
  have accepted : exec .decode s = .next ((s.setLastOp 0x1#4).accept 0x00000001#32) := by
    rw [exec, execDecode, (decodeCheck_eq_none s).mpr complete, State.issueLong_accepted idle]
    rfl
  refine ⟨_, accepted, rfl, ?_⟩
  have sameImage : ((s.setLastOp 0x1#4).accept 0x00000001#32).ee = s.ee := rfl
  rw [completePending_decode rfl, completeDecode, sameImage]
  simp only [State.finish, State.accept, State.setLastOp]

/-! ### The integer scalars -/

/-- Settles O17: each scalar is one slice of its word, and its range is the slice's. -/
theorem integerScalarsDecoded : Obligations.IntegerScalarsDecoded := by
  intro cap ee
  have kVdd : (decodeStore cap ee).kVdd = ((ee 51).extractLsb' 8 8).toInt * 32 :=
    congrArg (· * 32) (sext_bits (ee 51) rfl (by decide))
  have vdd25 : (decodeStore cap ee).vdd25 = (((ee 51).extractLsb' 0 8).toNat - 256 : Int) * 32 - 8192 :=
    rfl
  have vPtat25 : (decodeStore cap ee).vPtat25 = (ee 49).toInt := sext_word _
  have gain : (decodeStore cap ee).gain = (ee 48).toInt := sext_word _
  have resolution : (decodeStore cap ee).resolution = ((ee 56).extractLsb' 12 2).toNat := rfl
  have zero : ((ee 51).extractLsb' 8 8).toInt = 0 ↔ (ee 51).extractLsb' 8 8 = 0#8 := by
    rw [← BitVec.toInt_inj, BitVec.toInt_zero]
  have kVddLower := BitVec.le_toInt ((ee 51).extractLsb' 8 8)
  have kVddUpper := BitVec.toInt_lt (x := (ee 51).extractLsb' 8 8)
  have vdd25Upper := ((ee 51).extractLsb' 0 8).isLt
  have vPtat25Lower := BitVec.le_toInt (ee 49)
  have vPtat25Upper := BitVec.toInt_lt (x := ee 49)
  have gainLower := BitVec.le_toInt (ee 48)
  have gainUpper := BitVec.toInt_lt (x := ee 48)
  have resolutionUpper := ((ee 56).extractLsb' 12 2).isLt
  have kVddZero : (decodeStore cap ee).kVdd = 0 ↔ (ee 51).extractLsb' 8 8 = 0#8 := by
    rw [← zero]
    omega
  refine ⟨kVdd, ?_, ?_, kVddZero, vdd25, ?_, ?_, vPtat25, ?_, ?_, gain, ?_, ?_, resolution, ?_⟩ <;> omega

/-- A 4-bit number of steps is at most 450. -/
theorem steps_bounds (ee : Image) {code : Nat} (h : code ≤ 15) :
    0 ≤ (code : Int) * ctStep ee ∧ (code : Int) * ctStep ee ≤ 450 := by
  have step := ctStepCode_le ee
  unfold ctStep
  constructor
  · positivity
  · calc (code : Int) * (ctStepCode ee * 10) ≤ 15 * (3 * 10) := by gcongr <;> assumption_mod_cast
      _ = 450 := rfl

theorem decCt3_bounds (ee : Image) : 0 ≤ decCt3 ee ∧ decCt3 ee ≤ 450 := steps_bounds ee (ct3Code_le ee)

theorem decCt4_sub_decCt3_bounds (ee : Image) :
    0 ≤ decCt4 ee - decCt3 ee ∧ decCt4 ee - decCt3 ee ≤ 450 := by
  rw [decCt4, add_sub_cancel_left]
  exact steps_bounds ee (ct4Code_le ee)

/-- Settles O19: both corners are sums of 4-bit numbers of steps. -/
theorem cornerTemperaturesDecoded : Obligations.CornerTemperaturesDecoded := by
  intro cap ee step
  have ct3 : (decodeStore cap ee).ct3 = ((ee 63).extractLsb' 4 4).toNat * step := rfl
  have ct4 : (decodeStore cap ee).ct4 =
      (decodeStore cap ee).ct3 + ((ee 63).extractLsb' 8 4).toNat * step := rfl
  obtain ⟨lower3, upper3⟩ : 0 ≤ (decodeStore cap ee).ct3 ∧ (decodeStore cap ee).ct3 ≤ 450 :=
    decCt3_bounds ee
  obtain ⟨lower4, upper4⟩ : 0 ≤ (decodeStore cap ee).ct4 - (decodeStore cap ee).ct3 ∧
      (decodeStore cap ee).ct4 - (decodeStore cap ee).ct3 ≤ 450 := decCt4_sub_decCt3_bounds ee
  refine ⟨ct3, ct4, lower3, upper3, by omega, by omega, fun h0 => ?_, rfl, rfl, rfl, rfl⟩
  rw [ct4, ct3, h0, mul_zero, mul_zero]
  exact ⟨rfl, rfl⟩

/-! ### The offset of a pixel -/

/-- Settles O23: the offset is a sum of four signed fields, three of them shifted by a 4-bit scale. -/
theorem pixelOffsetComposed : Obligations.PixelOffsetComposed := by
  intro cap ee i row col
  have composed : (decodeStore cap ee).pixOsRef.get i =
      (ee 17).toInt
        + ((ee (18 + row / 4)).extractLsb' (4 * (row % 4)) 4).toInt
            * 2 ^ ((ee 16).extractLsb' 8 4).toNat
        + ((ee (24 + col / 4)).extractLsb' (4 * (col % 4)) 4).toInt
            * 2 ^ ((ee 16).extractLsb' 4 4).toNat
        + ((ee (64 + i.val)).extractLsb' 10 6).toInt * 2 ^ ((ee 16).extractLsb' 0 4).toNat := by
    refine (Table.get_tab (decPixOsRef ee) i).trans ?_
    simp only [decPixOsRef, shl, offsetRef, sext_word, occRow, occCol, tableEntry_eq, offRem_eq]
    rfl
  have refLower := BitVec.le_toInt (ee 17)
  have refUpper := BitVec.toInt_lt (x := ee 17)
  have rowBounds := shifted_bounds ((ee (18 + row / 4)).extractLsb' (4 * (row % 4)) 4)
    ((ee 16).extractLsb' 8 4)
  have colBounds := shifted_bounds ((ee (24 + col / 4)).extractLsb' (4 * (col % 4)) 4)
    ((ee 16).extractLsb' 4 4)
  have remBounds := shifted_bounds ((ee (64 + i.val)).extractLsb' 10 6) ((ee 16).extractLsb' 0 4)
  refine ⟨composed, ?_⟩
  rw [composed]
  omega

/-! ### The checkerboard pattern -/

/-- Settles O27: the parity of the exclusive or is the exclusive or of the parities. -/
theorem checkerboardPattern : Obligations.CheckerboardPattern := by
  intro cap ee i
  have pattern : ((decodeStore cap ee).pattern.get i).val = ((i.val / 32) ^^^ i.val) % 2 :=
    congrArg Fin.val (Table.get_tab patternOf i)
  have parity : ((i.val / 32) ^^^ i.val) % 2 = (i.val / 32 % 2) ^^^ (i.val % 32 % 2) := by
    rw [Nat.xor_mod_two_pow (n := 1), Nat.mod_mod_of_dvd _ (by decide)]
  refine ⟨by rw [pattern, Nat.and_one_is_mod], pattern.trans parity, ?_⟩
  rw [pattern, parity, Pix.phase, Pix.row, Pix.col]
  rcases Nat.mod_two_eq_zero_or_one (i.val / 32) with hr | hr <;>
    rcases Nat.mod_two_eq_zero_or_one (i.val % 32) with hc | hc <;>
    rw [hr, hc] <;> decide

/-! ### The bad-pixel list -/

theorem outlier_eq (ee : Image) (i : Pixel) : outlier ee i = (ee (64 + i.val)).getLsbD 0 := by
  rw [outlier, bits, Nat.shiftRight_zero, ← BitVec.testBit_toNat, Nat.testBit_zero]
  rfl

theorem mem_flagged {ee : Image} {i : Pixel} : i ∈ flagged ee ↔ (ee (64 + i.val)).getLsbD 0 = true := by
  rw [flagged, List.mem_filter, outlier_eq, and_iff_right (List.mem_finRange i)]

theorem flagged_sorted (ee : Image) : (flagged ee).Pairwise (· < ·) := (List.pairwise_lt_finRange _).filter _

/-- Where the first `n` entries of a sorted list leave an entry out, there are more than `n`, and the first
`n` lie below it. -/
theorem left_out_of_take {n : Nat} {l : List Pixel} (sorted : l.Pairwise (· < ·)) {i : Pixel} (hi : i ∈ l)
    (out : i ∉ l.take n) : n < l.length ∧ ∀ j ∈ l.take n, j < i := by
  have rest : i ∈ l.drop n := by
    rw [← List.take_append_drop n l, List.mem_append] at hi
    exact hi.resolve_left out
  rw [← List.take_append_drop n l, List.pairwise_append] at sorted
  obtain ⟨-, -, below⟩ := sorted
  refine ⟨Nat.lt_of_not_le fun h => ?_, fun j hj => below j hj i rest⟩
  rw [List.drop_eq_nil_of_le h] at rest
  cases rest

/-- A sorted list has more than `n` entries exactly when its first `n` leave one out. -/
theorem length_gt_iff_left_out {n : Nat} {l : List Pixel} (sorted : l.Pairwise (· < ·)) :
    n < l.length ↔ ∃ i, i ∈ l ∧ i ∉ l.take n := by
  constructor
  · intro h
    by_contra! all
    have := (sorted.nodup.subperm all).length_le
    rw [List.length_take] at this
    omega
  · rintro ⟨i, hi, out⟩
    exact (left_out_of_take sorted hi out).1

/-- Settles O26: the list is the first entries of the sorted list of the flagged pixels. -/
theorem badPixelListBuilt : Obligations.BadPixelListBuilt := by
  intro cap ee _ _ flag st
  have sorted := flagged_sorted ee
  refine ⟨sorted.take, fun i hi => mem_flagged.mp (List.mem_of_mem_take hi), List.length_take_le _ _,
    fun i hi out => ?_, ?_, rfl, fun k h => ?_, fun k h => ?_⟩
  · obtain ⟨long, below⟩ := left_out_of_take sorted (mem_flagged.mpr hi) out
    exact ⟨List.length_take_of_le (Nat.le_of_lt long), below⟩
  · rw [decOverflow, decide_eq_true_eq, length_gt_iff_left_out sorted]
    exact exists_congr fun i => and_congr_left' mem_flagged
  · rw [CalStore.badIdx, List.getElem?_eq_getElem h]
  · rw [CalStore.badIdx, List.getElem?_eq_none h]

end Sys2Proof.Machine
end

section
/-! PROOFS. The binary32 coefficients of the store (R153 to R170): a result that is a whole number of less
than 24 bits over a power of two is exact, and every one of them but `a_CP_1` and `Alpha_corr` is such a
quotient. -/

namespace Sys2Proof

/-! ### Exact results -/

/-- A finite value lies below the least number that rounds to an infinity. -/
theorem F32.abs_toRat_lt {v : F32} (hv : F32.isFinite v = true) : |F32.toRat v| < F32.overflowBound := by
  have same : F32.round (F32.sign v) (F32.mag v) 1 = v := by
    have h := F32.round_exact (F32.isNaN_of_isFinite hv) Nat.one_pos
    rwa [mul_one] at h
  have value : F32.ratio (F32.sign v) (F32.mag v) 1 = F32.toRat v := by
    rw [F32.toRat_eq, F32.ratio, Nat.cast_one, div_one]
  rw [← value]
  exact (F32.isFinite_round_iff Nat.one_pos _ _).mp (same.symm ▸ hv)

/-- A number that is some word's value rounds to that value. -/
theorem F32.Rounds.exact {v w : F32} (h : F32.Rounds (F32.toRat v) w) (hv : F32.isFinite v = true) :
    F32.isFinite w = true ∧ F32.toRat w = F32.toRat v := by
  have hw := h.inRange.mpr (F32.abs_toRat_lt hv)
  have near := h.nearest hw v hv
  rw [sub_self, abs_zero, abs_nonpos_iff, sub_eq_zero] at near
  exact ⟨hw, near.symm⟩

/-- A whole number of less than 24 bits over a power of two is not changed by a rounding. -/
theorem F32.Rounds.quotient {x : Rat} {w : F32} {n : Int} {k : Nat} (h : F32.Rounds x w)
    (hx : x = (n : Rat) / 2 ^ k) (hn : n.natAbs < 2 ^ 24) (hk : k ≤ 127) :
    F32.isFinite w = true ∧ F32.toRat w = (n : Rat) / 2 ^ k := by
  obtain ⟨hv, value⟩ := F32.div_pow2_parts hn hk
  rw [hx, ← value] at h
  rw [← value]
  exact h.exact hv

theorem F32.toRat_c1 : F32.toRat F32.c1 = 1 := by decide +kernel
theorem F32.toRat_c8 : F32.toRat F32.c8 = 8 := by decide +kernel
theorem F32.c40_eq_ofInt : F32.c40 = F32.ofInt 40 := by decide +kernel

namespace Machine

/-! ### Scaled fields -/

/-- A signed number of at most 16 bits over a power of two is exact. -/
theorem scaled_exact {n k : Nat} (x : BitVec n) (hn : n ≤ 16) (hk : k ≤ 127) :
    F32.isFinite (F32.div (F32.ofInt x.toInt) (F32.pow2 k)) = true ∧
      F32.toRat (F32.div (F32.ofInt x.toInt) (F32.pow2 k)) = (x.toInt : Rat) / 2 ^ k := by
  refine F32.div_pow2_parts ?_ hk
  have half : (2 : Int) ^ (n - 1) ≤ 2 ^ 15 := pow_le_pow_right₀ (by decide) (by omega)
  have lower := BitVec.le_toInt x
  have upper := BitVec.toInt_lt (x := x)
  omega

/-- A sign-corrected slice over a power of two is exact. -/
theorem scaled_field_exact (w : Half) {n hi lo k : Nat} (h : hi + 1 = lo + n) (hn : 1 ≤ n ∧ n ≤ 16)
    (hk : k ≤ 127) :
    F32.isFinite (F32.div (F32.ofInt (sext n (bits w hi lo))) (F32.pow2 k)) = true ∧
      F32.toRat (F32.div (F32.ofInt (sext n (bits w hi lo))) (F32.pow2 k)) =
        ((w.extractLsb' lo n).toInt : Rat) / 2 ^ k := by
  rw [sext_bits w h hn.1]
  exact scaled_exact _ hn.2 hk

/-- `Alpha_PTAT` is one exact quotient and one exact sum (R156). -/
theorem decAlphaPtat_exact (ee : Image) :
    F32.isFinite (decAlphaPtat ee) = true ∧
      F32.toRat (decAlphaPtat ee) = 8 + (alphaPtatCode ee : Rat) / 4 := by
  have code := alphaPtatCode_le ee
  obtain ⟨quotientFinite, quotient⟩ :=
    F32.div_pow2_parts (n := alphaPtatCode ee) (k := 2) (by omega) (by decide)
  obtain ⟨finite, value⟩ := (F32.rounds_add quotientFinite (y := F32.c8) (by decide)).quotient
    (n := 32 + alphaPtatCode ee) (k := 2) (by rw [quotient, F32.toRat_c8]; push_cast; ring) (by omega)
    (by decide)
  refine ⟨finite, value.trans ?_⟩
  push_cast
  ring

/-- Settles O18: four scalars are scaled fields, `Alpha_PTAT` is an exact sum. -/
theorem scaledScalarsExact : Obligations.ScaledScalarsExact := by
  intro cap ee
  have kVPtat := scaled_field_exact (ee 50) (n := 6) (hi := 15) (lo := 10) (k := 12) rfl (by decide) (by decide)
  have kTPtat := scaled_field_exact (ee 50) (n := 10) (hi := 9) (lo := 0) (k := 3) rfl (by decide) (by decide)
  have ksTa := scaled_field_exact (ee 60) (n := 8) (hi := 15) (lo := 8) (k := 13) rfl (by decide) (by decide)
  have tgc := scaled_field_exact (ee 60) (n := 8) (hi := 7) (lo := 0) (k := 5) rfl (by decide) (by decide)
  norm_num only at kVPtat kTPtat ksTa tgc
  refine ⟨kVPtat, kTPtat, ?_, decAlphaPtat_exact ee, ksTa, tgc⟩
  refine (Eq.congr_left kTPtat.2).trans ?_
  rw [div_eq_zero_iff, or_iff_left (by decide), Int.cast_eq_zero, ← BitVec.toInt_inj, BitVec.toInt_zero]

/-! ### Slopes -/

theorem decKsTo_exact (ee : Image) (r : Fin 4) :
    F32.isFinite (decKsTo ee r) = true ∧
      F32.toRat (decKsTo ee r) = (kstoRaw ee r : Rat) / 2 ^ (kstoScaleCode ee + 8) := by
  have scale := kstoScaleCode_le ee
  rw [decKsTo, kstoRaw_eq]
  exact scaled_exact _ (by decide) (by omega)

/-- Settles O20: every slope is a scaled field. -/
theorem scaledSlopesExact : Obligations.ScaledSlopesExact := by
  intro cap ee
  have scale := kvScale_le ee
  have ktaScale := ktaScale1_le ee
  refine ⟨fun r => ?_, scaled_field_exact (ee 59) rfl (by decide) (by omega),
    scaled_field_exact (ee 59) rfl (by decide) (by omega)⟩
  have get : (decodeStore cap ee).ksTo.get r = decKsTo ee r := Table.get_tab _ r
  rw [get, ← kstoRaw_eq]
  exact decKsTo_exact ee r

/-! ### The corrections of the ranges (R163) -/

theorem kstoRaw_bounds (ee : Image) (r : Fin 4) : -128 ≤ kstoRaw ee r ∧ kstoRaw ee r ≤ 127 := by
  rw [kstoRaw_eq]
  exact ⟨BitVec.le_toInt _, Int.le_of_lt_add_one BitVec.toInt_lt⟩

/-- The numerator of `1 + Ks_To[r] · n` over the divisor of `Ks_To[r]`. -/
def slopeNumerator (ee : Image) (r : Fin 4) (n : Int) : Int :=
  2 ^ (kstoScaleCode ee + 8) + kstoRaw ee r * n

/-- The numerators of the product and of the sum have less than 24 bits. -/
theorem slope_natAbs_lt (ee : Image) (r : Fin 4) {n : Int} (lower : 0 ≤ n) (upper : n ≤ 450) :
    (kstoRaw ee r * n).natAbs < 2 ^ 24 ∧ (slopeNumerator ee r n).natAbs < 2 ^ 24 := by
  obtain ⟨kLower, kUpper⟩ := kstoRaw_bounds ee r
  have power : (2 : Int) ^ (kstoScaleCode ee + 8) ≤ 2 ^ 23 :=
    pow_le_pow_right₀ (by decide) (by have := kstoScaleCode_le ee; omega)
  have pos : (0 : Int) < 2 ^ (kstoScaleCode ee + 8) := by positivity
  have productLower : -128 * 450 ≤ kstoRaw ee r * n := by nlinarith
  have productUpper : kstoRaw ee r * n ≤ 127 * 450 := by nlinarith
  unfold slopeNumerator
  omega

/-- `1 + Ks_To[r] · n` is exact for every distance `n` that the corrections use. -/
theorem one_add_slope_exact (ee : Image) (r : Fin 4) {n : Int} (lower : 0 ≤ n) (upper : n ≤ 450) :
    F32.isFinite (F32.add F32.c1 (F32.mul (decKsTo ee r) (F32.ofInt n))) = true ∧
      F32.toRat (F32.add F32.c1 (F32.mul (decKsTo ee r) (F32.ofInt n))) =
        (slopeNumerator ee r n : Rat) / 2 ^ (kstoScaleCode ee + 8) := by
  have scale := kstoScaleCode_le ee
  obtain ⟨productSmall, sumSmall⟩ := slope_natAbs_lt ee r lower upper
  obtain ⟨slopeFinite, slope⟩ := decKsTo_exact ee r
  have factorFinite := (F32.ofInt_exact (n := n) (by omega)).1
  have factor := F32.toRat_ofInt (n := n) (by omega)
  obtain ⟨productFinite, product⟩ := (F32.rounds_mul slopeFinite factorFinite).quotient
    (n := kstoRaw ee r * n) (k := kstoScaleCode ee + 8) (by rw [slope, factor]; push_cast; ring) productSmall
    (by omega)
  refine (F32.rounds_add (by decide) productFinite).quotient ?_ sumSmall (by omega)
  rw [F32.toRat_c1, product, slopeNumerator]
  push_cast
  field_simp

/-- The divisor of `Alpha_corr[0]` is not zero: `40` times the slope's field is `-2^k` for no `k`, since 5
does not divide a power of two. -/
theorem slopeNumerator_forty_ne_zero (ee : Image) : slopeNumerator ee 0 40 ≠ 0 := by
  intro zero
  have divides : (5 : Int) ∣ 2 ^ (kstoScaleCode ee + 8) := ⟨-8 * kstoRaw ee 0, by
    rw [slopeNumerator] at zero
    linarith⟩
  have prime : Prime (5 : Int) := Int.prime_iff_natAbs_prime.mpr (by norm_num)
  exact absurd (prime.dvd_of_dvd_pow divides) (by decide)

/-- A quotient of a whole number of less than 24 bits and a power of two is less than `2^24`. -/
theorem abs_quotient_lt {n : Int} (k : Nat) (hn : n.natAbs < 2 ^ 24) : |(n : Rat) / 2 ^ k| < 2 ^ 24 := by
  have power : (1 : Rat) ≤ 2 ^ k := one_le_pow₀ (by decide)
  have bound : |(n : Rat)| < 2 ^ 24 := by
    rw [← Int.cast_abs, Int.abs_eq_natAbs]
    exact_mod_cast hn
  rw [abs_div, abs_of_pos (zero_lt_one.trans_le power)]
  exact (div_le_self (abs_nonneg _) power).trans_lt bound

/-- The inverse of a nonzero whole number over `2^k` is at most `2^k`. -/
theorem abs_inverse_le {n : Int} (k : Nat) (hn : n ≠ 0) : |1 / ((n : Rat) / 2 ^ k)| ≤ 2 ^ k := by
  have bound : (1 : Rat) ≤ |(n : Rat)| := by
    rw [← Int.cast_abs]
    exact_mod_cast Int.one_le_abs hn
  rw [one_div_div, abs_div, abs_of_pos (by positivity)]
  exact div_le_self (by positivity) bound

/-- All four corrections are finite: each `1 + Ks_To · n` is an exact quotient, so its inverse and the
product of two of them stay far inside the range. -/
theorem isFinite_decAlphaCorr (ee : Image) (r : Fin 4) : F32.isFinite (decAlphaCorr ee r) = true := by
  have scale := kstoScaleCode_le ee
  obtain ⟨lower3, upper3⟩ := decCt3_bounds ee
  obtain ⟨lower4, upper4⟩ := decCt4_sub_decCt3_bounds ee
  obtain ⟨finite2, value2⟩ := one_add_slope_exact ee 1 lower3 upper3
  match r with
  | 0 =>
    obtain ⟨finite, value⟩ := one_add_slope_exact ee 0 (n := 40) (by decide) (by decide)
    have nonzero : F32.toRat (F32.add F32.c1 (F32.mul (decKsTo ee 0) (F32.ofInt 40))) ≠ 0 := by
      rw [value, div_ne_zero_iff]
      exact ⟨Int.cast_ne_zero.mpr (slopeNumerator_forty_ne_zero ee), by positivity⟩
    have inverse := abs_inverse_le (kstoScaleCode ee + 8) (slopeNumerator_forty_ne_zero ee)
    have power : (2 : Rat) ^ (kstoScaleCode ee + 8) ≤ 2 ^ 23 := pow_le_pow_right₀ (by decide) (by omega)
    rw [decAlphaCorr, F32.c40_eq_ofInt, (F32.rounds_div (by decide) finite nonzero).inRange, F32.toRat_c1,
      value]
    exact (inverse.trans power).trans_lt (by decide +kernel)
  | 1 => rfl
  | 2 => exact finite2
  | 3 =>
    obtain ⟨finite, value⟩ := one_add_slope_exact ee 2 lower4 upper4
    have bound2 := abs_quotient_lt (kstoScaleCode ee + 8) (slope_natAbs_lt ee 1 lower3 upper3).2
    have bound := abs_quotient_lt (kstoScaleCode ee + 8) (slope_natAbs_lt ee 2 lower4 upper4).2
    rw [decAlphaCorr, (F32.rounds_mul finite2 finite).inRange, value2, value, abs_mul]
    exact (mul_lt_mul'' bound2 bound (abs_nonneg _) (abs_nonneg _)).trans (by decide +kernel)

/-- Settles O21: the four values are the expressions of the rule by definition. -/
theorem alphaCorrectionDefined : Obligations.AlphaCorrectionDefined := by
  intro cap ee st one divisor
  have corr (r : Fin 4) : st.alphaCorr.get r = decAlphaCorr ee r := Table.get_tab _ r
  have slope (r : Fin 4) : st.ksTo.get r = decKsTo ee r := Table.get_tab _ r
  have divisorExact : F32.toRat divisor =
      (slopeNumerator ee 0 40 : Rat) / 2 ^ (kstoScaleCode ee + 8) := by
    have exact := (one_add_slope_exact ee 0 (n := 40) (by decide) (by decide)).2
    rwa [← F32.c40_eq_ofInt, ← slope] at exact
  refine ⟨?_, corr 1, ?_, ?_, ?_, fun r => ?_⟩
  · simp only [corr, divisor, slope]
    rfl
  · simp only [corr, slope]
    rfl
  · simp only [corr, slope]
    rfl
  · rw [divisorExact, div_ne_zero_iff]
    exact ⟨Int.cast_ne_zero.mpr (slopeNumerator_forty_ne_zero ee), by positivity⟩
  · rw [corr]
    exact isFinite_decAlphaCorr ee r

/-! ### The compensation pixel -/

theorem decACP0_exact (ee : Image) :
    F32.isFinite (decACP0 ee) = true ∧
      F32.toRat (decACP0 ee) =
        (((ee 57).extractLsb' 0 10).toInt : Rat) / 2 ^ (((ee 32).extractLsb' 12 4).toNat + 27) := by
  have scale := alphaScaleCode_le ee
  exact scaled_field_exact (ee 57) rfl (by decide) (by omega)

/-- Settles O22: `a_CP_0` and the ratio are scaled fields, the offsets are signed fields. -/
theorem compensationPairDecoded : Obligations.CompensationPairDecoded := by
  intro cap ee
  have offCP0 : (decodeStore cap ee).offCP0 = ((ee 58).extractLsb' 0 10).toInt :=
    sext_bits (ee 58) rfl (by decide)
  have offCP1 : (decodeStore cap ee).offCP1 =
      (decodeStore cap ee).offCP0 + ((ee 58).extractLsb' 10 6).toInt :=
    congrArg (decOffCP0 ee + ·) (sext_bits (ee 58) rfl (by decide))
  have ratio := scaled_field_exact (ee 57) (n := 6) (hi := 15) (lo := 10) (k := 7) rfl (by decide) (by decide)
  norm_num only at ratio
  have baseLower := BitVec.le_toInt ((ee 58).extractLsb' 0 10)
  have baseUpper := BitVec.toInt_lt (x := (ee 58).extractLsb' 0 10)
  have deltaLower := BitVec.le_toInt ((ee 58).extractLsb' 10 6)
  have deltaUpper := BitVec.toInt_lt (x := (ee 58).extractLsb' 10 6)
  obtain ⟨aCP0Finite, aCP0⟩ := decACP0_exact ee
  obtain ⟨ratioFinite, ratioValue⟩ := ratio
  exact ⟨aCP0Finite, aCP0, ⟨_, ratioFinite, ratioValue, rfl⟩, offCP0, by omega, by omega, offCP1, by omega,
    by omega⟩

/-! ### The coefficients of a pixel -/

/-- Settles O24: the integer is a sum of four fields, three of them shifted by a 4-bit scale, and has less
than 24 bits. -/
theorem pixelSensitivityExact : Obligations.PixelSensitivityExact := by
  intro cap ee i row col aInt
  have scale := alphaScaleCode_le ee
  have composed : decAInt ee i = aInt := by
    simp only [decAInt, shl, accRow, accCol, tableEntry_eq, alphaRem_eq, alphaRef_eq]
    rfl
  have refUpper := (ee 33).isLt
  have rowBounds := shifted_bounds ((ee (34 + row / 4)).extractLsb' (4 * (row % 4)) 4)
    ((ee 32).extractLsb' 8 4)
  have colBounds := shifted_bounds ((ee (40 + col / 4)).extractLsb' (4 * (col % 4)) 4)
    ((ee 32).extractLsb' 4 4)
  have remBounds := shifted_bounds ((ee (64 + i.val)).extractLsb' 4 6) ((ee 32).extractLsb' 0 4)
  have bounds : -1572864 ≤ aInt ∧ aInt ≤ 1540095 := by omega
  have get : (decodeStore cap ee).a.get i = F32.div (F32.ofInt aInt) (F32.pow2 (alphaScaleCode ee + 30)) :=
    composed ▸ Table.get_tab (decA ee) i
  rw [get]
  exact ⟨bounds, F32.div_pow2_parts (by omega) (by omega)⟩

/-- Settles O25: the fields of the pixel's phase, and the pixel's remnant shifted by a 4-bit scale. -/
theorem phaseCoefficientsBroadcast : Obligations.PhaseCoefficientsBroadcast := by
  intro cap ee i row col kv rc ktaInt
  have scale := kvScale_le ee
  have ktaScale := ktaScale1_le ee
  have composed : decKTaInt ee i = ktaInt := by
    simp only [decKTaInt, shl, ktaPhase_eq, ktaRem_eq]
    rfl
  have rcLower : -2 ^ (8 - 1) ≤ rc := BitVec.le_toInt _
  have rcUpper : rc < 2 ^ (8 - 1) := BitVec.toInt_lt
  have remBounds := shifted_bounds ((ee (64 + i.val)).extractLsb' 1 3) ((ee 56).extractLsb' 0 4)
  have bounds : -131200 ≤ ktaInt ∧ ktaInt ≤ 98431 := by omega
  have kV : (decodeStore cap ee).kV.get i = F32.div (F32.ofInt kv) (F32.pow2 (kvScale ee)) :=
    (Table.get_tab (decKV ee) i).trans (by rw [decKV, kvPhase_eq])
  have kTa : (decodeStore cap ee).kTa.get i = F32.div (F32.ofInt ktaInt) (F32.pow2 (ktaScale1 ee)) :=
    composed ▸ Table.get_tab (decKTa ee) i
  rw [kV, kTa]
  exact ⟨scaled_exact _ (by decide) (by omega), bounds, F32.div_pow2_parts (by omega) (by omega)⟩

end Machine
end Sys2Proof
end

section
/-! PROOFS. MERGE: its index sets as a checkerboard (R201), its acceptance and its completion (R200). -/

namespace Sys2Proof.Machine

/-! ### The index sets (R201) -/

/-- For an offset of one bit, `SUB(o)` is the pixels whose row and column sum to the offset's parity. -/
theorem mem_subIndices_of_lt {o : Nat} (ho : o < 2) (idx : Nat) :
    idx ∈ subIndices o ↔ idx < 768 ∧ (idx / 32 + idx % 32) % 2 = o := by
  rw [mem_subIndices]
  exact and_congr_right fun _ => by omega

/-- 24 rows of 16 indices each. -/
theorem length_subIndices (o : Nat) : (subIndices o).length = 384 := by
  simp [subIndices, List.length_flatMap]

/-- Within a row the column fixes the loop index, and an index fixes its row. -/
theorem nodup_subIndices (o : Nat) : (subIndices o).Nodup := by
  refine List.nodup_flatMap.mpr ⟨fun row _ => ?_, ?_⟩
  · exact List.nodup_range.map fun i j (h : _ = _) => by omega
  · refine List.nodup_range.imp fun {row row'} (hrow : row ≠ row') idx hidx hidx' => hrow ?_
    obtain ⟨i, hi, rfl⟩ := List.mem_map.mp hidx
    obtain ⟨j, hj, h⟩ := List.mem_map.mp hidx'
    rw [List.mem_range] at hi hj
    omega

theorem patternOf_val (i : Pixel) : (patternOf i).val = (i.val / 32 + i.val % 32) % 2 := by
  have parity : (patternOf i).val = (i.val / 32 + i.val) % 2 := Nat.xor_mod_two_eq
  omega

/-- Settles O29: the sets split the grid by the parity of row plus column. -/
theorem subpagesInterleave : Obligations.SubpagesInterleave := by
  have mem0 := mem_subIndices_of_lt (o := 0) (by decide)
  have mem1 := mem_subIndices_of_lt (o := 1) (by decide)
  refine ⟨length_subIndices 0, length_subIndices 1, nodup_subIndices 0, nodup_subIndices 1,
    fun i => ?_, fun i => ?_, fun o i ho => ?_, fun c hc => ?_⟩
  · rw [mem0, mem1]
    omega
  · rw [mem0, mem1]
    omega
  · rw [mem_subIndices_of_lt ho, patternOf_val]
    exact and_iff_right i.isLt
  · rw [mem0]
    omega

/-! ### MERGE (R200) -/

/-- A word that was written is what the engine reads. -/
theorem Memory.some_read_of_listed {m : Memory} {a : Nat} (h : m.listed a = true) :
    some (m.read a) = m.lookup a := by
  obtain ⟨w, hw⟩ := Option.isSome_iff_exists.mp h
  rw [Memory.read, hw, Option.getD_some]

/-- MERGE's copies put the PIX word of every index of the half in its RAW word. -/
theorem Memory.lookup_copies_raw (m : Memory) {o idx : Nat} (h : idx ∈ subIndices o) :
    ((subIndices o).foldl copyPixel m).lookup (rawBase + idx) = some (m.read (pixBase + idx)) := by
  rw [Memory.lookup_copies _ fun _ => lt_of_mem_subIndices, Nat.add_sub_cancel_left,
    if_pos ⟨Nat.le_add_right _ _, h⟩]

/-- MERGE's copies leave every address alone that is no RAW word of the half. -/
theorem Memory.lookup_copies_other (m : Memory) {o a : Nat} (h : ∀ idx ∈ subIndices o, a ≠ rawBase + idx) :
    ((subIndices o).foldl copyPixel m).lookup a = m.lookup a := by
  rw [Memory.lookup_copies _ fun _ => lt_of_mem_subIndices, if_neg]
  rintro ⟨raw, half⟩
  exact h _ half (Nat.add_sub_cancel' raw).symm

theorem Status.setMerged_of_lt (t : Status) {o : Nat} (ho : o < 2) :
    t.setMerged o = { t with merged0 := t.merged0 || o == 0, merged1 := t.merged1 || o == 1 } := by
  obtain rfl | rfl : o = 0 ∨ o = 1 := by omega
  all_goals simp [Status.setMerged]

theorem encode_merge {o : Nat} (ho : o < 2) : encode (.merge o) = BitVec.ofNat 32 (2 + 16 * o) := by
  obtain rfl | rfl : o = 0 ∨ o = 1 := by omega
  all_goals rfl

theorem opField_encode_merge {o : Nat} (ho : o < 2) : opField (encode (.merge o)) = 0x2#4 := by
  obtain rfl | rfl : o = 0 ∨ o = 1 := by omega
  all_goals rfl

theorem completePending_merge {s : State} {o : Nat} (ho : o < 2) (pending : s.pending = encode (.merge o)) :
    completePending s = completeMerge o s := by
  have wf : (Instr.merge o).wellFormed = true := decide_eq_true ho
  rw [completePending, pending, decodeWord_encode wf]

/-- Settles O14: the check of a complete half passes, PENDING then holds MERGE's word, and the copies read
words that were written. -/
theorem mergeAcceptedAndCompletes : Obligations.MergeAcceptedAndCompletes := by
  intro s o ho idle complete
  have check : mergeCheck o s = none :=
    (mergeCheck_eq_none o s).mpr fun idx lt parity => complete idx lt (parity.trans (Nat.mod_eq_of_lt ho))
  have accepted :
      exec (.merge o) s = .next ((s.setLastOp 0x2#4).accept (BitVec.ofNat 32 (2 + 16 * o))) := by
    rw [exec, execMerge, check, State.issueLong_accepted idle, opField_encode_merge ho, encode_merge ho]
  refine ⟨_, accepted, rfl, (subIndices o).foldl copyPixel s.mem, ?_, fun idx lt parity => ?_,
    fun a other => ?_⟩
  · rw [completePending_merge ho (encode_merge ho).symm, completeMerge, Status.setMerged_of_lt _ ho]
    simp only [State.finish, State.accept, State.setLastOp]
  · exact (s.mem.lookup_copies_raw ((mem_subIndices_of_lt ho idx).mpr ⟨lt, parity⟩)).trans
      (Memory.some_read_of_listed (complete idx lt parity))
  · refine s.mem.lookup_copies_other fun idx half => ?_
    obtain ⟨lt, parity⟩ := (mem_subIndices_of_lt ho idx).mp half
    exact other idx lt parity

end Sys2Proof.Machine
end

section
/-! PROOFS. What the compensation stages need of the arithmetic: a zero divisor or a value that is not
finite in a sum, the product with 1 and with 0, and the division by 1. -/

namespace Sys2Proof

theorem F32.mag_c1 : F32.mag F32.c1 = 2 ^ 149 := by decide +kernel

theorem F32.ofInt_zero : F32.ofInt 0 = F32.c0 := by decide +kernel

theorem F32.toRat_c0 : F32.toRat F32.c0 = 0 := (F32.toRat_eq_zero _).mpr (by decide)

theorem F32.isFinite_of_mag_zero {x : F32} (h : F32.mag x = 0) : F32.isFinite x = true := by
  rw [F32.isFinite, F32.mag_eq_zero_iff_code.mp h]
  decide

/-! ### Values that are not finite -/

theorem F32.isInf_of_not {x : F32} (hn : F32.isNaN x = false) (hf : F32.isFinite x = false) :
    F32.isInf x = true :=
  ((F32.isFinite_eq_false x).mp hf).resolve_left (by simp [hn])

/-- A summand that is not finite makes the sum not finite. -/
theorem F32.isFinite_add_left {x : F32} (hx : F32.isFinite x = false) (y : F32) :
    F32.isFinite (F32.add x y) = false := by
  rcases (F32.isFinite_eq_false x).mp hx with nan | inf
  · rw [F32.add_nan_left nan]
    decide
  · cases hy : F32.isFinite y
    · rcases (F32.isFinite_eq_false y).mp hy with nan' | inf'
      · rw [F32.add_nan_right nan']
        decide
      · rw [F32.add_inf_inf inf inf']
        split
        case isTrue => decide
        case isFalse => exact hx
    · rw [F32.add_inf_left inf hy, hx]

/-- A zero divisor makes the quotient not finite, whatever the dividend. -/
theorem F32.isFinite_div_zero (x : F32) {y : F32} (hy : F32.isFinite y = true) (h0 : F32.toRat y = 0) :
    F32.isFinite (F32.div x y) = false := by
  cases hx : F32.isFinite x
  · rcases (F32.isFinite_eq_false x).mp hx with nan | inf
    · rw [F32.div_nan_left nan]
      decide
    · rw [F32.div_inf_left inf hy]
      exact F32.isFinite_of_isInf (F32.inf_parts _).1
  · rw [F32.div_zero hx hy h0]
    split
    · decide
    · exact F32.isFinite_of_isInf (F32.inf_parts _).1

/-! ### Neutral operands -/

theorem F32.div_c1 {x : F32} (hx : F32.isNaN x = false) : F32.div x F32.c1 = x := by
  have one : F32.isFinite F32.c1 = true := by decide
  have sign : (F32.sign x != F32.sign F32.c1) = F32.sign x := Bool.bne_false _
  cases hf : F32.isFinite x
  · have inf := F32.isInf_of_not hx hf
    rw [F32.div_inf_left inf one, sign, ← F32.eq_inf_of_isInf inf]
  · rw [F32.div_finite hf one (by decide +kernel), sign, F32.mag_c1, F32.round_exact hx (Nat.two_pow_pos _)]

theorem F32.c1_mul {x : F32} (hx : F32.isNaN x = false) : F32.mul F32.c1 x = x := by
  have one : F32.isFinite F32.c1 = true := by decide
  have sign : (F32.sign F32.c1 != F32.sign x) = F32.sign x := Bool.false_bne _
  cases hf : F32.isFinite x
  · have inf := F32.isInf_of_not hx hf
    rw [F32.mul_inf_right inf one, if_neg (by decide +kernel), bne_comm, sign, ← F32.eq_inf_of_isInf inf]
  · rw [F32.mul_finite one hf, sign, F32.mag_c1, Nat.mul_comm, F32.round_exact hx (Nat.two_pow_pos _)]

/-- A product with 1 is finite exactly when the value is. -/
theorem F32.isFinite_c1_mul (x : F32) : F32.isFinite (F32.mul F32.c1 x) = F32.isFinite x := by
  cases hx : F32.isNaN x
  · rw [F32.c1_mul hx]
  · rw [F32.mul_nan_right hx, (F32.isFinite_eq_false x).mpr (.inl hx)]
    decide

/-- A product of a finite value with 0 is a zero. -/
theorem F32.c0_mul {x : F32} (hx : F32.isFinite x = true) :
    F32.mul F32.c0 x = F32.zero (F32.sign x) := by
  have zero : F32.mag F32.c0 = 0 := by decide
  have sign : (F32.sign F32.c0 != F32.sign x) = F32.sign x := Bool.false_bne _
  rw [F32.mul_finite (by decide) hx, zero, Nat.zero_mul, F32.round_zero (Nat.two_pow_pos _), sign]

/-- A product with 0 is a NaN when the other value is not finite. -/
theorem F32.isNaN_c0_mul {x : F32} (hx : F32.isFinite x = false) : F32.isNaN (F32.mul F32.c0 x) = true := by
  rcases (F32.isFinite_eq_false x).mp hx with nan | inf
  · rw [F32.mul_nan_right nan, F32.isNaN_nan]
  · rw [F32.mul_inf_right inf (by decide), if_pos F32.toRat_c0, F32.isNaN_nan]

theorem F32.mag_zero (b : Bool) : F32.mag (F32.zero b) = 0 := by cases b <;> decide

section
variable {x z : F32} (hx : F32.isFinite x = true) (hz : F32.mag z = 0)
include hx hz

/-- A zero added to a finite value leaves its value. -/
theorem F32.feq_add_of_mag_zero : F32.feq (F32.add x z) x = true := by
  have rounds : F32.Rounds (F32.toRat x) (F32.add x z) := by
    have h := F32.rounds_add hx (F32.isFinite_of_mag_zero hz)
    rwa [(F32.toRat_eq_zero z).mpr hz, add_zero] at h
  exact (F32.feq_iff_toRat rounds.number (F32.isNaN_of_isFinite hx)).mpr (rounds.exact hx).2

/-- A zero added to a finite value that is no zero leaves the word. -/
theorem F32.add_of_mag_zero (h : F32.mag x ≠ 0) : F32.add x z = x := by
  have units : F32.units z = 0 := by rw [F32.units, hz]; split <;> rfl
  have nonzero : F32.units x ≠ 0 := by unfold F32.units; split <;> omega
  have sign : decide (F32.units x < 0) = F32.sign x := by
    unfold F32.units
    cases F32.sign x <;> simp only [Bool.false_eq_true, if_false, if_true, decide_eq_true_eq,
      decide_eq_false_iff_not] <;> omega
  have mag : (F32.units x).natAbs = F32.mag x * 1 := by unfold F32.units; split <;> omega
  rw [F32.add_finite hx (F32.isFinite_of_mag_zero hz), units, Int.add_zero, if_neg nonzero, sign, mag,
    F32.round_exact (F32.isNaN_of_isFinite hx) Nat.one_pos]

end

/-- The sum does not depend on the order of its operands. -/
theorem F32.add_symm (x y : F32) : F32.add x y = F32.add y x := by
  cases hx : F32.isNaN x
  · cases hy : F32.isNaN y
    · cases ix : F32.isInf x <;> cases iy : F32.isInf y
      · have fx := F32.isFinite_of_not hx ix
        have fy := F32.isFinite_of_not hy iy
        rw [F32.add_finite fx fy, F32.add_finite fy fx, Int.add_comm, Bool.and_comm]
      · have fx := F32.isFinite_of_not hx ix
        rw [F32.add_inf_right iy fx, F32.add_inf_left iy fx]
      · have fy := F32.isFinite_of_not hy iy
        rw [F32.add_inf_left ix fy, F32.add_inf_right ix fy]
      · rw [F32.add_inf_inf ix iy, F32.add_inf_inf iy ix, bne_comm]
        by_cases same : F32.sign x = F32.sign y
        · rw [F32.eq_inf_of_isInf ix, F32.eq_inf_of_isInf iy, same]
        · rw [if_pos (bne_iff_ne.mpr (Ne.symm same)), if_pos (bne_iff_ne.mpr (Ne.symm same))]
    · rw [F32.add_nan_right hy, F32.add_nan_left hy]
  · rw [F32.add_nan_left hx, F32.add_nan_right hx]

end Sys2Proof
end

section
/-! PROOFS. The stages of the compensation (R221 to R235): the frame scalars, the division by the
emissivity, the weighted choice and the range selection. -/

namespace Sys2Proof.Machine

/-! ### The frame scalars -/

theorem signed_eq_toInt (w : Half) : signed w = w.toInt := sext_word w

theorem resRam_eq (aux : AuxBank) : resRam aux = (aux.ctrl.extractLsb' 10 2).toNat :=
  bits_eq_toNat _ rfl (by decide)

section
variable (st : CalStore) (aux : AuxBank)

theorem frameScalars_vdd : (frameScalars st aux).vdd = stVdd st aux (frameScalars st aux).resCorr := by
  simp only [frameScalars]

theorem frameScalars_ta : (frameScalars st aux).ta = stTa st aux (frameScalars st aux).vdd := by
  simp only [frameScalars]

theorem frameScalars_kGain : (frameScalars st aux).kGain = stKGain st aux := by
  simp only [frameScalars]

theorem frameScalars_dTa : (frameScalars st aux).dTa = F32.sub (frameScalars st aux).ta F32.c25 := by
  simp only [frameScalars]

theorem frameScalars_dV : (frameScalars st aux).dV = F32.sub (frameScalars st aux).vdd F32.c3_3 := by
  simp only [frameScalars]

theorem frameScalars_cp0 :
    (frameScalars st aux).cp0 =
      stCp st aux.cpSp0 st.offCP0 (frameScalars st aux).kGain (frameScalars st aux).dTa
        (frameScalars st aux).dV := by
  simp only [frameScalars]

theorem frameScalars_cp1 :
    (frameScalars st aux).cp1 =
      stCp st aux.cpSp1 st.offCP1 (frameScalars st aux).kGain (frameScalars st aux).dTa
        (frameScalars st aux).dV := by
  simp only [frameScalars]

theorem frameScalars_taR : (frameScalars st aux).taR = stTaR (frameScalars st aux).ta := by
  simp only [frameScalars]

end

/-- The resolution correction is a quotient of two small powers of two, which is exact. -/
theorem stResCorr_exact (st : CalStore) (aux : AuxBank) (h : st.resolution ≤ 3) :
    F32.isFinite (stResCorr st aux) = true ∧
      F32.toRat (stResCorr st aux) = 2 ^ st.resolution / 2 ^ resRam aux := by
  have ram : resRam aux ≤ 3 := Nat.le_of_lt_succ (bits_lt aux.ctrl 11 10)
  have ramValue := F32.toRat_pow2 (n := resRam aux) (by omega)
  have rounds := F32.rounds_div (F32.pow2_parts (n := st.resolution) (by omega)).1
    (F32.pow2_parts (n := resRam aux) (by omega)).1 (by rw [ramValue]; positivity)
  have small : ((2 : Int) ^ st.resolution).natAbs < 2 ^ 24 := by
    rw [Int.natAbs_pow]
    exact Nat.pow_lt_pow_right (by decide) (by omega)
  rw [F32.toRat_pow2 (by omega), ramValue] at rounds
  have parts := rounds.quotient (n := 2 ^ st.resolution) (k := resRam aux) (by push_cast; rfl) small
    (by omega)
  push_cast at parts
  exact parts

/-- AUX_CTRL acts on the frame scalars through the resolution correction only. -/
theorem frameScalars_setCtrl (st : CalStore) (aux : AuxBank) {w : Half}
    (h : stResCorr st { aux with ctrl := w } = stResCorr st aux) :
    frameScalars st { aux with ctrl := w } = frameScalars st aux := by
  unfold frameScalars
  rw [h]
  rfl

/-- Settles O30: the correction is an exact quotient, and its divisor is all that AUX_CTRL gives. -/
theorem resolutionCorrectionExact : Obligations.ResolutionCorrectionExact := by
  intro st aux h
  obtain ⟨finite, value⟩ := stResCorr_exact st aux h
  refine ⟨finite, resRam_eq aux ▸ value, fun w hw => frameScalars_setCtrl st aux ?_⟩
  have ram : resRam { aux with ctrl := w } = resRam aux := by rw [resRam_eq, resRam_eq, hw]
  rw [stResCorr, stResCorr, ram]

/-- Settles O31: a zero divisor makes a quotient not finite, and the constant added to it keeps it so. -/
theorem voltageAndGainScalars : Obligations.VoltageAndGainScalars := by
  intro st aux fs num
  have vdd : fs.vdd = F32.add (F32.div num (F32.ofInt st.kVdd)) F32.c3_3 := by
    rw [frameScalars_vdd, stVdd, signed_eq_toInt]
  have kGain : fs.kGain = F32.div (F32.ofInt st.gain) (F32.ofInt aux.gain.toInt) := by
    rw [frameScalars_kGain, stKGain, signed_eq_toInt]
  have finiteZero : F32.isFinite F32.c0 = true := by decide
  have overZero (h : aux.gain = 0#16) : fs.kGain = F32.div (F32.ofInt st.gain) F32.c0 := by
    rw [kGain, h, BitVec.toInt_zero, F32.ofInt_zero]
  refine ⟨vdd, fun h => ⟨?_, fun h0 => ?_⟩, kGain, fun h => ?_, fun h h0 => ?_, fun h pos upper => ?_⟩
  · rw [vdd, h, F32.ofInt_zero]
    exact F32.isFinite_add_left (F32.isFinite_div_zero num finiteZero F32.toRat_c0) _
  · rw [vdd, h, F32.ofInt_zero, F32.div_zero (F32.isFinite_of_mag_zero h0) finiteZero F32.toRat_c0,
      if_pos ((F32.toRat_eq_zero num).mpr h0), F32.add_nan_left F32.isNaN_nan, F32.isNaN_nan]
  · rw [overZero h]
    exact F32.isFinite_div_zero _ finiteZero F32.toRat_c0
  · rw [overZero h, h0, F32.ofInt_zero, F32.div_zero finiteZero finiteZero F32.toRat_c0,
      if_pos F32.toRat_c0, F32.isNaN_nan]
  · obtain ⟨finite, sign, -⟩ := F32.ofInt_exact (n := st.gain) (by omega)
    have nonzero : F32.toRat (F32.ofInt st.gain) ≠ 0 := by
      rw [F32.toRat_ofInt (by omega), Int.cast_ne_zero]
      exact pos.ne'
    rw [overZero h, F32.div_zero finite finiteZero F32.toRat_c0, if_neg nonzero, sign,
      decide_eq_false pos.le.not_gt]
    rfl

/-- The PTAT ratio with its words read as two's complement (R223). -/
theorem stPtatArt_eq (st : CalStore) (aux : AuxBank) :
    stPtatArt st aux =
      F32.mul
        (F32.div (F32.ofInt aux.ptat.toInt)
          (F32.add (F32.mul (F32.ofInt aux.ptat.toInt) st.alphaPtat) (F32.ofInt aux.vbe.toInt)))
        0x48800000#32 := by
  have scale : F32.pow2 18 = 0x48800000#32 := by decide
  rw [stPtatArt, scale, signed_eq_toInt, signed_eq_toInt]

/-- A compensation pixel with its AUX word read as two's complement (R226). -/
theorem stCp_eq (st : CalStore) (live : Half) (off : Int) (kGain dTa dV : F32) :
    stCp st live off kGain dTa dV =
      F32.sub (F32.mul (F32.ofInt live.toInt) kGain)
        (F32.mul (F32.mul (F32.ofInt off) (F32.add F32.c1 (F32.mul st.kTaCP dTa)))
          (F32.add F32.c1 (F32.mul st.kVCP dV))) := by
  rw [stCp, signed_eq_toInt]

/-- Settles O32: the stages are the rules' expressions once the AUX words are read as two's complement. -/
theorem frameScalarExpressions : Obligations.FrameScalarExpressions := by
  intro st aux fs toF ptat vbe ptatArt trK taK trK4 taK4 one cp
  refine ⟨(frameScalars_ta st aux).trans ?ta, frameScalars_dTa st aux, frameScalars_dV st aux,
    (frameScalars_cp0 st aux).trans (stCp_eq ..), (frameScalars_cp1 st aux).trans (stCp_eq ..),
    frameScalars_taR st aux⟩
  rw [stTa, stPtatArt_eq]
  rfl

/-! ### The stages of a pixel -/

/-- Settles O33: the stages compose to the rules' chain once the raw count is read as two's complement. -/
theorem pixelStageExpressions : Obligations.PixelStageExpressions := by
  intro st fs raw i
  have v5 : stV5 fs raw = F32.mul (F32.ofInt raw.toInt) fs.kGain := by rw [stV5, signed_eq_toInt]
  rw [pixelTemp, v5]
  rfl

/-- Settles O34: the emissivity is 1. -/
theorem emissivityDivisionIsIdentity : Obligations.EmissivityDivisionIsIdentity :=
  fun v6 => ⟨F32.div_c1, fun nan => by rw [stV7, F32.div_nan_left nan, F32.isNaN_nan]⟩

/-! ### The weighted choice (R231, D44) -/

theorem weigh_c0 (x0 x1 : F32) : weigh F32.c0 x0 x1 = F32.add (F32.mul F32.c1 x0) (F32.mul F32.c0 x1) := by
  have weight : F32.sub F32.c1 F32.c0 = F32.c1 := by decide +kernel
  rw [weigh, weight]

/-- Pattern 1 exchanges the parts of the two values. -/
theorem weigh_c1 (x0 x1 : F32) : weigh F32.c1 x0 x1 = weigh F32.c0 x1 x0 := by
  have weight : F32.sub F32.c1 F32.c1 = F32.c0 := by decide +kernel
  rw [weigh, weight, weigh_c0, F32.add_symm]

theorem weigh_c0_finite {x0 x1 : F32} (h0 : F32.isFinite x0 = true) (h1 : F32.isFinite x1 = true) :
    weigh F32.c0 x0 x1 = F32.add x0 (F32.zero (F32.sign x1)) := by
  rw [weigh_c0, F32.c1_mul (F32.isNaN_of_isFinite h0), F32.c0_mul h1]

theorem isNaN_weigh_c0 (x0 : F32) {x1 : F32} (h : F32.isFinite x1 = false) :
    F32.isNaN (weigh F32.c0 x0 x1) = true := by
  rw [weigh_c0, F32.add_nan_right (F32.isNaN_c0_mul h), F32.isNaN_nan]

theorem isFinite_weigh_c0 {x0 : F32} (h : F32.isFinite x0 = false) (x1 : F32) :
    F32.isFinite (weigh F32.c0 x0 x1) = false := by
  rw [weigh_c0]
  exact F32.isFinite_add_left ((F32.isFinite_c1_mul x0).trans h) _

/-- Settles O35: the picked value has the factor 1 and the other one the factor 0, whose product with a
finite value is a zero and with any other value a NaN. -/
theorem weightedChoicePicksOne : Obligations.WeightedChoicePicksOne := by
  intro x0 x1
  rw [weigh_c1]
  refine ⟨fun h0 h1 => ?_, isNaN_weigh_c0 x0, isNaN_weigh_c0 x1, fun h => isFinite_weigh_c0 h x1,
    fun h => isFinite_weigh_c0 h x0⟩
  rw [weigh_c0_finite h0 h1, weigh_c0_finite h1 h0]
  exact ⟨F32.feq_add_of_mag_zero h0 (F32.mag_zero _), F32.feq_add_of_mag_zero h1 (F32.mag_zero _),
    F32.add_of_mag_zero h0 (F32.mag_zero _), F32.add_of_mag_zero h1 (F32.mag_zero _)⟩

/-! ### The range selection (R234) -/

/-- Settles O36: each of the three comparisons is false for a NaN, is the sign for an infinity, and is that
of the values otherwise. -/
theorem rangeSelectionHalfOpen : Obligations.RangeSelectionHalfOpen := by
  intro st t lower order upper
  have zeroFinite : F32.isFinite F32.c0 = true := by decide
  obtain ⟨ct3Finite, -, -⟩ := F32.ofInt_exact (n := st.ct3) (by omega)
  obtain ⟨ct4Finite, -, -⟩ := F32.ofInt_exact (n := st.ct4) (by omega)
  refine ⟨fun nan => ?_, fun inf => ?_, fun finite => ?_⟩
  · simp only [rangeOf, F32.lt_nan_left nan, Bool.false_eq_true, if_false]
  · have below {y : F32} (hy : F32.isFinite y = true) : F32.lt t y = F32.sign t := by
      rw [F32.eq_inf_of_isInf inf, (F32.inf_parts _).2]
      exact (F32.lt_inf_of_isFinite hy _).2.1
    rw [rangeOf, below zeroFinite, below ct3Finite, below ct4Finite]
    cases F32.sign t <;> rfl
  · have below {y : F32} (hy : F32.isFinite y = true) : F32.lt t y = true ↔ F32.toRat t < F32.toRat y :=
      F32.lt_iff_toRat (F32.isNaN_of_isFinite finite) (F32.isNaN_of_isFinite hy)
    have below0 := below zeroFinite
    have below3 := below ct3Finite
    have below4 := below ct4Finite
    rw [F32.toRat_c0] at below0
    rw [F32.toRat_ofInt (by omega)] at below3 below4
    exact if_congr below0 rfl (if_congr below3 rfl (if_congr below4 rfl rfl))

end Sys2Proof.Machine
end

section
/-! PROOFS. The acceptance and completion of EVALUATE (R220, R263 to R266). -/

namespace Sys2Proof.Machine

theorem completePending_evaluate {s : State} (pending : s.pending = encode .evaluate) :
    completePending s = completeEvaluate s := by
  rw [completePending, pending, decodeWord_encode rfl]

theorem execEvaluate_accepted {s : State} (idle : s.status.busy = false) (check : evaluateCheck s = none) :
    exec .evaluate s = .next ((s.setLastOp 0x3#4).accept 0x00000003#32) := by
  rw [exec, execEvaluate, check, State.issueLong_accepted idle]
  rfl

/-- The entries fix the pre-repair grid. -/
theorem eq_rawTemps {st : CalStore} {fs : FrameScalars} {raw : Nat → Half} {pre : Grid F32}
    (h : ∀ i, pre.get i = pixelTemp st fs (raw i.val) i) : pre = rawTemps st fs raw :=
  Table.ext_get fun i => (h i).trans (rawTemps_get st fs raw i).symm

/-- Every TEMP word shows the grid's entry. -/
theorem outputsOf_temp_shows (d : Nat) (fs : FrameScalars) (g : Grid F32) (i : Pixel) :
    F32.Shows ((outputsOf d fs g).temp.get i) (g.get i) := by
  rw [outputsOf_temp]
  exact F32.shows_settle _ _

/-- Settles O15: the checks pass, PENDING then holds EVALUATE's word, and the output set is that of the
store, AUX and RAW as they were at the write. -/
theorem evaluateAcceptedAndCompletes : Obligations.EvaluateAcceptedAndCompletes := by
  intro s idle calibrated merged0 merged1 aux
  have check := (evaluateCheck_eq_none s).mpr ⟨calibrated, merged0, merged1, aux⟩
  refine ⟨_, execEvaluate_accepted idle check, rfl, _, _,
    (completePending_evaluate rfl).trans (completeEvaluate_eq _), rfl, ?_, fun pre hpre => ?_⟩
  · rw [← anyNonfinite_iff, anyNonfinite_outputsOf]
  · rw [eq_rawTemps hpre]
    exact ⟨outputsOf_temp_shows _ _ _, anyNonfinite_iff _, outputsOf_minTemp .., outputsOf_maxTemp ..,
      outputsOf_shows ..⟩

end Sys2Proof.Machine
end

section
/-! PROOFS. The neighbours of a pixel and the flip (R261, R263), and the repair in list order (R260, R262). -/

namespace Sys2Proof.Machine

/-! ### Neighbours and the flip (R261, R263) -/

theorem neighbourAt_map_val (ok : Bool) (n : Nat) :
    (neighbourAt ok n).map (fun i => i.val) = if ok = true ∧ n < nPix then [n] else [] := by
  unfold neighbourAt
  split <;> rfl

/-- The indices of a pixel's neighbours: each guard on row or column keeps its index on the grid. -/
theorem neighbours_map_val (b : Pixel) :
    (neighbours b).map (fun n => n.val) =
      (if 0 < b.val / 32 then [b.val - 32] else []) ++ (if b.val / 32 < 23 then [b.val + 32] else [])
        ++ (if 0 < b.val % 32 then [b.val - 1] else [])
        ++ (if b.val % 32 < 31 then [b.val + 1] else []) := by
  have inGrid := b.isLt
  have up : 0 < Pix.row b ∧ b.val - 32 < nPix ↔ 0 < b.val / 32 := by unfold Pix.row nPix at *; omega
  have down : Pix.row b < 23 ∧ b.val + 32 < nPix ↔ b.val / 32 < 23 := by unfold Pix.row nPix at *; omega
  have left : 0 < Pix.col b ∧ b.val - 1 < nPix ↔ 0 < b.val % 32 := by unfold Pix.col nPix at *; omega
  have right : Pix.col b < 31 ∧ b.val + 1 < nPix ↔ b.val % 32 < 31 := by unfold Pix.col nPix at *; omega
  simp only [neighbours, List.map_append, neighbourAt_map_val, decide_eq_true_eq, up, down, left, right]

/-- Two neighbours in the column, or one in the first and last row; likewise in the row. -/
theorem neighbours_length (b : Pixel) :
    (neighbours b).length =
      (if 0 < b.val / 32 ∧ b.val / 32 < 23 then 2 else 1)
        + (if 0 < b.val % 32 ∧ b.val % 32 < 31 then 2 else 1) := by
  have count (p : Prop) [Decidable p] (n : Nat) : (if p then [n] else []).length = if p then 1 else 0 := by
    split <;> rfl
  rw [← List.length_map (fun n : Pixel => n.val), neighbours_map_val]
  simp only [List.length_append, count]
  have inGrid : b.val < 768 := b.isLt
  split_ifs <;> omega

theorem flipGrid_get (t : Grid F32) (i : Pixel) : (flipGrid t).get i = t.get (mirror i) := Table.get_tab _ i

theorem mirror_val (i : Pixel) : (mirror i).val = i.val / 32 * 32 + (31 - i.val % 32) := rfl

/-- Settles O37: the neighbours by their indices, and the mirrored pixel by its row and column. -/
theorem gridGeometry : Obligations.GridGeometry := by
  refine ⟨fun b => ⟨neighbours_map_val b, neighbours_length b⟩, fun t y x hy hx => ?_⟩
  rw [flipGrid_get]
  congr 1
  rw [Fin.ext_iff, mirror_val]
  dsimp only
  omega

/-! ### Repair (R260, R262) -/

theorem repair_append (pre post : List Pixel) (t : Grid F32) :
    repair (pre ++ post) t = repair post (repair pre t) := List.foldl_append ..

theorem repair_cons (b : Pixel) (bad : List Pixel) (t : Grid F32) :
    repair (b :: bad) t = repair bad (t.set b (avgAt t b)) := rfl

theorem repair_get_of_not_mem {bad : List Pixel} {i : Pixel} (h : i ∉ bad) (t : Grid F32) :
    (repair bad t).get i = t.get i := by
  induction bad generalizing t with
  | nil => rfl
  | cons b bad ih =>
    obtain ⟨other, rest⟩ := not_or.mp (mt List.mem_cons.mpr h)
    rw [repair_cons, ih rest, Table.get_set_ne _ _ (Ne.symm other)]

/-- Settles O38: a listed pixel is written at its turn, after the pixels before it, and never again. -/
theorem repairInListOrder : Obligations.RepairInListOrder := by
  have two : F32.ofInt 2 = 0x40000000#32 := by decide +kernel
  have three : F32.ofInt 3 = 0x40400000#32 := by decide +kernel
  have four : F32.ofInt 4 = 0x40800000#32 := by decide +kernel
  refine ⟨fun _ => rfl, fun pre post b t distinct => ⟨fun i hi => repair_get_of_not_mem hi t, ?turn,
    fun v w => congrArg (F32.div _) two, fun v w x => congrArg (F32.div _) three,
    fun v w x y => congrArg (F32.div _) four⟩⟩
  case turn =>
    have notAgain : b ∉ post := (List.nodup_cons.mp (List.nodup_append.mp distinct).2.1).1
    rw [repair_append, repair_cons, repair_get_of_not_mem notAgain, Table.get_set_self, avgAt]

end Sys2Proof.Machine
end

section
/-! PROOFS. The two scans of the grid as one (R264), and what NONFINITE says of the outputs (R265). -/

namespace Sys2Proof

/-! ### The entries of a table in order -/

section
variable {α : Type} {n : Nat}

theorem Table.vals_eq_cons (t : Table (n + 1) α) : t.vals = t.get 0 :: t.vals.tail := by
  obtain ⟨vals, len⟩ := t
  cases vals with
  | nil => cases len
  | cons x xs => rfl

/-- The value behind a first part of the entries is the entry at that part's length. -/
theorem Table.exists_get_of_vals_eq {t : Table n α} {pre post : List α} {m : α}
    (split : t.vals = pre ++ m :: post) : ∃ j, j.val = pre.length ∧ t.get j = m := by
  have inTable : pre.length < n := by
    rw [← t.len, split, List.length_append, List.length_cons]
    omega
  exact ⟨⟨pre.length, inTable⟩, rfl, by simp [Table.get, split]⟩

/-- The entries below the length of a first part of them lie in it. -/
theorem Table.get_mem_of_vals_eq {t : Table n α} {pre post : List α} {i : Fin n}
    (split : t.vals = pre ++ post) (hi : i.val < pre.length) : t.get i ∈ pre := by
  have entry : t.get i = pre[i.val] := by simp [Table.get, split, List.getElem_append_left hi]
  rw [entry]
  exact List.getElem_mem hi

end

namespace Machine

/-! ### The scans (R264) -/

/-- Both scans as one: `better y m` says that the entry `y` takes the place of `m`. -/
def scanBy (better : F32 → F32 → Bool) (g : Grid F32) : F32 :=
  g.vals.tail.foldl (fun m y => if better y m then y else m) (g.get 0)

theorem scanMin_eq (g : Grid F32) : scanMin g = scanBy F32.lt g := rfl
theorem scanMax_eq (g : Grid F32) : scanMax g = scanBy (fun x y => F32.lt y x) g := rfl

/-- `better` compares the ranks of two numbers, and is false when an operand is a NaN. -/
def ComparesBy (better : F32 → F32 → Bool) (rank : F32 → Int) : Prop :=
  ∀ x y, better x y = true ↔ F32.isNaN x = false ∧ F32.isNaN y = false ∧ rank x < rank y

theorem comparesBy_lt : ComparesBy F32.lt F32.key := fun x y => by
  simp only [F32.lt, Bool.and_eq_true, Bool.not_eq_true', decide_eq_true_eq, and_assoc]

theorem comparesBy_gt : ComparesBy (fun x y => F32.lt y x) (fun x => -F32.key x) := fun x y => by
  rw [comparesBy_lt y x, neg_lt_neg_iff, and_left_comm]

/-- `m` is the first best entry of `l`: a number that no entry is better than, and better than every number
before it. -/
def FirstBest (better : F32 → F32 → Bool) (l : List F32) (m : F32) : Prop :=
  F32.isNaN m = false ∧ (∀ y ∈ l, better y m = false) ∧
    ∃ pre post, l = pre ++ m :: post ∧ ∀ y ∈ pre, F32.isNaN y = false → better m y = true

/-- An entry that is not better leaves the first best one. -/
theorem FirstBest.keep {better : F32 → F32 → Bool} {l : List F32} {m y : F32} (h : FirstBest better l m)
    (hy : better y m = false) : FirstBest better (l ++ [y]) m := by
  obtain ⟨num, best, pre, post, rfl, first⟩ := h
  refine ⟨num, List.forall_mem_append.mpr ⟨best, List.forall_mem_singleton.mpr hy⟩,
    pre, post ++ [y], ?_, first⟩
  rw [List.append_assoc, List.cons_append]

section
variable {better : F32 → F32 → Bool} {rank : F32 → Int} (cmp : ComparesBy better rank)
include cmp

theorem ComparesBy.irrefl (x : F32) : better x x = false := by
  refine Bool.eq_false_iff.mpr fun h => ?_
  obtain ⟨-, -, lower⟩ := (cmp x x).mp h
  exact lt_irrefl _ lower

theorem ComparesBy.nan_right (x : F32) {y : F32} (nan : F32.isNaN y = true) : ¬ better x y = true := by
  intro h
  obtain ⟨-, num, -⟩ := (cmp x y).mp h
  exact absurd (nan.symm.trans num) (by decide)

/-- What is better than `m` is better than every number that is not. -/
theorem ComparesBy.better_of_not_better {m y z : F32} (hy : better y m = true) (hz : better z m = false)
    (num : F32.isNaN z = false) : better y z = true := by
  obtain ⟨numY, numM, lower⟩ := (cmp y m).mp hy
  have notLower : ¬ rank z < rank m := fun h => Bool.eq_false_iff.mp hz ((cmp z m).mpr ⟨num, numM, h⟩)
  exact (cmp y z).mpr ⟨numY, num, by omega⟩

/-- What is not better than `m` is not better than what is. -/
theorem ComparesBy.not_better_of_better {m y z : F32} (hy : better y m = true) (hz : better z m = false) :
    better z y = false := by
  obtain ⟨-, numM, lower⟩ := (cmp y m).mp hy
  refine Bool.eq_false_iff.mpr fun h => Bool.eq_false_iff.mp hz ?_
  obtain ⟨numZ, -, lower'⟩ := (cmp z y).mp h
  exact (cmp z m).mpr ⟨numZ, numM, by omega⟩

/-- An entry better than the best one is the first best of the list it ends. -/
theorem FirstBest.replace {l : List F32} {m y : F32} (h : FirstBest better l m) (hy : better y m = true) :
    FirstBest better (l ++ [y]) y := by
  obtain ⟨-, best, -⟩ := h
  obtain ⟨numY, -, -⟩ := (cmp y m).mp hy
  exact ⟨numY,
    List.forall_mem_append.mpr ⟨fun z hz => cmp.not_better_of_better hy (best z hz),
      List.forall_mem_singleton.mpr (cmp.irrefl y)⟩,
    l, [], rfl, fun z hz => cmp.better_of_not_better hy (best z hz)⟩

/-- The scan of a list whose first entry is a number finds the first best entry. -/
theorem firstBest_foldl {x : F32} (hx : F32.isNaN x = false) (xs : List F32) :
    FirstBest better (x :: xs) (xs.foldl (fun m y => if better y m then y else m) x) := by
  induction xs using List.reverseRecOn with
  | nil => exact ⟨hx, List.forall_mem_singleton.mpr (cmp.irrefl x), [], [], rfl, nofun⟩
  | append_singleton xs y ih =>
    rw [List.foldl_append, List.foldl_cons, List.foldl_nil, ← List.cons_append]
    split
    · exact ih.replace cmp ‹_›
    · exact ih.keep (Bool.eq_false_iff.mpr ‹_›)

/-- A first entry that is a NaN stays. -/
theorem scanBy_of_nan {g : Grid F32} (nan : F32.isNaN (g.get 0) = true) : scanBy better g = g.get 0 :=
  List.foldl_fixed' (fun y => if_neg (cmp.nan_right y nan)) _

/-- From a first entry that is a number on, the scan finds the first best entry of the grid. -/
theorem scanBy_of_number {g : Grid F32} (num : F32.isNaN (g.get 0) = false) :
    ∃ j, scanBy better g = g.get j ∧ F32.isNaN (g.get j) = false ∧
      (∀ i, better (g.get i) (g.get j) = false) ∧
      ∀ i, i.val < j.val → F32.isNaN (g.get i) = false → better (g.get j) (g.get i) = true := by
  have found : FirstBest better (g.get 0 :: g.vals.tail) (scanBy better g) := firstBest_foldl cmp num _
  rw [← Table.vals_eq_cons] at found
  obtain ⟨numM, best, pre, post, split, first⟩ := found
  obtain ⟨j, length, entry⟩ := Table.exists_get_of_vals_eq split
  rw [← entry] at numM best first ⊢
  refine ⟨j, rfl, numM, fun i => best _ ((Table.mem_vals g _).mpr ⟨i, rfl⟩), fun i hi => first _ ?_⟩
  exact Table.get_mem_of_vals_eq split (length ▸ hi)

theorem scanBy_mem (g : Grid F32) : ∃ j, scanBy better g = g.get j := by
  cases h : F32.isNaN (g.get 0)
  · obtain ⟨j, hj, -⟩ := scanBy_of_number cmp h
    exact ⟨j, hj⟩
  · exact ⟨0, scanBy_of_nan cmp h⟩

end

/-- Settles O39: both scans keep the first best entry, one by the key and one by its opposite. -/
theorem minMaxScan : Obligations.MinMaxScan := fun _ =>
  ⟨fun nan => ⟨scanBy_of_nan comparesBy_lt nan, scanBy_of_nan comparesBy_gt nan⟩,
    fun num => ⟨scanBy_of_number comparesBy_lt num, scanBy_of_number comparesBy_gt num⟩⟩

theorem scanMin_mem (g : Grid F32) : ∃ j, scanMin g = g.get j := scanBy_mem comparesBy_lt g
theorem scanMax_mem (g : Grid F32) : ∃ j, scanMax g = g.get j := scanBy_mem comparesBy_gt g

/-! ### NONFINITE (R265) -/

/-- Settles O40: the draws keep which entries are finite, and each scan returns an entry. -/
theorem nonfiniteFlagMatchesOutputs : Obligations.NonfiniteFlagMatchesOutputs := by
  intro draws fs g o
  have shows := outputsOf_temp_shows draws fs g
  have flag : anyNonfinite g = true ↔ ∃ i, F32.isFinite (o.temp.get i) = false := by
    rw [← anyNonfinite_outputsOf draws fs, anyNonfinite_iff]
  obtain ⟨jMin, minEntry⟩ := scanMin_mem o.temp
  obtain ⟨jMax, maxEntry⟩ := scanMax_mem o.temp
  refine ⟨anyNonfinite_iff g, flag.trans ⟨.inl, ?_⟩, fun i => (shows i).1, fun i => (shows i).2⟩
  rintro (temp | min | max)
  · exact temp
  · rw [outputsOf_minTemp, minEntry] at min
    exact ⟨jMin, min⟩
  · rw [outputsOf_maxTemp, maxEntry] at max
    exact ⟨jMax, max⟩

end Machine
end Sys2Proof
end

section
/-! PROOFS. The short commands (R280 to R282): what NOP, CLEAR_FLAGS and SOFT_RESET leave of the state, and
what an illegal word does at CMD (R103, R308). -/

namespace Sys2Proof.Machine

/-! ### STATUS from its word -/

theorem Err.code_injective : Function.Injective Err.code := by
  intro e f
  cases e <;> cases f <;> decide

/-- STATUS has no hidden part: its word says every field (R34). -/
theorem Status.word_injective : Function.Injective Status.word := by
  intro t u h
  obtain ⟨busy, cal, out, merged0, merged1, overflow, nonfinite, sticky, err, op, -⟩ := statusWordLayout t
  have fields := statusWordLayout u
  rw [← h, busy, cal, out, merged0, merged1, overflow, nonfinite, sticky, err, op,
    Err.code_injective.eq_iff] at fields
  rw [Status.mk.injEq]
  simp only [fields, and_self]

/-! ### NOP and CLEAR_FLAGS (R280, R281) -/

theorem exec_nop_idle {s : State} (idle : s.status.busy = false) :
    exec .nop s = .next { s with status := { s.status with lastOp := 0x0#4, err := .ok } } :=
  congrArg _ (State.issueShort_idle idle _ _)

theorem exec_clearFlags_idle {s : State} (idle : s.status.busy = false) :
    exec .clearFlags s =
      .next
        { s with status := { s.status with lastOp := 0x4#4, err := .ok, writeWhileBusy := false } } :=
  congrArg _ (State.issueShort_idle idle _ _)

/-- Settles O6: the example's STATUS word says that BUSY is 0, so NOP runs there. -/
theorem nopSetsLastOpAndErr : Obligations.NopSetsLastOpAndErr := by
  intro s
  refine ⟨exec_nop_idle, fun busy => exec_busy busy (by decide), fun word => ?_, rfl, rfl⟩
  have status : s.status = { Status.cleared with calValid := true, err := .frameIncomplete, lastOp := 3#4 } :=
    Status.word_injective word
  have after : Status.word { s.status with lastOp := 0x0#4, err := .ok } = 0x00000002#32 := by
    rw [status]
    decide
  exact ⟨_, exec_nop_idle (congrArg Status.busy status), after⟩

/-- Settles O7: the example's STATUS word says that BUSY is 0, so CLEAR_FLAGS runs there. -/
theorem clearFlagsClearsStickyAndErr : Obligations.ClearFlagsClearsStickyAndErr := by
  intro s
  refine ⟨exec_clearFlags_idle, fun busy => exec_busy busy (by decide), fun word => ?_, rfl, rfl⟩
  have status : s.status =
      { Status.cleared with calValid := true, badOverflow := true, writeWhileBusy := true, lastOp := 1#4 } :=
    Status.word_injective word
  have after : Status.word { s.status with lastOp := 0x4#4, err := .ok, writeWhileBusy := false } =
      0x00004022#32 := by
    rw [status]
    decide
  exact ⟨_, exec_clearFlags_idle (congrArg Status.busy status), after⟩

/-! ### SOFT_RESET (R282, R330) and illegal words (R103, R308) -/

theorem exec_softReset (s : State) : exec .softReset s = .next (s.resetBlock.setLastOp 0xF#4) := rfl

/-- No AUX register is valid after a reset. -/
@[simp] theorem AuxValid.get_none (r : AuxName) : AuxValid.none.get r = false := by cases r <;> rfl

/-- A word that is no command is discarded while BUSY is 1, and refused with its OP recorded otherwise. -/
theorem writeCmd_illegal {v : Word} (illegal : ¬ ∃ i, decodeWord v = .ok i) (s : State) :
    writeCmd v s =
      .next (if s.status.busy then s.discardWrite else s.raiseError (opField v) .illegalCmd) := by
  unfold writeCmd
  split
  case h_1 i hd => exact absurd ⟨i, hd⟩ illegal
  case h_2 => rfl

/-- SOFT_RESET's is the one command word whose OP is `0xF`. -/
theorem eq_softReset_of_decodeWord {v : Word} (op : opField v = 0xF#4) (h : ∃ i, decodeWord v = .ok i) :
    v = 0x0000000F#32 := by
  have mem := exists_decodeWord_iff_mem.mp h
  revert op
  fin_cases mem <;> decide

/-- Settles O8: what the reset leaves is read off its fields, and a word with OP `0xF` and another bit set
is no command. -/
theorem softResetClearsBlock : Obligations.SoftResetClearsBlock := by
  intro s
  have word : Status.word { Status.cleared with lastOp := 0xF#4 } = 0x0000F000#32 := by decide
  refine ⟨⟨_, exec_softReset s, word, rfl, rfl, fun _ => rfl, fun _ => rfl, fun _ => rfl, AuxValid.get_none,
    rfl, rfl, rfl, rfl, rfl, rfl, rfl⟩, fun v op other => ?_⟩
  have field : opField v = 0xF#4 := BitVec.eq_of_toNat_eq (by simpa [opField] using op)
  rw [writeCmd_illegal fun h => other (eq_softReset_of_decodeWord field h), field]
  rfl

end Sys2Proof.Machine
end

section
/-! PROOFS. The refusals (R300 to R305, R308): an illegal word, and a long command whose check fails. -/

namespace Sys2Proof

/-- OP is bits 3:0 (R100). -/
theorem opField_eq_ofNat (v : Word) : opField v = BitVec.ofNat 4 (v.toNat % 16) :=
  BitVec.eq_of_toNat_eq (by simp [opField])

namespace Machine

/-! ### An illegal word (R301) -/

theorem writePort_cmdAddr (v : Word) (s : State) : writePort cmdAddr v s = writeCmd v s := rfl

/-- Settles O9: a word that R102 calls illegal is no command's, so CMD records ILLEGAL_CMD. -/
theorem illegalWordRecorded : Obligations.IllegalWordRecorded := by
  intro s v idle illegal
  have noCommand : ¬ ∃ i, decodeWord v = .ok i := (legalCommandWords v).1.not.mpr illegal
  have refused : writePort cmdAddr v s = .next (s.raiseError (opField v) .illegalCmd) := by
    rw [writePort_cmdAddr, writeCmd_illegal noCommand, idle]
    rfl
  rw [opField_eq_ofNat] at refused
  exact ⟨refused, rfl⟩

/-! ### A long command whose check fails (R302 to R305) -/

/-- A failed check is recorded with the command's OP, and that is the command's whole effect. -/
theorem exec_refused {i : Instr} {s : State} {e : Err} (idle : s.status.busy = false)
    (failed : longCheck i s = some (some e)) : exec i s = .next (s.raiseError (opField (encode i)) e) := by
  have refused (v : Word) {check : Option Err} (h : some check = some (some e)) :
      s.issueLong v check = s.raiseError (opField v) e := by
    rw [Option.some.inj h, State.issueLong_refused idle]
  cases i with
  | nop | clearFlags | softReset => nomatch failed
  | decode | merge o | evaluate => exact congrArg _ (refused _ failed)

/-- MERGE's OP, for every offset of the document. -/
theorem opField_encode_merge_any (o : Nat) : opField (encode (.merge o)) = 0x2#4 := by
  rw [opField_eq_ofNat, (Laws.EncodingFields.merge o).1]
  rfl

/-- DECODE's one error is EE_INCOMPLETE. -/
theorem decodeCheck_of_missing {s : State} {k : Nat} (hk : k < 832) (missing : s.eeValid k = false) :
    decodeCheck s = some .eeIncomplete := by
  cases check : decodeCheck s with
  | none => exact absurd ((decodeCheck_eq_none s).mp check k hk) (ne_true_of_eq_false missing)
  | some e => rw [decodeCheck_eq_some check]

/-- MERGE's one error is PIX_INCOMPLETE. -/
theorem mergeCheck_of_missing {s : State} {o idx : Nat} (hidx : idx < 768)
    (half : (idx / 32 + idx % 32) % 2 = o % 2) (missing : s.pixValid idx = false) :
    mergeCheck o s = some .pixIncomplete := by
  cases check : mergeCheck o s with
  | none => exact absurd ((mergeCheck_eq_none o s).mp check idx hidx half) (ne_true_of_eq_false missing)
  | some e => rw [mergeCheck_eq_some check]

/-- Settles O11: a word that is missing fails the command's check. -/
theorem refusedOnMissingWords : Obligations.RefusedOnMissingWords := by
  intro s idle
  refine ⟨fun ⟨k, hk, missing⟩ => ?_, fun o ⟨idx, hidx, half, missing⟩ => ?_, rfl, rfl⟩
  · exact exec_refused idle (congrArg some (decodeCheck_of_missing hk missing))
  · rw [exec_refused (i := .merge o) idle (congrArg some (mergeCheck_of_missing hidx half missing)),
      opField_encode_merge_any]
    rfl

/-! ### The order of EVALUATE's checks (R304 to R306, R308) -/

section
variable {s : State}

theorem evaluateCheck_uncalibrated (uncalibrated : s.status.calValid = false) :
    evaluateCheck s = some .notCalibrated := by
  rw [evaluateCheck, uncalibrated]
  rfl

theorem evaluateCheck_unmerged (calibrated : s.status.calValid = true)
    (unmerged : s.status.merged0 = false ∨ s.status.merged1 = false) :
    evaluateCheck s = some .frameIncomplete := by
  have half : (s.status.merged0 && s.status.merged1) = false := Bool.and_eq_false_iff.mpr unmerged
  rw [evaluateCheck, calibrated, half]
  rfl

theorem evaluateCheck_auxMissing (calibrated : s.status.calValid = true) (merged0 : s.status.merged0 = true)
    (merged1 : s.status.merged1 = true) {r : AuxName} (missing : s.auxValid.get r = false) :
    evaluateCheck s = some .auxIncomplete := by
  have incomplete : s.auxValid.complete = false :=
    Bool.eq_false_iff.mpr fun complete =>
      ne_true_of_eq_false missing ((AuxValid.complete_iff _).mp complete r)
  rw [evaluateCheck, calibrated, merged0, merged1, incomplete]
  rfl

end

/-- Settles O12: each clause's hypotheses say that its check is the first to fail. -/
theorem evaluateRefusedInOrder : Obligations.EvaluateRefusedInOrder := by
  intro s idle
  have refused {e : Err} (failed : evaluateCheck s = some e) :
      exec .evaluate s = .next (s.raiseError 0x3#4 e) := exec_refused idle (congrArg some failed)
  exact ⟨fun uncalibrated => refused (evaluateCheck_uncalibrated uncalibrated),
    fun calibrated unmerged => refused (evaluateCheck_unmerged calibrated unmerged),
    fun calibrated merged0 merged1 ⟨_, missing⟩ =>
      refused (evaluateCheck_auxMissing calibrated merged0 merged1 missing),
    rfl, rfl, rfl⟩

end Machine
end Sys2Proof
end

section
/-! PROOFS. What the reset leaves, at power-on and by the reset input (R330 to R333): the block is idle,
nothing is valid, and the invariant holds. -/

namespace Sys2Proof.Machine

/-! ### STATUS and the locations after a reset -/

theorem Status.word_cleared : Status.cleared.word = 0x00000000#32 := by decide

theorem Status.merged_cleared (o : Nat) : Status.cleared.merged o = false := by
  unfold Status.merged
  split <;> rfl

/-- The state at power-on is one that the reset operation leaves as it is. -/
theorem State.resetBlock_reset : State.reset.resetBlock = State.reset := rfl

/-- After a reset a location holds a value only where no valid bit guards it (R75, R330). -/
theorem State.contents_resetBlock (s : State) {l : Loc} (notId : l ≠ .id) (notCmd : l ≠ .cmd)
    (notStatus : l ≠ .status) (notReserved : l ≠ .reserved) : s.resetBlock.contents l = none := by
  cases l with
  | id | cmd | status | reserved => contradiction
  | aux r => rw [State.contents, State.resetBlock_auxValid, AuxValid.get_none, whenValid, if_neg (by decide)]
  | _ => rfl

/-- A step whose event is the reset input is the reset operation, whether BUSY is 1 or not (R331). -/
theorem step_hardReset {s : State} {es : List HostEvent} (notDue : s.engineDue = false)
    (event : s.host.inputs = .hardReset :: es) : step s = .next (s.tick.setInputs es).resetBlock := by
  have ticked : s.tick.host.inputs = .hardReset :: es := event
  simp only [step_host notDue, hostTurn, ticked]

/-! ### The statements -/

/-- Settles O52: the state is one the reset operation leaves, so every guarded location reads as a draw. -/
theorem resetLeavesBlockIdle : Obligations.ResetLeavesBlockIdle := by
  refine ⟨Status.word_cleared, rfl, State.peek_idle rfl (l := .id) rfl, fun _ => rfl, fun _ => rfl,
    AuxValid.get_none, fun a notId notCmd notStatus notReserved => ?_, rfl⟩
  rw [State.peek_idle rfl rfl, ← State.resetBlock_reset]
  exact State.contents_resetBlock _ notId notCmd notStatus notReserved

/-- Settles O53: the step is the reset operation, and what that leaves is read off its fields. -/
theorem hardResetAtAnyTime : Obligations.HardResetAtAnyTime := fun _ _ notDue event =>
  ⟨_, step_hardReset notDue event, Status.word_cleared, rfl, fun _ => rfl, fun _ => rfl, fun _ => rfl,
    AuxValid.get_none, rfl⟩

/-- Settles O54: no word is listed, no flag is set and nothing is pending; the capacity is the default of
R6. -/
theorem resetMeetsInvariant : Obligations.ResetMeetsInvariant where
  memWf := Memory.wf_nil
  memInBuffers := List.forall_mem_nil _
  capLegal := by decide
  pendingLong := Bool.noConfusion
  storeDecoded := Bool.noConfusion
  mergedHalf := fun o merged => absurd merged (ne_true_of_eq_false (Status.merged_cleared o))
  outputMatches := Bool.noConfusion

end Sys2Proof.Machine
end
